-- ==== Sys2Proof/Word.lean ====
section
/-! DEFINITION. The word types of the hart (R10, R17): 64-bit words, bytes and 32-bit words. -/

namespace Sys2Proof

/-- An XLEN-wide value: an integer register, the pc, a CSR, an address while it is computed (R10). -/
abbrev Word := BitVec 64

/-- A byte of memory, of the UART window or of the disk image. -/
abbrev Byte := BitVec 8

/-- A 32-bit word: an instruction, a PLIC or disk register, a scancode. -/
abbrev Word32 := BitVec 32

/-- The number of an integer register, x0 to x31 (R40). -/
abbrev Reg := Fin 32

/-- The 12-bit number of a CSR (R50). -/
abbrev CsrNum := BitVec 12

end Sys2Proof
end

