-- ==== Sys2Proof/Syntax.lean ====
section
/-! DEFINITION. The instructions: one constructor per row of spec/opcode_table.json (R188), its operands the row's fields
(R181 to R184). Register numbers are `Fin 32`; an immediate is the field's own bits, sign extension comes at use (R183).
`imm` of a branch or JAL is the whole byte offset, bit 0 included (R183: it is a multiple of 2). -/

namespace Sys2Proof

/-- The 92 instructions of R188. -/
inductive Instr where
  /-- LUI (R350): `lui rd, imm`. -/
  | lui (rd : Reg) (imm : BitVec 20)
  /-- AUIPC (R351): `auipc rd, imm`. -/
  | auipc (rd : Reg) (imm : BitVec 20)
  /-- JAL (R337): `jal rd, pc_cur + imm`. -/
  | jal (rd : Reg) (imm : BitVec 21)
  /-- JALR (R338): `jalr rd, imm(rs1)`. -/
  | jalr (rd rs1 : Reg) (imm : BitVec 12)
  /-- BEQ (R331): `beq rs1, rs2, pc_cur + imm`. -/
  | beq (rs1 rs2 : Reg) (imm : BitVec 13)
  /-- BNE (R332): `bne rs1, rs2, pc_cur + imm`. -/
  | bne (rs1 rs2 : Reg) (imm : BitVec 13)
  /-- BLT (R333): `blt rs1, rs2, pc_cur + imm`. -/
  | blt (rs1 rs2 : Reg) (imm : BitVec 13)
  /-- BGE (R334): `bge rs1, rs2, pc_cur + imm`. -/
  | bge (rs1 rs2 : Reg) (imm : BitVec 13)
  /-- BLTU (R335): `bltu rs1, rs2, pc_cur + imm`. -/
  | bltu (rs1 rs2 : Reg) (imm : BitVec 13)
  /-- BGEU (R336): `bgeu rs1, rs2, pc_cur + imm`. -/
  | bgeu (rs1 rs2 : Reg) (imm : BitVec 13)
  /-- LB (R211): `lb rd, imm(rs1)`. -/
  | lb (rd rs1 : Reg) (imm : BitVec 12)
  /-- LH (R212): `lh rd, imm(rs1)`. -/
  | lh (rd rs1 : Reg) (imm : BitVec 12)
  /-- LW (R213): `lw rd, imm(rs1)`. -/
  | lw (rd rs1 : Reg) (imm : BitVec 12)
  /-- LD (R214): `ld rd, imm(rs1)`. -/
  | ld (rd rs1 : Reg) (imm : BitVec 12)
  /-- LBU (R215): `lbu rd, imm(rs1)`. -/
  | lbu (rd rs1 : Reg) (imm : BitVec 12)
  /-- LHU (R216): `lhu rd, imm(rs1)`. -/
  | lhu (rd rs1 : Reg) (imm : BitVec 12)
  /-- LWU (R217): `lwu rd, imm(rs1)`. -/
  | lwu (rd rs1 : Reg) (imm : BitVec 12)
  /-- SB (R219): `sb rs2, imm(rs1)`. -/
  | sb (rs1 rs2 : Reg) (imm : BitVec 12)
  /-- SH (R220): `sh rs2, imm(rs1)`. -/
  | sh (rs1 rs2 : Reg) (imm : BitVec 12)
  /-- SW (R221): `sw rs2, imm(rs1)`. -/
  | sw (rs1 rs2 : Reg) (imm : BitVec 12)
  /-- SD (R222): `sd rs2, imm(rs1)`. -/
  | sd (rs1 rs2 : Reg) (imm : BitVec 12)
  /-- ADDI (R231): `addi rd, rs1, imm`. -/
  | addi (rd rs1 : Reg) (imm : BitVec 12)
  /-- SLTI (R232): `slti rd, rs1, imm`. -/
  | slti (rd rs1 : Reg) (imm : BitVec 12)
  /-- SLTIU (R233): `sltiu rd, rs1, imm`. -/
  | sltiu (rd rs1 : Reg) (imm : BitVec 12)
  /-- XORI (R234): `xori rd, rs1, imm`. -/
  | xori (rd rs1 : Reg) (imm : BitVec 12)
  /-- ORI (R235): `ori rd, rs1, imm`. -/
  | ori (rd rs1 : Reg) (imm : BitVec 12)
  /-- ANDI (R236): `andi rd, rs1, imm`. -/
  | andi (rd rs1 : Reg) (imm : BitVec 12)
  /-- SLLI (R237): `slli rd, rs1, shamt`. -/
  | slli (rd rs1 : Reg) (shamt : BitVec 6)
  /-- SRLI (R238): `srli rd, rs1, shamt`. -/
  | srli (rd rs1 : Reg) (shamt : BitVec 6)
  /-- SRAI (R239): `srai rd, rs1, shamt`. -/
  | srai (rd rs1 : Reg) (shamt : BitVec 6)
  /-- ADD (R240): `add rd, rs1, rs2`. -/
  | add (rd rs1 rs2 : Reg)
  /-- SUB (R241): `sub rd, rs1, rs2`. -/
  | sub (rd rs1 rs2 : Reg)
  /-- SLL (R242): `sll rd, rs1, rs2`. -/
  | sll (rd rs1 rs2 : Reg)
  /-- SLT (R243): `slt rd, rs1, rs2`. -/
  | slt (rd rs1 rs2 : Reg)
  /-- SLTU (R244): `sltu rd, rs1, rs2`. -/
  | sltu (rd rs1 rs2 : Reg)
  /-- XOR (R245): `xor rd, rs1, rs2`. -/
  | xor (rd rs1 rs2 : Reg)
  /-- SRL (R246): `srl rd, rs1, rs2`. -/
  | srl (rd rs1 rs2 : Reg)
  /-- SRA (R247): `sra rd, rs1, rs2`. -/
  | sra (rd rs1 rs2 : Reg)
  /-- OR (R248): `or rd, rs1, rs2`. -/
  | or (rd rs1 rs2 : Reg)
  /-- AND (R249): `and rd, rs1, rs2`. -/
  | and (rd rs1 rs2 : Reg)
  /-- ADDIW (R250): `addiw rd, rs1, imm`. -/
  | addiw (rd rs1 : Reg) (imm : BitVec 12)
  /-- SLLIW (R251): `slliw rd, rs1, shamt`. -/
  | slliw (rd rs1 : Reg) (shamt : BitVec 5)
  /-- SRLIW (R252): `srliw rd, rs1, shamt`. -/
  | srliw (rd rs1 : Reg) (shamt : BitVec 5)
  /-- SRAIW (R253): `sraiw rd, rs1, shamt`. -/
  | sraiw (rd rs1 : Reg) (shamt : BitVec 5)
  /-- ADDW (R254): `addw rd, rs1, rs2`. -/
  | addw (rd rs1 rs2 : Reg)
  /-- SUBW (R255): `subw rd, rs1, rs2`. -/
  | subw (rd rs1 rs2 : Reg)
  /-- SLLW (R256): `sllw rd, rs1, rs2`. -/
  | sllw (rd rs1 rs2 : Reg)
  /-- SRLW (R257): `srlw rd, rs1, rs2`. -/
  | srlw (rd rs1 rs2 : Reg)
  /-- SRAW (R258): `sraw rd, rs1, rs2`. -/
  | sraw (rd rs1 rs2 : Reg)
  /-- MUL (R281): `mul rd, rs1, rs2`. -/
  | mul (rd rs1 rs2 : Reg)
  /-- MULH (R282): `mulh rd, rs1, rs2`. -/
  | mulh (rd rs1 rs2 : Reg)
  /-- MULHSU (R283): `mulhsu rd, rs1, rs2`. -/
  | mulhsu (rd rs1 rs2 : Reg)
  /-- MULHU (R284): `mulhu rd, rs1, rs2`. -/
  | mulhu (rd rs1 rs2 : Reg)
  /-- DIV (R285): `div rd, rs1, rs2`. -/
  | div (rd rs1 rs2 : Reg)
  /-- DIVU (R286): `divu rd, rs1, rs2`. -/
  | divu (rd rs1 rs2 : Reg)
  /-- REM (R287): `rem rd, rs1, rs2`. -/
  | rem (rd rs1 rs2 : Reg)
  /-- REMU (R288): `remu rd, rs1, rs2`. -/
  | remu (rd rs1 rs2 : Reg)
  /-- MULW (R289): `mulw rd, rs1, rs2`. -/
  | mulw (rd rs1 rs2 : Reg)
  /-- DIVW (R290): `divw rd, rs1, rs2`. -/
  | divw (rd rs1 rs2 : Reg)
  /-- DIVUW (R291): `divuw rd, rs1, rs2`. -/
  | divuw (rd rs1 rs2 : Reg)
  /-- REMW (R292): `remw rd, rs1, rs2`. -/
  | remw (rd rs1 rs2 : Reg)
  /-- REMUW (R293): `remuw rd, rs1, rs2`. -/
  | remuw (rd rs1 rs2 : Reg)
  /-- AMOSWAP.W (R305): `amoswap.w rd, rs2, (rs1)`. -/
  | amoswapW (aq rl : Bool) (rd rs1 rs2 : Reg)
  /-- AMOADD.W (R306): `amoadd.w rd, rs2, (rs1)`. -/
  | amoaddW (aq rl : Bool) (rd rs1 rs2 : Reg)
  /-- AMOXOR.W (R307): `amoxor.w rd, rs2, (rs1)`. -/
  | amoxorW (aq rl : Bool) (rd rs1 rs2 : Reg)
  /-- AMOAND.W (R308): `amoand.w rd, rs2, (rs1)`. -/
  | amoandW (aq rl : Bool) (rd rs1 rs2 : Reg)
  /-- AMOOR.W (R309): `amoor.w rd, rs2, (rs1)`. -/
  | amoorW (aq rl : Bool) (rd rs1 rs2 : Reg)
  /-- AMOMIN.W (R310): `amomin.w rd, rs2, (rs1)`. -/
  | amominW (aq rl : Bool) (rd rs1 rs2 : Reg)
  /-- AMOMAX.W (R311): `amomax.w rd, rs2, (rs1)`. -/
  | amomaxW (aq rl : Bool) (rd rs1 rs2 : Reg)
  /-- AMOMINU.W (R312): `amominu.w rd, rs2, (rs1)`. -/
  | amominuW (aq rl : Bool) (rd rs1 rs2 : Reg)
  /-- AMOMAXU.W (R313): `amomaxu.w rd, rs2, (rs1)`. -/
  | amomaxuW (aq rl : Bool) (rd rs1 rs2 : Reg)
  /-- AMOSWAP.D (R314): `amoswap.d rd, rs2, (rs1)`. -/
  | amoswapD (aq rl : Bool) (rd rs1 rs2 : Reg)
  /-- AMOADD.D (R315): `amoadd.d rd, rs2, (rs1)`. -/
  | amoaddD (aq rl : Bool) (rd rs1 rs2 : Reg)
  /-- AMOXOR.D (R316): `amoxor.d rd, rs2, (rs1)`. -/
  | amoxorD (aq rl : Bool) (rd rs1 rs2 : Reg)
  /-- AMOAND.D (R317): `amoand.d rd, rs2, (rs1)`. -/
  | amoandD (aq rl : Bool) (rd rs1 rs2 : Reg)
  /-- AMOOR.D (R318): `amoor.d rd, rs2, (rs1)`. -/
  | amoorD (aq rl : Bool) (rd rs1 rs2 : Reg)
  /-- AMOMIN.D (R319): `amomin.d rd, rs2, (rs1)`. -/
  | amominD (aq rl : Bool) (rd rs1 rs2 : Reg)
  /-- AMOMAX.D (R320): `amomax.d rd, rs2, (rs1)`. -/
  | amomaxD (aq rl : Bool) (rd rs1 rs2 : Reg)
  /-- AMOMINU.D (R321): `amominu.d rd, rs2, (rs1)`. -/
  | amominuD (aq rl : Bool) (rd rs1 rs2 : Reg)
  /-- AMOMAXU.D (R322): `amomaxu.d rd, rs2, (rs1)`. -/
  | amomaxuD (aq rl : Bool) (rd rs1 rs2 : Reg)
  /-- FENCE (R355): `fence pred, succ`. -/
  | fence (fm pred succ : BitVec 4) (rs1 rd : Reg)
  /-- ECALL (R380): `ecall`. -/
  | ecall
  /-- EBREAK (R381): `ebreak`. -/
  | ebreak
  /-- SRET (R384): `sret`. -/
  | sret
  /-- MRET (R385): `mret`. -/
  | mret
  /-- SFENCE.VMA (R357): `sfence.vma rs1, rs2`. -/
  | sfenceVma (rs1 rs2 : Reg)
  /-- CSRRW (R361): `csrrw rd, csr, rs1`. -/
  | csrrw (rd : Reg) (csr : CsrNum) (rs1 : Reg)
  /-- CSRRS (R362): `csrrs rd, csr, rs1`. -/
  | csrrs (rd : Reg) (csr : CsrNum) (rs1 : Reg)
  /-- CSRRC (R363): `csrrc rd, csr, rs1`. -/
  | csrrc (rd : Reg) (csr : CsrNum) (rs1 : Reg)
  /-- CSRRWI (R364): `csrrwi rd, csr, uimm`. -/
  | csrrwi (rd : Reg) (csr : CsrNum) (uimm : BitVec 5)
  /-- CSRRSI (R365): `csrrsi rd, csr, uimm`. -/
  | csrrsi (rd : Reg) (csr : CsrNum) (uimm : BitVec 5)
  /-- CSRRCI (R366): `csrrci rd, csr, uimm`. -/
  | csrrci (rd : Reg) (csr : CsrNum) (uimm : BitVec 5)
  deriving DecidableEq, Repr

end Sys2Proof
end

