-- ==== Sys2Proof/Decode.lean ====
section
/-! DEFINITION. Decoding (R180 to R188) and, after it, encoding. The opcode table is a list of rows, each a mask, a pattern and the
instruction the row's fields give; a word is the instruction of the row that fits it, and no row means no instruction. -/

namespace Sys2Proof

/-! ## Fields of an instruction word (R181 to R184) -/

/-- rd = w[11:7] (R184). -/
def rdOf (w : Word32) : Reg := (w.extractLsb' 7 5).toFin
/-- rs1 = w[19:15] (R184). -/
def rs1Of (w : Word32) : Reg := (w.extractLsb' 15 5).toFin
/-- rs2 = w[24:20] (R184). -/
def rs2Of (w : Word32) : Reg := (w.extractLsb' 20 5).toFin
/-- The I immediate's bits, w[31:20] (R183). -/
def immIOf (w : Word32) : BitVec 12 := w.extractLsb' 20 12
/-- The S immediate's bits (R183). -/
def immSOf (w : Word32) : BitVec 12 := w.extractLsb' 25 7 ++ w.extractLsb' 7 5
/-- The B immediate's bits, bit 0 zero (R183). -/
def immBOf (w : Word32) : BitVec 13 :=
  w.extractLsb' 31 1 ++ w.extractLsb' 7 1 ++ w.extractLsb' 25 6 ++ w.extractLsb' 8 4 ++ 0#1
/-- The U immediate's bits 31:12 (R183). -/
def immUOf (w : Word32) : BitVec 20 := w.extractLsb' 12 20
/-- The J immediate's bits, bit 0 zero (R183). -/
def immJOf (w : Word32) : BitVec 21 :=
  w.extractLsb' 31 1 ++ w.extractLsb' 12 8 ++ w.extractLsb' 20 1 ++ w.extractLsb' 21 10 ++ 0#1
/-- shamt[5:0] = w[25:20] (R182). -/
def shamt6Of (w : Word32) : BitVec 6 := w.extractLsb' 20 6
/-- shamt[4:0] = w[24:20] (R182). -/
def shamt5Of (w : Word32) : BitVec 5 := w.extractLsb' 20 5
/-- aq = w[26] (R182). -/
def aqOf (w : Word32) : Bool := w.getLsbD 26
/-- rl = w[25] (R182). -/
def rlOf (w : Word32) : Bool := w.getLsbD 25
/-- csr = w[31:20] (R182). -/
def csrOf (w : Word32) : CsrNum := w.extractLsb' 20 12
/-- uimm = w[19:15] (R182). -/
def uimmOf (w : Word32) : BitVec 5 := w.extractLsb' 15 5
/-- fm = w[31:28] (R182). -/
def fmOf (w : Word32) : BitVec 4 := w.extractLsb' 28 4
/-- pred = w[27:24] (R182). -/
def predOf (w : Word32) : BitVec 4 := w.extractLsb' 24 4
/-- succ = w[23:20] (R182). -/
def succOf (w : Word32) : BitVec 4 := w.extractLsb' 20 4

/-! ## The opcode table (R188) -/

/-- A row of the opcode table: the word is this instruction when its masked bits are the pattern. -/
structure Row where
  mnemonic : String
  mask : Word32
  pattern : Word32
  build : Word32 → Instr

/-- The word fits the row (R187). -/
def Row.fits (r : Row) (w : Word32) : Bool := w &&& r.mask == r.pattern

/-- Rows LUI to AUIPC of R188. -/
def rowsUpper : List Row := [
  { mnemonic := "LUI", mask := 0x0000007F#32, pattern := 0x00000037#32, build := fun w => .lui (rdOf w) (immUOf w) },
  { mnemonic := "AUIPC", mask := 0x0000007F#32, pattern := 0x00000017#32, build := fun w => .auipc (rdOf w) (immUOf w) } ]

/-- Rows JAL to BGEU of R188. -/
def rowsControl : List Row := [
  { mnemonic := "JAL", mask := 0x0000007F#32, pattern := 0x0000006F#32, build := fun w => .jal (rdOf w) (immJOf w) },
  { mnemonic := "JALR", mask := 0x0000707F#32, pattern := 0x00000067#32, build := fun w => .jalr (rdOf w) (rs1Of w) (immIOf w) },
  { mnemonic := "BEQ", mask := 0x0000707F#32, pattern := 0x00000063#32, build := fun w => .beq (rs1Of w) (rs2Of w) (immBOf w) },
  { mnemonic := "BNE", mask := 0x0000707F#32, pattern := 0x00001063#32, build := fun w => .bne (rs1Of w) (rs2Of w) (immBOf w) },
  { mnemonic := "BLT", mask := 0x0000707F#32, pattern := 0x00004063#32, build := fun w => .blt (rs1Of w) (rs2Of w) (immBOf w) },
  { mnemonic := "BGE", mask := 0x0000707F#32, pattern := 0x00005063#32, build := fun w => .bge (rs1Of w) (rs2Of w) (immBOf w) },
  { mnemonic := "BLTU", mask := 0x0000707F#32, pattern := 0x00006063#32, build := fun w => .bltu (rs1Of w) (rs2Of w) (immBOf w) },
  { mnemonic := "BGEU", mask := 0x0000707F#32, pattern := 0x00007063#32, build := fun w => .bgeu (rs1Of w) (rs2Of w) (immBOf w) } ]

/-- Rows LB to SD of R188. -/
def rowsLoadStore : List Row := [
  { mnemonic := "LB", mask := 0x0000707F#32, pattern := 0x00000003#32, build := fun w => .lb (rdOf w) (rs1Of w) (immIOf w) },
  { mnemonic := "LH", mask := 0x0000707F#32, pattern := 0x00001003#32, build := fun w => .lh (rdOf w) (rs1Of w) (immIOf w) },
  { mnemonic := "LW", mask := 0x0000707F#32, pattern := 0x00002003#32, build := fun w => .lw (rdOf w) (rs1Of w) (immIOf w) },
  { mnemonic := "LD", mask := 0x0000707F#32, pattern := 0x00003003#32, build := fun w => .ld (rdOf w) (rs1Of w) (immIOf w) },
  { mnemonic := "LBU", mask := 0x0000707F#32, pattern := 0x00004003#32, build := fun w => .lbu (rdOf w) (rs1Of w) (immIOf w) },
  { mnemonic := "LHU", mask := 0x0000707F#32, pattern := 0x00005003#32, build := fun w => .lhu (rdOf w) (rs1Of w) (immIOf w) },
  { mnemonic := "LWU", mask := 0x0000707F#32, pattern := 0x00006003#32, build := fun w => .lwu (rdOf w) (rs1Of w) (immIOf w) },
  { mnemonic := "SB", mask := 0x0000707F#32, pattern := 0x00000023#32, build := fun w => .sb (rs1Of w) (rs2Of w) (immSOf w) },
  { mnemonic := "SH", mask := 0x0000707F#32, pattern := 0x00001023#32, build := fun w => .sh (rs1Of w) (rs2Of w) (immSOf w) },
  { mnemonic := "SW", mask := 0x0000707F#32, pattern := 0x00002023#32, build := fun w => .sw (rs1Of w) (rs2Of w) (immSOf w) },
  { mnemonic := "SD", mask := 0x0000707F#32, pattern := 0x00003023#32, build := fun w => .sd (rs1Of w) (rs2Of w) (immSOf w) } ]

/-- Rows ADDI to SRAI of R188. -/
def rowsOpImm : List Row := [
  { mnemonic := "ADDI", mask := 0x0000707F#32, pattern := 0x00000013#32, build := fun w => .addi (rdOf w) (rs1Of w) (immIOf w) },
  { mnemonic := "SLTI", mask := 0x0000707F#32, pattern := 0x00002013#32, build := fun w => .slti (rdOf w) (rs1Of w) (immIOf w) },
  { mnemonic := "SLTIU", mask := 0x0000707F#32, pattern := 0x00003013#32, build := fun w => .sltiu (rdOf w) (rs1Of w) (immIOf w) },
  { mnemonic := "XORI", mask := 0x0000707F#32, pattern := 0x00004013#32, build := fun w => .xori (rdOf w) (rs1Of w) (immIOf w) },
  { mnemonic := "ORI", mask := 0x0000707F#32, pattern := 0x00006013#32, build := fun w => .ori (rdOf w) (rs1Of w) (immIOf w) },
  { mnemonic := "ANDI", mask := 0x0000707F#32, pattern := 0x00007013#32, build := fun w => .andi (rdOf w) (rs1Of w) (immIOf w) },
  { mnemonic := "SLLI", mask := 0xFC00707F#32, pattern := 0x00001013#32, build := fun w => .slli (rdOf w) (rs1Of w) (shamt6Of w) },
  { mnemonic := "SRLI", mask := 0xFC00707F#32, pattern := 0x00005013#32, build := fun w => .srli (rdOf w) (rs1Of w) (shamt6Of w) },
  { mnemonic := "SRAI", mask := 0xFC00707F#32, pattern := 0x40005013#32, build := fun w => .srai (rdOf w) (rs1Of w) (shamt6Of w) } ]

/-- Rows ADD to AND of R188. -/
def rowsOp : List Row := [
  { mnemonic := "ADD", mask := 0xFE00707F#32, pattern := 0x00000033#32, build := fun w => .add (rdOf w) (rs1Of w) (rs2Of w) },
  { mnemonic := "SUB", mask := 0xFE00707F#32, pattern := 0x40000033#32, build := fun w => .sub (rdOf w) (rs1Of w) (rs2Of w) },
  { mnemonic := "SLL", mask := 0xFE00707F#32, pattern := 0x00001033#32, build := fun w => .sll (rdOf w) (rs1Of w) (rs2Of w) },
  { mnemonic := "SLT", mask := 0xFE00707F#32, pattern := 0x00002033#32, build := fun w => .slt (rdOf w) (rs1Of w) (rs2Of w) },
  { mnemonic := "SLTU", mask := 0xFE00707F#32, pattern := 0x00003033#32, build := fun w => .sltu (rdOf w) (rs1Of w) (rs2Of w) },
  { mnemonic := "XOR", mask := 0xFE00707F#32, pattern := 0x00004033#32, build := fun w => .xor (rdOf w) (rs1Of w) (rs2Of w) },
  { mnemonic := "SRL", mask := 0xFE00707F#32, pattern := 0x00005033#32, build := fun w => .srl (rdOf w) (rs1Of w) (rs2Of w) },
  { mnemonic := "SRA", mask := 0xFE00707F#32, pattern := 0x40005033#32, build := fun w => .sra (rdOf w) (rs1Of w) (rs2Of w) },
  { mnemonic := "OR", mask := 0xFE00707F#32, pattern := 0x00006033#32, build := fun w => .or (rdOf w) (rs1Of w) (rs2Of w) },
  { mnemonic := "AND", mask := 0xFE00707F#32, pattern := 0x00007033#32, build := fun w => .and (rdOf w) (rs1Of w) (rs2Of w) } ]

/-- Rows ADDIW to SRAW of R188. -/
def rowsOp32 : List Row := [
  { mnemonic := "ADDIW", mask := 0x0000707F#32, pattern := 0x0000001B#32, build := fun w => .addiw (rdOf w) (rs1Of w) (immIOf w) },
  { mnemonic := "SLLIW", mask := 0xFE00707F#32, pattern := 0x0000101B#32, build := fun w => .slliw (rdOf w) (rs1Of w) (shamt5Of w) },
  { mnemonic := "SRLIW", mask := 0xFE00707F#32, pattern := 0x0000501B#32, build := fun w => .srliw (rdOf w) (rs1Of w) (shamt5Of w) },
  { mnemonic := "SRAIW", mask := 0xFE00707F#32, pattern := 0x4000501B#32, build := fun w => .sraiw (rdOf w) (rs1Of w) (shamt5Of w) },
  { mnemonic := "ADDW", mask := 0xFE00707F#32, pattern := 0x0000003B#32, build := fun w => .addw (rdOf w) (rs1Of w) (rs2Of w) },
  { mnemonic := "SUBW", mask := 0xFE00707F#32, pattern := 0x4000003B#32, build := fun w => .subw (rdOf w) (rs1Of w) (rs2Of w) },
  { mnemonic := "SLLW", mask := 0xFE00707F#32, pattern := 0x0000103B#32, build := fun w => .sllw (rdOf w) (rs1Of w) (rs2Of w) },
  { mnemonic := "SRLW", mask := 0xFE00707F#32, pattern := 0x0000503B#32, build := fun w => .srlw (rdOf w) (rs1Of w) (rs2Of w) },
  { mnemonic := "SRAW", mask := 0xFE00707F#32, pattern := 0x4000503B#32, build := fun w => .sraw (rdOf w) (rs1Of w) (rs2Of w) } ]

/-- Rows MUL to REMUW of R188. -/
def rowsMulDiv : List Row := [
  { mnemonic := "MUL", mask := 0xFE00707F#32, pattern := 0x02000033#32, build := fun w => .mul (rdOf w) (rs1Of w) (rs2Of w) },
  { mnemonic := "MULH", mask := 0xFE00707F#32, pattern := 0x02001033#32, build := fun w => .mulh (rdOf w) (rs1Of w) (rs2Of w) },
  { mnemonic := "MULHSU", mask := 0xFE00707F#32, pattern := 0x02002033#32, build := fun w => .mulhsu (rdOf w) (rs1Of w) (rs2Of w) },
  { mnemonic := "MULHU", mask := 0xFE00707F#32, pattern := 0x02003033#32, build := fun w => .mulhu (rdOf w) (rs1Of w) (rs2Of w) },
  { mnemonic := "DIV", mask := 0xFE00707F#32, pattern := 0x02004033#32, build := fun w => .div (rdOf w) (rs1Of w) (rs2Of w) },
  { mnemonic := "DIVU", mask := 0xFE00707F#32, pattern := 0x02005033#32, build := fun w => .divu (rdOf w) (rs1Of w) (rs2Of w) },
  { mnemonic := "REM", mask := 0xFE00707F#32, pattern := 0x02006033#32, build := fun w => .rem (rdOf w) (rs1Of w) (rs2Of w) },
  { mnemonic := "REMU", mask := 0xFE00707F#32, pattern := 0x02007033#32, build := fun w => .remu (rdOf w) (rs1Of w) (rs2Of w) },
  { mnemonic := "MULW", mask := 0xFE00707F#32, pattern := 0x0200003B#32, build := fun w => .mulw (rdOf w) (rs1Of w) (rs2Of w) },
  { mnemonic := "DIVW", mask := 0xFE00707F#32, pattern := 0x0200403B#32, build := fun w => .divw (rdOf w) (rs1Of w) (rs2Of w) },
  { mnemonic := "DIVUW", mask := 0xFE00707F#32, pattern := 0x0200503B#32, build := fun w => .divuw (rdOf w) (rs1Of w) (rs2Of w) },
  { mnemonic := "REMW", mask := 0xFE00707F#32, pattern := 0x0200603B#32, build := fun w => .remw (rdOf w) (rs1Of w) (rs2Of w) },
  { mnemonic := "REMUW", mask := 0xFE00707F#32, pattern := 0x0200703B#32, build := fun w => .remuw (rdOf w) (rs1Of w) (rs2Of w) } ]

/-- Rows AMOSWAP.W to AMOMAXU.W of R188. -/
def rowsAmoW : List Row := [
  { mnemonic := "AMOSWAP.W", mask := 0xF800707F#32, pattern := 0x0800202F#32, build := fun w => .amoswapW (aqOf w) (rlOf w) (rdOf w) (rs1Of w) (rs2Of w) },
  { mnemonic := "AMOADD.W", mask := 0xF800707F#32, pattern := 0x0000202F#32, build := fun w => .amoaddW (aqOf w) (rlOf w) (rdOf w) (rs1Of w) (rs2Of w) },
  { mnemonic := "AMOXOR.W", mask := 0xF800707F#32, pattern := 0x2000202F#32, build := fun w => .amoxorW (aqOf w) (rlOf w) (rdOf w) (rs1Of w) (rs2Of w) },
  { mnemonic := "AMOAND.W", mask := 0xF800707F#32, pattern := 0x6000202F#32, build := fun w => .amoandW (aqOf w) (rlOf w) (rdOf w) (rs1Of w) (rs2Of w) },
  { mnemonic := "AMOOR.W", mask := 0xF800707F#32, pattern := 0x4000202F#32, build := fun w => .amoorW (aqOf w) (rlOf w) (rdOf w) (rs1Of w) (rs2Of w) },
  { mnemonic := "AMOMIN.W", mask := 0xF800707F#32, pattern := 0x8000202F#32, build := fun w => .amominW (aqOf w) (rlOf w) (rdOf w) (rs1Of w) (rs2Of w) },
  { mnemonic := "AMOMAX.W", mask := 0xF800707F#32, pattern := 0xA000202F#32, build := fun w => .amomaxW (aqOf w) (rlOf w) (rdOf w) (rs1Of w) (rs2Of w) },
  { mnemonic := "AMOMINU.W", mask := 0xF800707F#32, pattern := 0xC000202F#32, build := fun w => .amominuW (aqOf w) (rlOf w) (rdOf w) (rs1Of w) (rs2Of w) },
  { mnemonic := "AMOMAXU.W", mask := 0xF800707F#32, pattern := 0xE000202F#32, build := fun w => .amomaxuW (aqOf w) (rlOf w) (rdOf w) (rs1Of w) (rs2Of w) } ]

/-- Rows AMOSWAP.D to AMOMAXU.D of R188. -/
def rowsAmoD : List Row := [
  { mnemonic := "AMOSWAP.D", mask := 0xF800707F#32, pattern := 0x0800302F#32, build := fun w => .amoswapD (aqOf w) (rlOf w) (rdOf w) (rs1Of w) (rs2Of w) },
  { mnemonic := "AMOADD.D", mask := 0xF800707F#32, pattern := 0x0000302F#32, build := fun w => .amoaddD (aqOf w) (rlOf w) (rdOf w) (rs1Of w) (rs2Of w) },
  { mnemonic := "AMOXOR.D", mask := 0xF800707F#32, pattern := 0x2000302F#32, build := fun w => .amoxorD (aqOf w) (rlOf w) (rdOf w) (rs1Of w) (rs2Of w) },
  { mnemonic := "AMOAND.D", mask := 0xF800707F#32, pattern := 0x6000302F#32, build := fun w => .amoandD (aqOf w) (rlOf w) (rdOf w) (rs1Of w) (rs2Of w) },
  { mnemonic := "AMOOR.D", mask := 0xF800707F#32, pattern := 0x4000302F#32, build := fun w => .amoorD (aqOf w) (rlOf w) (rdOf w) (rs1Of w) (rs2Of w) },
  { mnemonic := "AMOMIN.D", mask := 0xF800707F#32, pattern := 0x8000302F#32, build := fun w => .amominD (aqOf w) (rlOf w) (rdOf w) (rs1Of w) (rs2Of w) },
  { mnemonic := "AMOMAX.D", mask := 0xF800707F#32, pattern := 0xA000302F#32, build := fun w => .amomaxD (aqOf w) (rlOf w) (rdOf w) (rs1Of w) (rs2Of w) },
  { mnemonic := "AMOMINU.D", mask := 0xF800707F#32, pattern := 0xC000302F#32, build := fun w => .amominuD (aqOf w) (rlOf w) (rdOf w) (rs1Of w) (rs2Of w) },
  { mnemonic := "AMOMAXU.D", mask := 0xF800707F#32, pattern := 0xE000302F#32, build := fun w => .amomaxuD (aqOf w) (rlOf w) (rdOf w) (rs1Of w) (rs2Of w) } ]

/-- Rows FENCE to CSRRCI of R188. -/
def rowsSystem : List Row := [
  { mnemonic := "FENCE", mask := 0x0000707F#32, pattern := 0x0000000F#32, build := fun w => .fence (fmOf w) (predOf w) (succOf w) (rs1Of w) (rdOf w) },
  { mnemonic := "ECALL", mask := 0xFFFFFFFF#32, pattern := 0x00000073#32, build := fun _ => .ecall },
  { mnemonic := "EBREAK", mask := 0xFFFFFFFF#32, pattern := 0x00100073#32, build := fun _ => .ebreak },
  { mnemonic := "SRET", mask := 0xFFFFFFFF#32, pattern := 0x10200073#32, build := fun _ => .sret },
  { mnemonic := "MRET", mask := 0xFFFFFFFF#32, pattern := 0x30200073#32, build := fun _ => .mret },
  { mnemonic := "SFENCE.VMA", mask := 0xFE007FFF#32, pattern := 0x12000073#32, build := fun w => .sfenceVma (rs1Of w) (rs2Of w) },
  { mnemonic := "CSRRW", mask := 0x0000707F#32, pattern := 0x00001073#32, build := fun w => .csrrw (rdOf w) (csrOf w) (rs1Of w) },
  { mnemonic := "CSRRS", mask := 0x0000707F#32, pattern := 0x00002073#32, build := fun w => .csrrs (rdOf w) (csrOf w) (rs1Of w) },
  { mnemonic := "CSRRC", mask := 0x0000707F#32, pattern := 0x00003073#32, build := fun w => .csrrc (rdOf w) (csrOf w) (rs1Of w) },
  { mnemonic := "CSRRWI", mask := 0x0000707F#32, pattern := 0x00005073#32, build := fun w => .csrrwi (rdOf w) (csrOf w) (uimmOf w) },
  { mnemonic := "CSRRSI", mask := 0x0000707F#32, pattern := 0x00006073#32, build := fun w => .csrrsi (rdOf w) (csrOf w) (uimmOf w) },
  { mnemonic := "CSRRCI", mask := 0x0000707F#32, pattern := 0x00007073#32, build := fun w => .csrrci (rdOf w) (csrOf w) (uimmOf w) } ]

/-- The 92 rows of R188. -/
def rows : List Row :=
  rowsUpper ++ rowsControl ++ rowsLoadStore ++ rowsOpImm ++ rowsOp ++ rowsOp32 ++ rowsMulDiv ++ rowsAmoW ++ rowsAmoD ++ rowsSystem

/-! ## Decoding (R187) -/

/-- Why bytes are no instruction. -/
inductive DecodeError where
  /-- Fewer than the four bytes every instruction has (R180). The machine never decodes fewer. -/
  | truncated
  /-- The word fits no row; the machine raises IllegalInstruction (R187). -/
  | unknownEncoding (w : Word32)
  deriving DecidableEq, Repr

/-- The instruction of the row the word fits (R187); the rows are disjoint, so the first is the only one. -/
def decodeWord (w : Word32) : Except DecodeError Instr :=
  match rows.find? (fun r => r.fits w) with
  | some r => .ok (r.build w)
  | none => .error (.unknownEncoding w)

/-- Four bytes as a word, the first byte in bits 7:0 (R180). -/
def wordOfBytes (b0 b1 b2 b3 : Byte) : Word32 := b3 ++ b2 ++ b1 ++ b0

/-- Decode the instruction at the front of the bytes, and give the rest. -/
def decode : List Byte → Except DecodeError (Instr × List Byte)
  | b0 :: b1 :: b2 :: b3 :: rest =>
    match decodeWord (wordOfBytes b0 b1 b2 b3) with
    | .ok i => .ok (i, rest)
    | .error e => .error e
  | _ => .error .truncated

/-- The four bytes of a word, least significant first (R180). -/
def bytesOfWord (w : Word32) : List Byte :=
  [w.extractLsb' 0 8, w.extractLsb' 8 8, w.extractLsb' 16 8, w.extractLsb' 24 8]

/-- The instruction the decoder reads from a table word of `nbits` bits, laid out in memory as R180 says. -/
def decodeTableWord (nbits w : Nat) : Option Instr :=
  match decode (bytesOfWord (BitVec.ofNat 32 (w % 2 ^ nbits))) with
  | .ok (i, _) => some i
  | .error _ => none

/-! ## Encoding (R181 to R183, R188) -/

/-- The five bits of a register number. -/
def regBits (r : Reg) : BitVec 5 := BitVec.ofFin r

/-- Format R (R181). -/
def encR (funct7 : BitVec 7) (funct3 : BitVec 3) (opcode : BitVec 7) (rd rs1 rs2 : Reg) : Word32 :=
  funct7 ++ regBits rs2 ++ regBits rs1 ++ funct3 ++ regBits rd ++ opcode
/-- Format I (R181). -/
def encI (funct3 : BitVec 3) (opcode : BitVec 7) (rd rs1 : Reg) (imm : BitVec 12) : Word32 :=
  imm ++ regBits rs1 ++ funct3 ++ regBits rd ++ opcode
/-- Format S (R181). -/
def encS (funct3 : BitVec 3) (opcode : BitVec 7) (rs1 rs2 : Reg) (imm : BitVec 12) : Word32 :=
  imm.extractLsb' 5 7 ++ regBits rs2 ++ regBits rs1 ++ funct3 ++ imm.extractLsb' 0 5 ++ opcode
/-- Format B (R181). -/
def encB (funct3 : BitVec 3) (opcode : BitVec 7) (rs1 rs2 : Reg) (imm : BitVec 13) : Word32 :=
  imm.extractLsb' 12 1 ++ imm.extractLsb' 5 6 ++ regBits rs2 ++ regBits rs1 ++ funct3 ++ imm.extractLsb' 1 4 ++
    imm.extractLsb' 11 1 ++ opcode
/-- Format U (R181). -/
def encU (opcode : BitVec 7) (rd : Reg) (imm : BitVec 20) : Word32 := imm ++ regBits rd ++ opcode
/-- Format J (R181). -/
def encJ (opcode : BitVec 7) (rd : Reg) (imm : BitVec 21) : Word32 :=
  imm.extractLsb' 20 1 ++ imm.extractLsb' 1 10 ++ imm.extractLsb' 11 1 ++ imm.extractLsb' 12 8 ++ regBits rd ++ opcode
/-- Format I-shift64 (R182). -/
def encShift64 (funct6 : BitVec 6) (funct3 : BitVec 3) (opcode : BitVec 7) (rd rs1 : Reg) (shamt : BitVec 6) : Word32 :=
  funct6 ++ shamt ++ regBits rs1 ++ funct3 ++ regBits rd ++ opcode
/-- Format I-shift32 (R182). -/
def encShift32 (funct7 : BitVec 7) (funct3 : BitVec 3) (opcode : BitVec 7) (rd rs1 : Reg) (shamt : BitVec 5) : Word32 :=
  funct7 ++ shamt ++ regBits rs1 ++ funct3 ++ regBits rd ++ opcode
/-- Format AMO (R182). -/
def encAmo (funct5 : BitVec 5) (funct3 : BitVec 3) (aq rl : Bool) (rd rs1 rs2 : Reg) : Word32 :=
  funct5 ++ BitVec.ofBool aq ++ BitVec.ofBool rl ++ regBits rs2 ++ regBits rs1 ++ funct3 ++ regBits rd ++ 0b0101111#7
/-- Format CSR (R182). -/
def encCsr (funct3 : BitVec 3) (rd : Reg) (csr : CsrNum) (rs1 : Reg) : Word32 :=
  csr ++ regBits rs1 ++ funct3 ++ regBits rd ++ 0b1110011#7
/-- Format CSRI (R182). -/
def encCsrI (funct3 : BitVec 3) (rd : Reg) (csr : CsrNum) (uimm : BitVec 5) : Word32 :=
  csr ++ uimm ++ funct3 ++ regBits rd ++ 0b1110011#7
/-- Format FENCE (R182). -/
def encFence (fm pred succ : BitVec 4) (rs1 rd : Reg) : Word32 :=
  fm ++ pred ++ succ ++ regBits rs1 ++ 0b000#3 ++ regBits rd ++ 0b0001111#7
/-- Format SFENCE (R182). -/
def encSfence (rs1 rs2 : Reg) : Word32 :=
  0b0001001#7 ++ regBits rs2 ++ regBits rs1 ++ 0b000#3 ++ 0b00000#5 ++ 0b1110011#7

/-- The word of an instruction, from the opcode and function values of R185 and R186. -/
def encodeWord : Instr → Word32
  | .lui rd imm => encU 0b0110111#7 rd imm
  | .auipc rd imm => encU 0b0010111#7 rd imm
  | .jal rd imm => encJ 0b1101111#7 rd imm
  | .jalr rd rs1 imm => encI 0b000#3 0b1100111#7 rd rs1 imm
  | .beq rs1 rs2 imm => encB 0b000#3 0b1100011#7 rs1 rs2 imm
  | .bne rs1 rs2 imm => encB 0b001#3 0b1100011#7 rs1 rs2 imm
  | .blt rs1 rs2 imm => encB 0b100#3 0b1100011#7 rs1 rs2 imm
  | .bge rs1 rs2 imm => encB 0b101#3 0b1100011#7 rs1 rs2 imm
  | .bltu rs1 rs2 imm => encB 0b110#3 0b1100011#7 rs1 rs2 imm
  | .bgeu rs1 rs2 imm => encB 0b111#3 0b1100011#7 rs1 rs2 imm
  | .lb rd rs1 imm => encI 0b000#3 0b0000011#7 rd rs1 imm
  | .lh rd rs1 imm => encI 0b001#3 0b0000011#7 rd rs1 imm
  | .lw rd rs1 imm => encI 0b010#3 0b0000011#7 rd rs1 imm
  | .ld rd rs1 imm => encI 0b011#3 0b0000011#7 rd rs1 imm
  | .lbu rd rs1 imm => encI 0b100#3 0b0000011#7 rd rs1 imm
  | .lhu rd rs1 imm => encI 0b101#3 0b0000011#7 rd rs1 imm
  | .lwu rd rs1 imm => encI 0b110#3 0b0000011#7 rd rs1 imm
  | .sb rs1 rs2 imm => encS 0b000#3 0b0100011#7 rs1 rs2 imm
  | .sh rs1 rs2 imm => encS 0b001#3 0b0100011#7 rs1 rs2 imm
  | .sw rs1 rs2 imm => encS 0b010#3 0b0100011#7 rs1 rs2 imm
  | .sd rs1 rs2 imm => encS 0b011#3 0b0100011#7 rs1 rs2 imm
  | .addi rd rs1 imm => encI 0b000#3 0b0010011#7 rd rs1 imm
  | .slti rd rs1 imm => encI 0b010#3 0b0010011#7 rd rs1 imm
  | .sltiu rd rs1 imm => encI 0b011#3 0b0010011#7 rd rs1 imm
  | .xori rd rs1 imm => encI 0b100#3 0b0010011#7 rd rs1 imm
  | .ori rd rs1 imm => encI 0b110#3 0b0010011#7 rd rs1 imm
  | .andi rd rs1 imm => encI 0b111#3 0b0010011#7 rd rs1 imm
  | .slli rd rs1 shamt => encShift64 0b000000#6 0b001#3 0b0010011#7 rd rs1 shamt
  | .srli rd rs1 shamt => encShift64 0b000000#6 0b101#3 0b0010011#7 rd rs1 shamt
  | .srai rd rs1 shamt => encShift64 0b010000#6 0b101#3 0b0010011#7 rd rs1 shamt
  | .add rd rs1 rs2 => encR 0b0000000#7 0b000#3 0b0110011#7 rd rs1 rs2
  | .sub rd rs1 rs2 => encR 0b0100000#7 0b000#3 0b0110011#7 rd rs1 rs2
  | .sll rd rs1 rs2 => encR 0b0000000#7 0b001#3 0b0110011#7 rd rs1 rs2
  | .slt rd rs1 rs2 => encR 0b0000000#7 0b010#3 0b0110011#7 rd rs1 rs2
  | .sltu rd rs1 rs2 => encR 0b0000000#7 0b011#3 0b0110011#7 rd rs1 rs2
  | .xor rd rs1 rs2 => encR 0b0000000#7 0b100#3 0b0110011#7 rd rs1 rs2
  | .srl rd rs1 rs2 => encR 0b0000000#7 0b101#3 0b0110011#7 rd rs1 rs2
  | .sra rd rs1 rs2 => encR 0b0100000#7 0b101#3 0b0110011#7 rd rs1 rs2
  | .or rd rs1 rs2 => encR 0b0000000#7 0b110#3 0b0110011#7 rd rs1 rs2
  | .and rd rs1 rs2 => encR 0b0000000#7 0b111#3 0b0110011#7 rd rs1 rs2
  | .addiw rd rs1 imm => encI 0b000#3 0b0011011#7 rd rs1 imm
  | .slliw rd rs1 shamt => encShift32 0b0000000#7 0b001#3 0b0011011#7 rd rs1 shamt
  | .srliw rd rs1 shamt => encShift32 0b0000000#7 0b101#3 0b0011011#7 rd rs1 shamt
  | .sraiw rd rs1 shamt => encShift32 0b0100000#7 0b101#3 0b0011011#7 rd rs1 shamt
  | .addw rd rs1 rs2 => encR 0b0000000#7 0b000#3 0b0111011#7 rd rs1 rs2
  | .subw rd rs1 rs2 => encR 0b0100000#7 0b000#3 0b0111011#7 rd rs1 rs2
  | .sllw rd rs1 rs2 => encR 0b0000000#7 0b001#3 0b0111011#7 rd rs1 rs2
  | .srlw rd rs1 rs2 => encR 0b0000000#7 0b101#3 0b0111011#7 rd rs1 rs2
  | .sraw rd rs1 rs2 => encR 0b0100000#7 0b101#3 0b0111011#7 rd rs1 rs2
  | .mul rd rs1 rs2 => encR 0b0000001#7 0b000#3 0b0110011#7 rd rs1 rs2
  | .mulh rd rs1 rs2 => encR 0b0000001#7 0b001#3 0b0110011#7 rd rs1 rs2
  | .mulhsu rd rs1 rs2 => encR 0b0000001#7 0b010#3 0b0110011#7 rd rs1 rs2
  | .mulhu rd rs1 rs2 => encR 0b0000001#7 0b011#3 0b0110011#7 rd rs1 rs2
  | .div rd rs1 rs2 => encR 0b0000001#7 0b100#3 0b0110011#7 rd rs1 rs2
  | .divu rd rs1 rs2 => encR 0b0000001#7 0b101#3 0b0110011#7 rd rs1 rs2
  | .rem rd rs1 rs2 => encR 0b0000001#7 0b110#3 0b0110011#7 rd rs1 rs2
  | .remu rd rs1 rs2 => encR 0b0000001#7 0b111#3 0b0110011#7 rd rs1 rs2
  | .mulw rd rs1 rs2 => encR 0b0000001#7 0b000#3 0b0111011#7 rd rs1 rs2
  | .divw rd rs1 rs2 => encR 0b0000001#7 0b100#3 0b0111011#7 rd rs1 rs2
  | .divuw rd rs1 rs2 => encR 0b0000001#7 0b101#3 0b0111011#7 rd rs1 rs2
  | .remw rd rs1 rs2 => encR 0b0000001#7 0b110#3 0b0111011#7 rd rs1 rs2
  | .remuw rd rs1 rs2 => encR 0b0000001#7 0b111#3 0b0111011#7 rd rs1 rs2
  | .amoswapW aq rl rd rs1 rs2 => encAmo 0b00001#5 0b010#3 aq rl rd rs1 rs2
  | .amoaddW aq rl rd rs1 rs2 => encAmo 0b00000#5 0b010#3 aq rl rd rs1 rs2
  | .amoxorW aq rl rd rs1 rs2 => encAmo 0b00100#5 0b010#3 aq rl rd rs1 rs2
  | .amoandW aq rl rd rs1 rs2 => encAmo 0b01100#5 0b010#3 aq rl rd rs1 rs2
  | .amoorW aq rl rd rs1 rs2 => encAmo 0b01000#5 0b010#3 aq rl rd rs1 rs2
  | .amominW aq rl rd rs1 rs2 => encAmo 0b10000#5 0b010#3 aq rl rd rs1 rs2
  | .amomaxW aq rl rd rs1 rs2 => encAmo 0b10100#5 0b010#3 aq rl rd rs1 rs2
  | .amominuW aq rl rd rs1 rs2 => encAmo 0b11000#5 0b010#3 aq rl rd rs1 rs2
  | .amomaxuW aq rl rd rs1 rs2 => encAmo 0b11100#5 0b010#3 aq rl rd rs1 rs2
  | .amoswapD aq rl rd rs1 rs2 => encAmo 0b00001#5 0b011#3 aq rl rd rs1 rs2
  | .amoaddD aq rl rd rs1 rs2 => encAmo 0b00000#5 0b011#3 aq rl rd rs1 rs2
  | .amoxorD aq rl rd rs1 rs2 => encAmo 0b00100#5 0b011#3 aq rl rd rs1 rs2
  | .amoandD aq rl rd rs1 rs2 => encAmo 0b01100#5 0b011#3 aq rl rd rs1 rs2
  | .amoorD aq rl rd rs1 rs2 => encAmo 0b01000#5 0b011#3 aq rl rd rs1 rs2
  | .amominD aq rl rd rs1 rs2 => encAmo 0b10000#5 0b011#3 aq rl rd rs1 rs2
  | .amomaxD aq rl rd rs1 rs2 => encAmo 0b10100#5 0b011#3 aq rl rd rs1 rs2
  | .amominuD aq rl rd rs1 rs2 => encAmo 0b11000#5 0b011#3 aq rl rd rs1 rs2
  | .amomaxuD aq rl rd rs1 rs2 => encAmo 0b11100#5 0b011#3 aq rl rd rs1 rs2
  | .fence fm pred succ rs1 rd => encFence fm pred succ rs1 rd
  | .ecall => 0x00000073#32
  | .ebreak => 0x00100073#32
  | .sret => 0x10200073#32
  | .mret => 0x30200073#32
  | .sfenceVma rs1 rs2 => encSfence rs1 rs2
  | .csrrw rd csr rs1 => encCsr 0b001#3 rd csr rs1
  | .csrrs rd csr rs1 => encCsr 0b010#3 rd csr rs1
  | .csrrc rd csr rs1 => encCsr 0b011#3 rd csr rs1
  | .csrrwi rd csr uimm => encCsrI 0b101#3 rd csr uimm
  | .csrrsi rd csr uimm => encCsrI 0b110#3 rd csr uimm
  | .csrrci rd csr uimm => encCsrI 0b111#3 rd csr uimm

/-- The bytes of an instruction, as they lie in memory (R180). -/
def encode (i : Instr) : List Byte := bytesOfWord (encodeWord i)

end Sys2Proof
end

