-- ==== Sys2Proof/Config.lean ====
section
/-! DEFINITION. What is fixed for one machine: the constants of R10 and R105, and the parameters of R12.
The parameters with a default have it here; the two the spec leaves OPEN (the disk register offsets, the
framebuffer's size) are constants with no body, so nothing can be proved of their values. -/

namespace Sys2Proof

/-- A range of physical addresses, `base` up to but not including `base + size`. -/
structure Window where
  base : Nat
  size : Nat
  deriving DecidableEq, Repr

/-- The address lies in the window. -/
def Window.contains (w : Window) (a : Nat) : Bool := decide (w.base ≤ a) && decide (a < w.base + w.size)

/-- The two windows share no address. -/
def Window.disjoint (v w : Window) : Bool := decide (v.base + v.size ≤ w.base) || decide (w.base + w.size ≤ v.base)

/-- RAM_BASE (R10). -/
def ramBase : Nat := 0x80000000
/-- RAM_SIZE, 8 MiB (R10). -/
def ramSize : Nat := 0x800000
/-- FRAMEBUFFER_BASE, inside RAM (R10). -/
def framebufferBase : Nat := 0x80600000
/-- Bytes in a disk sector (R10). -/
def sectorBytes : Nat := 512

/-- The CLINT window (R105). -/
def clintWindow : Window := { base := 0x02000000, size := 0x10000 }
/-- The PLIC window (R105). -/
def plicWindow : Window := { base := 0x0C000000, size := 0x4000000 }
/-- The UART window (R105). -/
def uartWindow : Window := { base := 0x10000000, size := 0x100 }
/-- The disk window (R105). -/
def diskWindow : Window := { base := 0x10001000, size := 0x100 }
/-- The RAM window (R105, C8). -/
def ramWindow : Window := { base := ramBase, size := ramSize }

/-- The disk's `magic` register, hard-wired (R85, R131). -/
def diskMagic : Word32 := 0x666F7864#32
/-- The disk's `version` register, hard-wired (R85, R131). -/
def diskVersion : Word32 := 1#32
/-- The idle value of the disk's `notify` register, −1 (R85, R132). -/
def notifyIdle : Word32 := 0xFFFFFFFF#32

/-- INTR_EPC (R12, R435, D2): what an interrupt records as its exception pc. -/
inductive IntrEpc where
  | nextPc
  | pcMinus4
  deriving DecidableEq, Repr

/-- INTR_DELEG_CSR (R12, R441, D4): the CSR whose bits delegate an interrupt. -/
inductive IntrDelegCsr where
  | medeleg
  | mideleg
  deriving DecidableEq, Repr

/-- AMO_W_EXT (R12, R304, D15): how the old word an AMO .W returns is extended. -/
inductive AmoWExt where
  | sext
  | zext
  deriving DecidableEq, Repr

/-- CLINT_LAYOUT (R12, R113, D24): two distinct 8-aligned offsets below 0x1_0000. -/
structure ClintLayout where
  mtimecmp : Nat := 0x4000
  mtime : Nat := 0xBFF8
  ok : mtimecmp ≠ mtime ∧ mtimecmp % 8 = 0 ∧ mtime % 8 = 0 ∧ mtimecmp < 0x10000 ∧ mtime < 0x10000 := by decide
  deriving DecidableEq, Repr

/-- PLIC_LAYOUT (R12, R116, D23): four distinct 4-aligned offsets below 0x400_0000. -/
structure PlicLayout where
  pending : Nat := 0x1000
  senable : Nat := 0x2080
  spriority : Nat := 0x201000
  sclaim : Nat := 0x201004
  ok : [pending, senable, spriority, sclaim].Nodup ∧
    ∀ o ∈ [pending, senable, spriority, sclaim], o % 4 = 0 ∧ o < 0x4000000 := by decide
  deriving DecidableEq, Repr

/-- DISK_LAYOUT (R12, R130, D25): ten distinct 4-aligned offsets below 0x100. The field defaults only show that such
a layout exists; they are no default of the machine, whose layout is OPEN. -/
structure DiskLayout where
  magic : Nat := 0
  version : Nat := 4
  notify : Nat := 8
  direction : Nat := 12
  bufAddrHi : Nat := 16
  bufAddrLo : Nat := 20
  bufLenHi : Nat := 24
  bufLenLo : Nat := 28
  sector : Nat := 32
  done : Nat := 36
  ok : [magic, version, notify, direction, bufAddrHi, bufAddrLo, bufLenHi, bufLenLo, sector, done].Nodup ∧
    ∀ o ∈ [magic, version, notify, direction, bufAddrHi, bufAddrLo, bufLenHi, bufLenLo, sector, done],
      o % 4 = 0 ∧ o < 0x100 := by decide
  deriving DecidableEq, Repr, Inhabited

/-- KBD_WINDOW (R12, R137, D33): base 4-aligned and below RAM_BASE, size at least 4, disjoint from every other region. -/
structure KbdWindow where
  window : Window
  ok : window.base % 4 = 0 ∧ window.base < ramBase ∧ 4 ≤ window.size ∧
    ∀ w ∈ [clintWindow, plicWindow, uartWindow, diskWindow, ramWindow], window.disjoint w = true
  deriving DecidableEq, Repr

/-- FB_WIDTH and FB_HEIGHT (R12, D50): 4·W·H ≤ 0x20_0000. Only the host reads them. -/
structure FbSize where
  width : Nat := 0
  height : Nat := 0
  ok : 4 * width * height ≤ 0x200000 := by decide
  deriving DecidableEq, Repr, Inhabited

/-- The parameters of R12 that stay fixed while the machine runs. KERNEL_IMAGE and DISK_IMAGE are launch inputs:
`newHart` takes them. `none` for the two OPEN parameters means the layout is not known (log 3, log 4). -/
structure Config where
  intrEpc : IntrEpc := .nextPc
  intrDelegCsr : IntrDelegCsr := .medeleg
  timerCompare : Bool := false
  amoWExt : AmoWExt := .sext
  clintLayout : ClintLayout := {}
  plicLayout : PlicLayout := {}
  diskLayout : Option DiskLayout := none
  kbdWindow : Option KbdWindow := none
  fbSize : Option FbSize := none
  deriving DecidableEq, Repr

/-- The disk layout where the parameter does not name one: some layout R130 allows, nothing more is known (D25). -/
opaque Config.openDiskLayout : DiskLayout

/-- The framebuffer size where the parameter does not name one (D50). -/
opaque Config.openFbSize : FbSize

/-- The disk layout in force. -/
def Config.disk (c : Config) : DiskLayout := c.diskLayout.getD Config.openDiskLayout

/-- The framebuffer size in force. -/
def Config.fb (c : Config) : FbSize := c.fbSize.getD Config.openFbSize

end Sys2Proof
end

