-- ==== Sys2Proof/Machine/State.lean ====
section
/-! DEFINITION. The state of the block (10_state.md) as plain data, and its reset value (R85). -/

namespace Sys2Proof.Machine

/-! ## Sparse storage -/

/-- Values by address, in one canonical form: addresses strictly rising, no value equal to the zero an unlisted address
reads as. RAM, the CSR file and the UART window are kept so, because each is zero but for what was written (R85). -/
abbrev Cells (w : Nat) := List (Nat × BitVec w)

/-- The canonical form. -/
abbrev Cells.wf {w : Nat} (m : Cells w) : Prop := m.Pairwise (fun c d => c.1 < d.1) ∧ ∀ c ∈ m, c.2 ≠ 0

/-- RAM bytes by physical address (R75). -/
abbrev Memory := List Host.Cell

/-- The canonical form of RAM. -/
abbrev Memory.wf (m : Memory) : Prop := Cells.wf m

/-! ## Modes, exceptions, interrupts, status -/

/-- The privilege modes U = 0, S = 1, M = 3 (R47, R450). -/
inductive Mode where
  | u
  | s
  | m
  deriving DecidableEq, Repr

/-- The exceptions of R410. `storeAmoAddressMisaligned` is never raised (R166). -/
inductive Exception where
  | instructionAddressMisaligned
  | instructionAccessFault
  | illegalInstruction
  | breakpoint
  | loadAddressMisaligned
  | loadAccessFault
  | storeAmoAddressMisaligned
  | storeAmoAccessFault
  | envCallFromUMode
  | envCallFromSMode
  | envCallFromMMode
  | instructionPageFault
  | loadPageFault
  | storeAmoPageFault
  deriving DecidableEq, Repr

/-- The interrupts of R420, in the order the poll tries them (R434). -/
inductive Interrupt where
  | mei
  | msi
  | mti
  | sei
  | ssi
  | sti
  deriving DecidableEq, Repr

/-- What a trap is taken for (R440). -/
inductive Trap where
  | exception (e : Exception)
  | interrupt (i : Interrupt)
  deriving DecidableEq, Repr

/-- Why a disk transfer fails (R417). -/
inductive HostError where
  /-- DISK_IMAGE is absent (R433). -/
  | noDiskImage
  /-- The transfer runs past the end of the disk image (R433). -/
  | sectorRange
  /-- A byte access of the transfer fails on the bus (R433). -/
  | busFailure
  deriving DecidableEq, Repr

/-- The two states this spec gives no meaning to (R23). -/
inductive RefuseReason where
  /-- MRET with mstatus.MPP = 2 (R386, D9). -/
  | mretReservedMode
  /-- A kernel image longer than RAM (R471, D45). -/
  | kernelImageTooLarge
  deriving DecidableEq, Repr

/-- The status of the block (R76). Any status but running is final: a step has no effect in it. -/
inductive Status where
  | running
  | halted (cause : Exception)
  | hostError (reason : HostError)
  | refused (reason : RefuseReason)
  deriving DecidableEq, Repr

/-! ## Devices -/

/-- The CLINT's registers (R70). -/
structure Clint where
  mtime : Word
  mtimecmp : Word
  deriving DecidableEq, Repr

/-- The PLIC's registers (R71). -/
structure Plic where
  pending : Word32
  senable : Word32
  spriority : Word32
  sclaim : Word32
  deriving DecidableEq, Repr

/-- The UART's byte registers `uart[0..255]` and its one-shot interrupt flag (R72). -/
structure Uart where
  bytes : Cells 8
  interrupting : Bool
  deriving DecidableEq, Repr

/-- The disk's writable registers (R73). `magic` and `version` are hard-wired and need no storage (R131, R132). -/
structure Disk where
  notify : Word32
  direction : Word32
  bufAddrHi : Word32
  bufAddrLo : Word32
  bufLenHi : Word32
  bufLenLo : Word32
  sector : Word32
  done : Word32
  deriving DecidableEq, Repr

/-! ## The host agent -/

/-- A transition of the host agent (R15, R171). -/
inductive HostMove where
  /-- `uart_push_byte(b)` (R126). -/
  | uartByte (b : Byte)
  /-- `kbd_push_scancode(v)` (R138). -/
  | scancode (v : Word32)
  /-- A read through `ram_pointer`: no effect on the block (R104, R172). -/
  | ramPointer
  deriving DecidableEq, Repr

/-! ## The state -/

/-- Everything the block holds (10_state.md), the parameters of R12 (log 1) and the schedule of the host's moves (log 7). -/
structure State where
  /-- The parameters of R12; no step changes them. -/
  cfg : Config
  /-- x[0] to x[31] (R40). Slot 0 is never read or written: x[0] is zero (R41). -/
  regs : Vector Word 32
  /-- The program counter (R44). -/
  pc : Word
  /-- The privilege mode (R47). -/
  mode : Mode
  /-- `paging_on` (R48). -/
  pagingOn : Bool
  /-- `pt_root` (R48). -/
  ptRoot : Word
  /-- The 4096 raw CSR slots by number (R50). -/
  csrs : Cells 64
  /-- RAM by physical address (R75). -/
  mem : Memory
  clint : Clint
  plic : Plic
  uart : Uart
  disk : Disk
  /-- `disk_backing`, or absent (R73). -/
  diskBacking : Option (List Byte)
  /-- `kbd_queue`, the next scancode first (R74). -/
  kbdQueue : List Word32
  /-- The bytes sent to host standard output, oldest first (R76). -/
  uartOut : List Byte
  status : Status
  /-- What the host agent does from here on: one list of moves for each point of R171 in order, the next point first. A step has two
  points, one between the end of its execution and its poll, one between it and the next step (log 7). -/
  hostSchedule : List (List HostMove)
  deriving DecidableEq, Repr

/-- The reset state (R85, R470) with the default parameters, an empty kernel image and no disk image (log 5). -/
def State.reset : State where
  cfg := {}
  regs := (Vector.replicate 32 0).set 2 0x80800000#64
  pc := 0x80000000#64
  mode := .m
  pagingOn := false
  ptRoot := 0
  csrs := []
  mem := []
  clint := { mtime := 0, mtimecmp := 0 }
  plic := { pending := 0, senable := 0, spriority := 0, sclaim := 0 }
  uart := { bytes := [(5, 0x20#8)], interrupting := false }
  disk := { notify := notifyIdle, direction := 0, bufAddrHi := 0, bufAddrLo := 0, bufLenHi := 0, bufLenLo := 0,
            sector := 0, done := 0 }
  diskBacking := none
  kbdQueue := []
  uartOut := []
  status := .running
  hostSchedule := []

/-! ## The ways a step could stop -/

/-- Faults of the host's interface. There are none: every exception, fatal or not, is a trap entry, and every way the block
ends is a status it holds (R76, R416, R417), so both are next states (log 8). -/
inductive Fault where
  deriving DecidableEq, Repr

/-- Refusals of the host's interface. -/
inductive Refusal where
  /-- Raised by `exec` for an instruction that has no meaning yet; no arm of `exec` raises it now. Safe: nothing is claimed
  of the instruction. -/
  | notModelled (mnemonic : String)
  deriving DecidableEq, Repr

/-- What a meaning answers. -/
abbrev Result := Host.Outcome State Fault Refusal

end Sys2Proof.Machine
end

