-- ==== Sys2Proof/Machine/Flags.lean ====
section
/-! DEFINITION. Bits and what is computed from them. The hart has no flags or condition codes (R46): a comparison gives a register
value 0 or 1 (R230). The bits here are those of mstatus (R52), of mip and mie (R53), and the codes of traps (R410, R420). -/

namespace Sys2Proof.Machine

/-- The value with one bit set or cleared. -/
def setBit (v : Word) (n : Nat) (b : Bool) : Word :=
  if b then v ||| (1#64 <<< n) else v &&& ~~~(1#64 <<< n)

/-- A comparison's result: 1 or 0 (R230). -/
def boolWord (b : Bool) : Word := if b then 1 else 0

/-! ## mstatus bit positions (R52) -/

def bitSIE : Nat := 1
def bitMIE : Nat := 3
def bitSPIE : Nat := 5
def bitMPIE : Nat := 7
def bitSPP : Nat := 8

/-- mstatus.MPP, bits 12:11 (R52). -/
def mpp (mstatus : Word) : BitVec 2 := mstatus.extractLsb' 11 2

/-- mstatus with MPP = 0. -/
def clearMpp (mstatus : Word) : Word := setBit (setBit mstatus 11 false) 12 false

/-- The mode an MPP value names (R385); 2 names none (R386). -/
def modeOfMpp : BitVec 2 → Option Mode
  | 0#2 => some .u
  | 1#2 => some .s
  | 3#2 => some .m
  | _ => none

/-- mstatus after a trap to S-mode from mode `prev` (R443). -/
def statusAfterSTrap (prev : Mode) (mstatus : Word) : Word :=
  setBit (setBit (setBit mstatus bitSPIE (mstatus.getLsbD bitSIE)) bitSIE false) bitSPP (prev != .u)

/-- mstatus after a trap to M-mode (R444). -/
def statusAfterMTrap (mstatus : Word) : Word :=
  clearMpp (setBit (setBit mstatus bitMPIE (mstatus.getLsbD bitMIE)) bitMIE false)

/-- mstatus after SRET (R384): SPP is left as it was. -/
def statusAfterSret (mstatus : Word) : Word :=
  setBit (setBit mstatus bitSIE (mstatus.getLsbD bitSPIE)) bitSPIE true

/-- mstatus after MRET (R385). -/
def statusAfterMret (mstatus : Word) : Word :=
  clearMpp (setBit (setBit mstatus bitMIE (mstatus.getLsbD bitMPIE)) bitMPIE true)

/-! ## Views (R62, R63) -/

/-- SSTATUS_MASK (R63). -/
def sstatusMask : Word := 0x80000003000DE762#64
/-- The delegable S-level bits of mie and mip (R62). -/
def sLevelMask : Word := 0x222#64
/-- The bit of mip a write of sip may change (R62). -/
def sipWriteMask : Word := 0x002#64

/-- A masked write: the bits of `mask` come from `new`, the others from `old` (R61). -/
def merge (old mask new : Word) : Word := (old &&& ~~~mask) ||| (new &&& mask)

/-! ## Trap codes -/

/-- The code of an exception (R410). -/
def Exception.code : Exception → Word
  | .instructionAddressMisaligned => 0
  | .instructionAccessFault => 1
  | .illegalInstruction => 2
  | .breakpoint => 3
  | .loadAddressMisaligned => 4
  | .loadAccessFault => 5
  | .storeAmoAddressMisaligned => 6
  | .storeAmoAccessFault => 7
  | .envCallFromUMode => 8
  | .envCallFromSMode => 9
  | .envCallFromMMode => 11
  | .instructionPageFault => 12
  | .loadPageFault => 13
  | .storeAmoPageFault => 15

/-- The fatal exceptions (R415). -/
def Exception.fatal : Exception → Bool
  | .instructionAddressMisaligned => true
  | .instructionAccessFault => true
  | .illegalInstruction => false
  | .breakpoint => false
  | .loadAddressMisaligned => false
  | .loadAccessFault => true
  | .storeAmoAddressMisaligned => true
  | .storeAmoAccessFault => true
  | .envCallFromUMode => false
  | .envCallFromSMode => false
  | .envCallFromMMode => false
  | .instructionPageFault => false
  | .loadPageFault => false
  | .storeAmoPageFault => false

/-- The code of an interrupt, which is also its bit in mip and mie (R420). -/
def Interrupt.code : Interrupt → Nat
  | .mei => 11
  | .msi => 3
  | .mti => 7
  | .sei => 9
  | .ssi => 1
  | .sti => 5

/-- The poll's order (R434): MEI, MSI, MTI, SEI, SSI, STI. -/
def interruptOrder : List Interrupt := [.mei, .msi, .mti, .sei, .ssi, .sti]

/-- The first interrupt in the poll's order whose bit is set (R434). -/
def pickInterrupt (p : Word) : Option Interrupt := interruptOrder.find? (fun i => p.getLsbD i.code)

/-- The trap is for an interrupt. -/
def Trap.isInterrupt : Trap → Bool
  | .exception _ => false
  | .interrupt _ => true

/-- The cause a trap records (R57, R440). -/
def Trap.cause : Trap → Word
  | .exception e => e.code
  | .interrupt i => 0x8000000000000000#64 ||| BitVec.ofNat 64 i.code

/-- Where a trap goes under a vector register (R442). -/
def trapTarget (vec : Word) (t : Trap) : Word :=
  if vec.getLsbD 0 && t.isInterrupt then (vec &&& ~~~1#64) + 4 * t.cause else vec &&& ~~~1#64

end Sys2Proof.Machine
end

