-- ==== Sys2Proof/Machine/Cells.lean ====
section
/-! DEFINITION. Reading and writing sparse storage, one value and little-endian runs of bytes (R100, R101). -/

namespace Sys2Proof.Machine

/-- The value at an address; an unlisted address reads zero. -/
def Cells.read {w : Nat} : Cells w → Nat → BitVec w
  | [], _ => 0
  | (k, v) :: rest, a => if k = a then v else Cells.read rest a

/-- The storage without an entry for the address. -/
def Cells.erase {w : Nat} : Cells w → Nat → Cells w
  | [], _ => []
  | (k, v) :: rest, a => if k = a then Cells.erase rest a else (k, v) :: Cells.erase rest a

/-- The storage with an entry put before the first larger address. -/
def Cells.insert {w : Nat} : Cells w → Nat → BitVec w → Cells w
  | [], a, b => [(a, b)]
  | (k, v) :: rest, a, b => if a < k then (a, b) :: (k, v) :: rest else (k, v) :: Cells.insert rest a b

/-- The storage with the value at the address; a zero is kept by listing nothing. -/
def Cells.write {w : Nat} (m : Cells w) (a : Nat) (b : BitVec w) : Cells w :=
  if b = 0 then m.erase a else (m.erase a).insert a b

/-- The little-endian value of `n` bytes from an address, zero-extended (R100). -/
def Memory.readBytes (m : Memory) (a : Nat) : Nat → Word
  | 0 => 0
  | n + 1 => (Cells.read m a).setWidth 64 ||| (Memory.readBytes m (a + 1) n <<< 8)

/-- The memory with the low `n` bytes of a value stored little-endian from an address (R101). -/
def Memory.writeBytes (m : Memory) (a : Nat) (v : Word) : Nat → Memory
  | 0 => m
  | n + 1 => Memory.writeBytes (Cells.write m a (v.setWidth 8)) (a + 1) (v >>> 8) n

/-- The memory with a list of bytes stored from an address. -/
def Memory.load (m : Memory) (a : Nat) : List Byte → Memory
  | [] => m
  | b :: bs => Memory.load (Cells.write m a b) (a + 1) bs

end Sys2Proof.Machine
end

