-- ==== Sys2Proof/Machine/Operands.lean ====
section
/-! DEFINITION. Operand forms (R183, R184): immediates, shift amounts, the integer registers, addresses, and the narrowing and
widening of values (R17). Also the exact arithmetic of the M extension on plain words (R280). -/

namespace Sys2Proof.Machine

/-! ## Widening and narrowing -/

/-- The low 32 bits. -/
def low32 (v : Word) : Word32 := v.setWidth 32

/-- `sext_32` (R17). -/
def sext32 (v : Word32) : Word := v.signExtend 64

/-- `zext_32` (R17). -/
def zext32 (v : Word32) : Word := v.setWidth 64

/-! ## Immediates (R183) -/

/-- A 12-bit immediate, sign-extended: imm_I and imm_S. -/
def imm12 (imm : BitVec 12) : Word := imm.signExtend 64

/-- imm_B: a 13-bit offset, sign-extended. -/
def imm13 (imm : BitVec 13) : Word := imm.signExtend 64

/-- imm_U: the 20 bits above twelve zeros, sign-extended from bit 31. -/
def immUpper (imm : BitVec 20) : Word := sext32 (imm ++ 0#12)

/-- imm_J: a 21-bit offset, sign-extended. -/
def imm21 (imm : BitVec 21) : Word := imm.signExtend 64

/-- uimm: zero-extended. -/
def imm5 (uimm : BitVec 5) : Word := uimm.setWidth 64

/-- A 64-bit shift amount taken from a register: its low 6 bits (R230). -/
def shiftAmount6 (v : Word) : Nat := (v.extractLsb' 0 6).toNat

/-- A 32-bit shift amount taken from a register: its low 5 bits (R230). -/
def shiftAmount5 (v : Word) : Nat := (v.extractLsb' 0 5).toNat

/-! ## Integer registers (R40, R41, R184) -/

/-- x[r]; x[0] reads zero. -/
def State.reg (s : State) (r : Reg) : Word := if r = 0 then 0 else s.regs.get r

/-- The state with x[r] = v; a write of x[0] is discarded. -/
def State.setReg (s : State) (r : Reg) (v : Word) : State :=
  if r = 0 then s else { s with regs := s.regs.set r.val v r.isLt }

/-! ## Addresses -/

/-- The effective address of a load, store or JALR: base plus displacement (R210, R218, R338). -/
def effectiveAddress (s : State) (rs1 : Reg) (imm : BitVec 12) : Word := s.reg rs1 + imm12 imm

/-- The address of the instruction being executed: the pc is already past it (R18, R401). -/
def State.pcCur (s : State) : Word := s.pc - 4

/-! ## Multiplication and division on words (R280) -/

/-- Bits 127:64 of the exact signed product (R282). -/
def mulHigh (a b : Word) : Word := BitVec.ofInt 64 (a.toInt * b.toInt / 0x10000000000000000)

/-- Bits 127:64 of the exact product of a signed and an unsigned operand (R283). -/
def mulHighSU (a b : Word) : Word := BitVec.ofInt 64 (a.toInt * (b.toNat : Int) / 0x10000000000000000)

/-- Bits 127:64 of the exact unsigned product (R284). -/
def mulHighU (a b : Word) : Word := BitVec.ofNat 64 (a.toNat * b.toNat / 0x10000000000000000)

/-- Signed division at any width: all ones by zero, the dividend on overflow, else toward zero (R285, R290). -/
def divSigned {w : Nat} (a b : BitVec w) : BitVec w :=
  if b = 0 then BitVec.allOnes w
  else if a = BitVec.intMin w ∧ b = BitVec.allOnes w then BitVec.intMin w
  else BitVec.ofInt w (a.toInt.tdiv b.toInt)

/-- Unsigned division at any width: all ones by zero (R286, R291). -/
def divUnsigned {w : Nat} (a b : BitVec w) : BitVec w :=
  if b = 0 then BitVec.allOnes w else BitVec.ofNat w (a.toNat / b.toNat)

/-- Signed remainder at any width: the dividend by zero, 0 on overflow, else with the dividend's sign (R287, R292). -/
def remSigned {w : Nat} (a b : BitVec w) : BitVec w :=
  if b = 0 then a
  else if a = BitVec.intMin w ∧ b = BitVec.allOnes w then 0
  else BitVec.ofInt w (a.toInt.tmod b.toInt)

/-- Unsigned remainder at any width: the dividend by zero (R288, R293). -/
def remUnsigned {w : Nat} (a b : BitVec w) : BitVec w :=
  if b = 0 then a else BitVec.ofNat w (a.toNat % b.toNat)

end Sys2Proof.Machine
end

