-- ==== Sys2Proof/Machine/Bus.lean ====
section
/-! DEFINITION. The bus decoder (R105 to R112) and the devices behind it (R113 to R138). -/

namespace Sys2Proof.Machine

/-- The width of a bus access; there is no other (R102, R167). -/
inductive Width where
  | byte
  | half
  | word
  | double
  deriving DecidableEq, Repr

/-- The access's size in bytes. -/
def Width.bytes : Width → Nat
  | .byte => 1
  | .half => 2
  | .word => 4
  | .double => 8

/-- The memory-mapped devices (R105). -/
inductive Device where
  | clint
  | plic
  | uart
  | disk
  | kbd
  deriving DecidableEq, Repr

/-- What an address belongs to (R106). -/
inductive Region where
  | device (d : Device)
  | ram
  deriving DecidableEq, Repr

/-- The device's natural width (R105). -/
def Device.naturalWidth : Device → Width
  | .clint => .double
  | .plic => .word
  | .uart => .byte
  | .disk => .word
  | .kbd => .word

/-- The keyboard window holds the address (R137); without the parameter there is none. -/
def kbdContains (c : Config) (a : Nat) : Bool :=
  match c.kbdWindow with
  | none => false
  | some k => k.window.contains a

/-- The region of the access's first byte (R106): a device whose window holds it, else RAM from RAM_BASE up. -/
def regionOf (c : Config) (a : Nat) : Option Region :=
  if clintWindow.contains a then some (.device .clint)
  else if plicWindow.contains a then some (.device .plic)
  else if uartWindow.contains a then some (.device .uart)
  else if diskWindow.contains a then some (.device .disk)
  else if kbdContains c a then some (.device .kbd)
  else if ramBase ≤ a then some .ram
  else none

/-- The base address of the device's window (R105). -/
def Device.base (c : Config) : Device → Nat
  | .clint => clintWindow.base
  | .plic => plicWindow.base
  | .uart => uartWindow.base
  | .disk => diskWindow.base
  | .kbd => match c.kbdWindow with
    | none => 0
    | some k => k.window.base

/-! ## CLINT (R113, R114) and PLIC (R116, R117): plain registers -/

/-- A CLINT load; an offset with no register reads 0 (R108). -/
def clintLoad (s : State) (off : Nat) : Word :=
  if off = s.cfg.clintLayout.mtimecmp then s.clint.mtimecmp
  else if off = s.cfg.clintLayout.mtime then s.clint.mtime
  else 0

/-- A CLINT store; an offset with no register ignores it (R108). -/
def clintStore (s : State) (off : Nat) (v : Word) : State :=
  if off = s.cfg.clintLayout.mtimecmp then { s with clint := { s.clint with mtimecmp := v } }
  else if off = s.cfg.clintLayout.mtime then { s with clint := { s.clint with mtime := v } }
  else s

/-- A PLIC load (R117, R108). -/
def plicLoad (s : State) (off : Nat) : Word32 :=
  if off = s.cfg.plicLayout.pending then s.plic.pending
  else if off = s.cfg.plicLayout.senable then s.plic.senable
  else if off = s.cfg.plicLayout.spriority then s.plic.spriority
  else if off = s.cfg.plicLayout.sclaim then s.plic.sclaim
  else 0

/-- A PLIC store (R117, R108). -/
def plicStore (s : State) (off : Nat) (v : Word32) : State :=
  if off = s.cfg.plicLayout.pending then { s with plic := { s.plic with pending := v } }
  else if off = s.cfg.plicLayout.senable then { s with plic := { s.plic with senable := v } }
  else if off = s.cfg.plicLayout.spriority then { s with plic := { s.plic with spriority := v } }
  else if off = s.cfg.plicLayout.sclaim then { s with plic := { s.plic with sclaim := v } }
  else s

/-! ## UART (R120 to R125) -/

/-- The offset of RHR and THR (R72). -/
def uartDataOffset : Nat := 0
/-- The offset of LSR (R72). -/
def uartLsrOffset : Nat := 5

/-- `uart[off]` (R72). -/
def State.uartByte (s : State) (off : Nat) : Byte := Cells.read s.uart.bytes off

/-- The state with `uart[off] = b`. -/
def State.setUartByte (s : State) (off : Nat) (b : Byte) : State :=
  { s with uart := { s.uart with bytes := Cells.write s.uart.bytes off b } }

/-- LSR.RX: a received byte waits (R72, R122). -/
def State.uartRx (s : State) : Bool := (s.uartByte uartLsrOffset).getLsbD 0

/-- A UART load: RHR also clears LSR.RX (R121); any other offset has no side effect (R122). -/
def uartLoad (s : State) (off : Nat) : Byte × State :=
  if off = uartDataOffset then
    (s.uartByte off, s.setUartByte uartLsrOffset (s.uartByte uartLsrOffset &&& ~~~0x01#8))
  else (s.uartByte off, s)

/-- A UART store: THR sends the byte and stores nothing (R125); any other offset is byte storage (R123). -/
def uartStore (s : State) (off : Nat) (b : Byte) : State :=
  if off = uartDataOffset then { s with uartOut := s.uartOut ++ [b] } else s.setUartByte off b

/-! ## Disk registers (R130 to R133) -/

/-- The disk's registers (R73). -/
inductive DiskReg where
  | magic
  | version
  | notify
  | direction
  | bufAddrHi
  | bufAddrLo
  | bufLenHi
  | bufLenLo
  | sector
  | done
  deriving DecidableEq, Repr

/-- The register at an offset of the disk window, if there is one (R130). -/
def diskRegAt (l : DiskLayout) (off : Nat) : Option DiskReg :=
  if off = l.magic then some .magic
  else if off = l.version then some .version
  else if off = l.notify then some .notify
  else if off = l.direction then some .direction
  else if off = l.bufAddrHi then some .bufAddrHi
  else if off = l.bufAddrLo then some .bufAddrLo
  else if off = l.bufLenHi then some .bufLenHi
  else if off = l.bufLenLo then some .bufLenLo
  else if off = l.sector then some .sector
  else if off = l.done then some .done
  else none

/-- A disk register's value; magic and version are constants (R131). -/
def Disk.get (d : Disk) : DiskReg → Word32
  | .magic => diskMagic
  | .version => diskVersion
  | .notify => d.notify
  | .direction => d.direction
  | .bufAddrHi => d.bufAddrHi
  | .bufAddrLo => d.bufAddrLo
  | .bufLenHi => d.bufLenHi
  | .bufLenLo => d.bufLenLo
  | .sector => d.sector
  | .done => d.done

/-- A store to a disk register; magic and version ignore it (R132). -/
def Disk.set (d : Disk) (r : DiskReg) (v : Word32) : Disk :=
  match r with
  | .magic => d
  | .version => d
  | .notify => { d with notify := v }
  | .direction => { d with direction := v }
  | .bufAddrHi => { d with bufAddrHi := v }
  | .bufAddrLo => { d with bufAddrLo := v }
  | .bufLenHi => { d with bufLenHi := v }
  | .bufLenLo => { d with bufLenLo := v }
  | .sector => { d with sector := v }
  | .done => { d with done := v }

/-- A disk load (R131, R108). -/
def diskLoad (s : State) (off : Nat) : Word32 :=
  match diskRegAt s.cfg.disk off with
  | some r => s.disk.get r
  | none => 0

/-- A disk store (R132, R108). -/
def diskStore (s : State) (off : Nat) (v : Word32) : State :=
  match diskRegAt s.cfg.disk off with
  | some r => { s with disk := s.disk.set r v }
  | none => s

/-! ## Keyboard (R137) -/

/-- A keyboard load: KBD_GET, at offset 0, takes the next scancode, or gives 0 from an empty queue. -/
def kbdLoad (s : State) (off : Nat) : Word32 × State :=
  if off = 0 then
    match s.kbdQueue with
    | [] => (0, s)
    | k :: ks => (k, { s with kbdQueue := ks })
  else (0, s)

/-! ## The bus (R110, R111) -/

/-- A device load of the device's natural width, zero-extended, and the state after it. -/
def deviceLoad (s : State) (off : Nat) : Device → Word × State
  | .clint => (clintLoad s off, s)
  | .plic => (zext32 (plicLoad s off), s)
  | .uart => ((uartLoad s off).1.setWidth 64, (uartLoad s off).2)
  | .disk => (zext32 (diskLoad s off), s)
  | .kbd => (zext32 (kbdLoad s off).1, (kbdLoad s off).2)

/-- A device store of the device's natural width. A store to the keyboard is ignored (R137, D49). -/
def deviceStore (s : State) (off : Nat) (v : Word) : Device → State
  | .clint => clintStore s off v
  | .plic => plicStore s off (low32 v)
  | .uart => uartStore s off (v.setWidth 8)
  | .disk => diskStore s off (low32 v)
  | .kbd => s

/-- The access lies whole inside RAM (R102, R103). -/
def inRam (a : Nat) (w : Width) : Bool := decide (ramBase ≤ a) && decide (a + w.bytes ≤ ramBase + ramSize)

/-- BusLoad (R110): the value zero-extended and the state after the load's side effect, or `none` where the access fails. -/
def busLoad (pa : Word) (w : Width) (s : State) : Option (Word × State) :=
  match regionOf s.cfg pa.toNat with
  | none => none
  | some .ram => if inRam pa.toNat w then some (s.mem.readBytes pa.toNat w.bytes, s) else none
  | some (.device d) => if w = d.naturalWidth then some (deviceLoad s (pa.toNat - d.base s.cfg) d) else none

/-- BusStore (R111): the state after the store, or `none` where the access fails. -/
def busStore (pa : Word) (w : Width) (v : Word) (s : State) : Option State :=
  match regionOf s.cfg pa.toNat with
  | none => none
  | some .ram => if inRam pa.toNat w then some { s with mem := s.mem.writeBytes pa.toNat v w.bytes } else none
  | some (.device d) => if w = d.naturalWidth then some (deviceStore s (pa.toNat - d.base s.cfg) v d) else none

end Sys2Proof.Machine
end

