-- ==== Sys2Proof/Machine/Translation.lean ====
section
/-! DEFINITION. Sv39 translation (R150 to R159) and the virtual-memory primitives of the instruction rules (R160). -/

namespace Sys2Proof.Machine

/-- The kind of an access (R20). -/
inductive Access where
  | fetch
  | load
  | store
  deriving DecidableEq, Repr

/-- PF(kind) (R150). -/
def Access.pageFault : Access → Exception
  | .fetch => .instructionPageFault
  | .load => .loadPageFault
  | .store => .storeAmoPageFault

/-- AF(kind) (R150). -/
def Access.accessFault : Access → Exception
  | .fetch => .instructionAccessFault
  | .load => .loadAccessFault
  | .store => .storeAmoAccessFault

/-- vpn[level] of a virtual address (R150). -/
def vpn (va : Word) (level : Nat) : Word := (va.extractLsb' (12 + 9 * level) 9).setWidth 64

/-- The entry is valid: V = 1 and not W without R (R153). -/
def pteValid (pte : Word) : Bool := pte.getLsbD 0 && (pte.getLsbD 1 || !pte.getLsbD 2)

/-- A valid entry is a leaf: R = 1 or X = 1 (R153). -/
def pteLeaf (pte : Word) : Bool := pte.getLsbD 1 || pte.getLsbD 3

/-- The next table's address: pte[53:10] << 12 (R150). -/
def pteNext (pte : Word) : Word := (pte.extractLsb' 10 44).setWidth 64 <<< 12

/-- The physical address a leaf at a level gives (R150, R154): the low page numbers of a superpage are the virtual address's. -/
def leafAddress (pte va : Word) : Nat → Word
  | 0 => ((pte.extractLsb' 28 26).setWidth 64 <<< 30) ||| ((pte.extractLsb' 19 9).setWidth 64 <<< 21) |||
      ((pte.extractLsb' 10 9).setWidth 64 <<< 12) ||| (va.extractLsb' 0 12).setWidth 64
  | 1 => ((pte.extractLsb' 28 26).setWidth 64 <<< 30) ||| ((pte.extractLsb' 19 9).setWidth 64 <<< 21) |||
      (vpn va 0 <<< 12) ||| (va.extractLsb' 0 12).setWidth 64
  | _ => ((pte.extractLsb' 28 26).setWidth 64 <<< 30) ||| (vpn va 1 <<< 21) |||
      (vpn va 0 <<< 12) ||| (va.extractLsb' 0 12).setWidth 64

/-- A page-table entry's value, read over the bus (R158). A 64-bit bus load has no side effect. -/
def readPte (a : Word) (s : State) : Option Word := (busLoad a .double s).map Prod.fst

/-- The walk from a table at a level downward (R150). -/
def walk (s : State) (va : Word) (kind : Access) : Nat → Word → Except Exception Word
  | level, a =>
    match readPte (a + vpn va level * 8) s with
    | none => .error kind.accessFault
    | some pte =>
      if !pteValid pte then .error kind.pageFault
      else if pteLeaf pte then .ok (leafAddress pte va level)
      else match level with
        | 0 => .error kind.pageFault
        | next + 1 => walk s va kind next (pteNext pte)

/-- Translate (R150): the identity when paging is off, else the walk from `pt_root` at level 2. -/
def translate (va : Word) (kind : Access) (s : State) : Except Exception Word :=
  if s.pagingOn then walk s va kind 2 s.ptRoot else .ok va

/-- MemRead (R160). -/
def memRead (va : Word) (w : Width) (kind : Access) (s : State) : Except Exception (Word × State) :=
  match translate va kind s with
  | .error e => .error e
  | .ok pa =>
    match busLoad pa w s with
    | none => .error kind.accessFault
    | some r => .ok r

/-- MemWrite (R160). -/
def memWrite (va : Word) (w : Width) (v : Word) (s : State) : Except Exception State :=
  match translate va .store s with
  | .error e => .error e
  | .ok pa =>
    match busStore pa w v s with
    | none => .error .storeAmoAccessFault
    | some t => .ok t

/-- The fetch of an instruction word (R402, R403): the pc's alignment, then a 32-bit read. -/
def fetch (s : State) : Except Exception (Word32 × State) :=
  if s.pc.extractLsb' 0 2 ≠ 0 then .error .instructionAddressMisaligned
  else match memRead s.pc .word .fetch s with
    | .error e => .error e
    | .ok (v, t) => .ok (low32 v, t)

end Sys2Proof.Machine
end

