-- ==== Sys2Proof/Machine/Ops.lean ====
section
/-! DEFINITION. The operations the instruction meanings share: the CSR accessors (R60 to R66), taking an exception or an
interrupt (R440 to R444, R415, R416), returning from one (R384, R385), and the shapes of an instruction's effect. -/

namespace Sys2Proof.Machine

/-! ## CSR numbers (R51) -/

def csrSstatus : CsrNum := 0x100#12
def csrSie : CsrNum := 0x104#12
def csrStvec : CsrNum := 0x105#12
def csrSepc : CsrNum := 0x141#12
def csrScause : CsrNum := 0x142#12
def csrStval : CsrNum := 0x143#12
def csrSip : CsrNum := 0x144#12
def csrSatp : CsrNum := 0x180#12
def csrMstatus : CsrNum := 0x300#12
def csrMedeleg : CsrNum := 0x302#12
def csrMideleg : CsrNum := 0x303#12
def csrMie : CsrNum := 0x304#12
def csrMtvec : CsrNum := 0x305#12
def csrMepc : CsrNum := 0x341#12
def csrMcause : CsrNum := 0x342#12
def csrMtval : CsrNum := 0x343#12
def csrMip : CsrNum := 0x344#12

/-! ## Plain updates -/

/-- The state with another pc. -/
def State.setPc (s : State) (v : Word) : State := { s with pc := v }

/-- The state in another mode. -/
def State.setMode (s : State) (md : Mode) : State := { s with mode := md }

/-- The state with another status. -/
def State.setStatus (s : State) (st : Status) : State := { s with status := st }

/-- `csr[a]`, the raw slot (R19). -/
def State.csr (s : State) (a : CsrNum) : Word := Cells.read s.csrs a.toNat

/-- The state with the raw slot `csr[a] = v` (R19, R65). -/
def State.setCsr (s : State) (a : CsrNum) (v : Word) : State := { s with csrs := Cells.write s.csrs a.toNat v }

/-! ## CSR accessors (R60, R61, R64) -/

/-- The paging cache of a satp value (R48, R64). -/
def refreshPaging (s : State) (v : Word) : State :=
  { s with pagingOn := v >>> 60 == 8#64, ptRoot := (v.extractLsb' 0 44).setWidth 64 <<< 12 }

/-- `csr_read(a)` (R60). -/
def csrRead (s : State) (a : CsrNum) : Word :=
  if a = csrSstatus then s.csr csrMstatus &&& sstatusMask
  else if a = csrSie then s.csr csrMie &&& s.csr csrMideleg &&& sLevelMask
  else if a = csrSip then s.csr csrMip &&& s.csr csrMideleg &&& sLevelMask
  else s.csr a

/-- `csr_write(a, v)` (R61). -/
def csrWrite (s : State) (a : CsrNum) (v : Word) : State :=
  if a = csrSstatus then s.setCsr csrMstatus (merge (s.csr csrMstatus) sstatusMask v)
  else if a = csrSie then s.setCsr csrMie (merge (s.csr csrMie) (s.csr csrMideleg &&& sLevelMask) v)
  else if a = csrSip then s.setCsr csrMip (merge (s.csr csrMip) (s.csr csrMideleg &&& sipWriteMask) v)
  else if a = csrSatp then refreshPaging (s.setCsr csrSatp v) v
  else s.setCsr a v

/-! ## Taking a trap (R440 to R444) -/

/-- The CSR that delegates the trap (R441). -/
def delegationCsr (s : State) (t : Trap) : Word :=
  if t.isInterrupt && s.cfg.intrDelegCsr == .mideleg then s.csr csrMideleg else s.csr csrMedeleg

/-- The trap goes to S-mode: it comes from U or S and its bit is set (R441). -/
def delegated (s : State) (t : Trap) : Bool :=
  s.mode != .m && (delegationCsr s t).getLsbD (t.cause.toNat % 64)

/-- Entry to S-mode (R440, R443). -/
def enterS (t : Trap) (epc : Word) (s : State) : State :=
  (((((s.setMode .s).setPc (trapTarget (s.csr csrStvec) t)).setCsr csrSepc (epc &&& ~~~1#64)).setCsr csrScause
    t.cause).setCsr csrStval 0).setCsr csrMstatus (statusAfterSTrap s.mode (s.csr csrMstatus))

/-- Entry to M-mode (R440, R444). -/
def enterM (t : Trap) (epc : Word) (s : State) : State :=
  (((((s.setMode .m).setPc (trapTarget (s.csr csrMtvec) t)).setCsr csrMepc (epc &&& ~~~1#64)).setCsr csrMcause
    t.cause).setCsr csrMtval 0).setCsr csrMstatus (statusAfterMTrap (s.csr csrMstatus))

/-- `take_trap(t, epc)` (R440). -/
def takeTrap (t : Trap) (epc : Word) (s : State) : State :=
  if delegated s t then enterS t epc s else enterM t epc s

/-- Taking an exception with a given pc: the trap entry, then, for a fatal one, the halt (R400, R415, R416). -/
def raiseAt (e : Exception) (epc : Word) (s : State) : State :=
  if e.fatal then (takeTrap (.exception e) epc s).setStatus (.halted e) else takeTrap (.exception e) epc s

/-- `raise E` in an instruction's rule (R22): the exception pc is the instruction's own address (R440). -/
def raise (e : Exception) (s : State) : State := raiseAt e s.pcCur s

/-! ## Returning from a trap (R382 to R386) -/

/-- The return of SRET (R384). -/
def returnS (s : State) : State :=
  ((s.setPc (s.csr csrSepc)).setMode (if (s.csr csrMstatus).getLsbD bitSPP then .s else .u)).setCsr csrMstatus
    (statusAfterSret (s.csr csrMstatus))

/-- The return of MRET (R385); MPP = 2 refuses before any state is written (R386, R23). -/
def returnM (s : State) : State :=
  match modeOfMpp (mpp (s.csr csrMstatus)) with
  | none => s.setStatus (.refused .mretReservedMode)
  | some md => ((s.setPc (s.csr csrMepc)).setMode md).setCsr csrMstatus (statusAfterMret (s.csr csrMstatus))

/-! ## Shapes of an instruction's effect -/

/-- x[rd] ← f x[rs1] x[rs2]. -/
def writeRR (f : Word → Word → Word) (rd rs1 rs2 : Reg) (s : State) : State := s.setReg rd (f (s.reg rs1) (s.reg rs2))

/-- x[rd] ← f x[rs1]. -/
def writeR (f : Word → Word) (rd rs1 : Reg) (s : State) : State := s.setReg rd (f (s.reg rs1))

/-- A W form: x[rd] ← sext_32 of a 32-bit result from the low words (R230, R280). -/
def writeRRW (f : Word32 → Word32 → Word32) (rd rs1 rs2 : Reg) (s : State) : State :=
  writeRR (fun a b => sext32 (f (low32 a) (low32 b))) rd rs1 rs2 s

/-- A W form with one register operand. -/
def writeRW (f : Word32 → Word32) (rd rs1 : Reg) (s : State) : State := writeR (fun a => sext32 (f (low32 a))) rd rs1 s

/-- A load (R210): the value read, extended by `ext`, to rd; an exception leaves rd alone. -/
def loadTo (w : Width) (ext : Word → Word) (rd rs1 : Reg) (imm : BitVec 12) (s : State) : State :=
  match memRead (effectiveAddress s rs1 imm) w .load s with
  | .error e => raise e s
  | .ok (v, t) => t.setReg rd (ext v)

/-- A store (R218). -/
def storeFrom (w : Width) (rs1 rs2 : Reg) (imm : BitVec 12) (s : State) : State :=
  match memWrite (effectiveAddress s rs1 imm) w (s.reg rs2) s with
  | .error e => raise e s
  | .ok t => t

/-- The AMO template (R300): alignment, read half, write half, old value to rd. `new` gives the value to store and `ret` the
register value, both from the old memory value. -/
def amo (w : Width) (new ret : Word → Word) (rd rs1 : Reg) (s : State) : State :=
  if (s.reg rs1).toNat % w.bytes ≠ 0 then raise .loadAddressMisaligned s
  else match memRead (s.reg rs1) w .load s with
    | .error e => raise e s
    | .ok (a, t) =>
      match memWrite (s.reg rs1) w (new a) t with
      | .error e => raise e t
      | .ok u => u.setReg rd (ret a)

/-- ext32 of the old word an AMO .W returns (R304). -/
def amoExt32 (c : Config) (a : Word32) : Word :=
  match c.amoWExt with
  | .sext => sext32 a
  | .zext => zext32 a

/-- AMO_32(op) (R300). -/
def amoW (op : Word32 → Word32 → Word32) (rd rs1 rs2 : Reg) (s : State) : State :=
  amo .word (fun a => zext32 (op (low32 a) (low32 (s.reg rs2)))) (fun a => amoExt32 s.cfg (low32 a)) rd rs1 s

/-- AMO_64(op) (R300). -/
def amoD (op : Word → Word → Word) (rd rs1 rs2 : Reg) (s : State) : State :=
  amo .double (fun a => op a (s.reg rs2)) (fun a => a) rd rs1 s

/-- A conditional branch (R330): taken, the pc is pc_cur + offset. -/
def branch (cond : Word → Word → Bool) (rs1 rs2 : Reg) (offset : BitVec 13) (s : State) : State :=
  if cond (s.reg rs1) (s.reg rs2) then s.setPc (s.pcCur + imm13 offset) else s

/-- A jump with link (R337, R338): x[rd] ← pc_cur + 4, pc ← target. -/
def jumpTo (target : Word) (rd : Reg) (s : State) : State := (s.setReg rd (s.pcCur + 4)).setPc target

/-- A CSR instruction (R360): read the old value, write the new one made from it, then give rd the old value. -/
def csrUpdate (new : Word → Word) (rd : Reg) (a : CsrNum) (s : State) : State :=
  (csrWrite s a (new (csrRead s a))).setReg rd (csrRead s a)

end Sys2Proof.Machine
end

