-- ==== Sys2Proof/Machine/Atomics.lean ====
section
/-! DEFINITION. Atomic memory operations (R300 to R322). aq and rl are ignored (R303). -/

namespace Sys2Proof.Machine

/-! ## Word forms (R305 to R313) -/

/-- AMOSWAP.W (R305): the new value is x[rs2]. -/
def execAmoswapW (_aq _rl : Bool) (rd rs1 rs2 : Reg) (s : State) : Result :=
  .next (amoW (fun _ b => b) rd rs1 rs2 s)

/-- AMOADD.W (R306): the sum. -/
def execAmoaddW (_aq _rl : Bool) (rd rs1 rs2 : Reg) (s : State) : Result :=
  .next (amoW (fun a b => a + b) rd rs1 rs2 s)

/-- AMOXOR.W (R307): the exclusive or. -/
def execAmoxorW (_aq _rl : Bool) (rd rs1 rs2 : Reg) (s : State) : Result :=
  .next (amoW (fun a b => a ^^^ b) rd rs1 rs2 s)

/-- AMOAND.W (R308): the and. -/
def execAmoandW (_aq _rl : Bool) (rd rs1 rs2 : Reg) (s : State) : Result :=
  .next (amoW (fun a b => a &&& b) rd rs1 rs2 s)

/-- AMOOR.W (R309): the or. -/
def execAmoorW (_aq _rl : Bool) (rd rs1 rs2 : Reg) (s : State) : Result :=
  .next (amoW (fun a b => a ||| b) rd rs1 rs2 s)

/-- AMOMIN.W (R310): the signed minimum. -/
def execAmominW (_aq _rl : Bool) (rd rs1 rs2 : Reg) (s : State) : Result :=
  .next (amoW (fun a b => if a.slt b then a else b) rd rs1 rs2 s)

/-- AMOMAX.W (R311): the signed maximum. -/
def execAmomaxW (_aq _rl : Bool) (rd rs1 rs2 : Reg) (s : State) : Result :=
  .next (amoW (fun a b => if b.slt a then a else b) rd rs1 rs2 s)

/-- AMOMINU.W (R312): the unsigned minimum. -/
def execAmominuW (_aq _rl : Bool) (rd rs1 rs2 : Reg) (s : State) : Result :=
  .next (amoW (fun a b => if a.ult b then a else b) rd rs1 rs2 s)

/-- AMOMAXU.W (R313): the unsigned maximum. -/
def execAmomaxuW (_aq _rl : Bool) (rd rs1 rs2 : Reg) (s : State) : Result :=
  .next (amoW (fun a b => if b.ult a then a else b) rd rs1 rs2 s)

/-! ## Doubleword forms (R314 to R322) -/

/-- AMOSWAP.D (R314): the new value is x[rs2]. -/
def execAmoswapD (_aq _rl : Bool) (rd rs1 rs2 : Reg) (s : State) : Result :=
  .next (amoD (fun _ b => b) rd rs1 rs2 s)

/-- AMOADD.D (R315): the sum. -/
def execAmoaddD (_aq _rl : Bool) (rd rs1 rs2 : Reg) (s : State) : Result :=
  .next (amoD (fun a b => a + b) rd rs1 rs2 s)

/-- AMOXOR.D (R316): the exclusive or. -/
def execAmoxorD (_aq _rl : Bool) (rd rs1 rs2 : Reg) (s : State) : Result :=
  .next (amoD (fun a b => a ^^^ b) rd rs1 rs2 s)

/-- AMOAND.D (R317): the and. -/
def execAmoandD (_aq _rl : Bool) (rd rs1 rs2 : Reg) (s : State) : Result :=
  .next (amoD (fun a b => a &&& b) rd rs1 rs2 s)

/-- AMOOR.D (R318): the or. -/
def execAmoorD (_aq _rl : Bool) (rd rs1 rs2 : Reg) (s : State) : Result :=
  .next (amoD (fun a b => a ||| b) rd rs1 rs2 s)

/-- AMOMIN.D (R319): the signed minimum. -/
def execAmominD (_aq _rl : Bool) (rd rs1 rs2 : Reg) (s : State) : Result :=
  .next (amoD (fun a b => if a.slt b then a else b) rd rs1 rs2 s)

/-- AMOMAX.D (R320): the signed maximum. -/
def execAmomaxD (_aq _rl : Bool) (rd rs1 rs2 : Reg) (s : State) : Result :=
  .next (amoD (fun a b => if b.slt a then a else b) rd rs1 rs2 s)

/-- AMOMINU.D (R321): the unsigned minimum. -/
def execAmominuD (_aq _rl : Bool) (rd rs1 rs2 : Reg) (s : State) : Result :=
  .next (amoD (fun a b => if a.ult b then a else b) rd rs1 rs2 s)

/-- AMOMAXU.D (R322): the unsigned maximum. -/
def execAmomaxuD (_aq _rl : Bool) (rd rs1 rs2 : Reg) (s : State) : Result :=
  .next (amoD (fun a b => if b.ult a then a else b) rd rs1 rs2 s)

end Sys2Proof.Machine
end

