-- ==== Sys2Proof/Machine/ControlTransfer.lean ====
section
/-! DEFINITION. Branches and jumps (R330 to R339). A misaligned target is taken; the next fetch traps (R339). -/

namespace Sys2Proof.Machine

/-- BEQ (R331): taken if equal. -/
def execBeq (rs1 rs2 : Reg) (imm : BitVec 13) (s : State) : Result := .next (branch (fun a b => a == b) rs1 rs2 imm s)

/-- BNE (R332): taken if not equal. -/
def execBne (rs1 rs2 : Reg) (imm : BitVec 13) (s : State) : Result := .next (branch (fun a b => a != b) rs1 rs2 imm s)

/-- BLT (R333): taken if below, signed. -/
def execBlt (rs1 rs2 : Reg) (imm : BitVec 13) (s : State) : Result := .next (branch (fun a b => a.slt b) rs1 rs2 imm s)

/-- BGE (R334): taken if at least, signed. -/
def execBge (rs1 rs2 : Reg) (imm : BitVec 13) (s : State) : Result := .next (branch (fun a b => !a.slt b) rs1 rs2 imm s)

/-- BLTU (R335): taken if below, unsigned. -/
def execBltu (rs1 rs2 : Reg) (imm : BitVec 13) (s : State) : Result := .next (branch (fun a b => a.ult b) rs1 rs2 imm s)

/-- BGEU (R336): taken if at least, unsigned. -/
def execBgeu (rs1 rs2 : Reg) (imm : BitVec 13) (s : State) : Result := .next (branch (fun a b => !a.ult b) rs1 rs2 imm s)

/-- JAL (R337): to pc_cur + imm_J. -/
def execJal (rd : Reg) (imm : BitVec 21) (s : State) : Result := .next (jumpTo (s.pcCur + imm21 imm) rd s)

/-- JALR (R338): to x[rs1] + imm_I with bit 0 cleared. -/
def execJalr (rd rs1 : Reg) (imm : BitVec 12) (s : State) : Result :=
  .next (jumpTo (effectiveAddress s rs1 imm &&& ~~~1#64) rd s)

end Sys2Proof.Machine
end

