-- ==== Sys2Proof/Machine/Csr.lean ====
section
/-! DEFINITION. The CSR instructions (R360 to R366). None raises an exception (R368). -/

namespace Sys2Proof.Machine

/-- CSRRW (R361). -/
def execCsrrw (rd : Reg) (csr : CsrNum) (rs1 : Reg) (s : State) : Result := .next (csrUpdate (fun _ => s.reg rs1) rd csr s)

/-- CSRRS (R362). -/
def execCsrrs (rd : Reg) (csr : CsrNum) (rs1 : Reg) (s : State) : Result := .next (csrUpdate (fun t => t ||| s.reg rs1) rd csr s)

/-- CSRRC (R363). -/
def execCsrrc (rd : Reg) (csr : CsrNum) (rs1 : Reg) (s : State) : Result := .next (csrUpdate (fun t => t &&& ~~~(s.reg rs1)) rd csr s)

/-- CSRRWI (R364). -/
def execCsrrwi (rd : Reg) (csr : CsrNum) (uimm : BitVec 5) (s : State) : Result := .next (csrUpdate (fun _ => imm5 uimm) rd csr s)

/-- CSRRSI (R365). -/
def execCsrrsi (rd : Reg) (csr : CsrNum) (uimm : BitVec 5) (s : State) : Result := .next (csrUpdate (fun t => t ||| imm5 uimm) rd csr s)

/-- CSRRCI (R366). -/
def execCsrrci (rd : Reg) (csr : CsrNum) (uimm : BitVec 5) (s : State) : Result := .next (csrUpdate (fun t => t &&& ~~~(imm5 uimm)) rd csr s)

end Sys2Proof.Machine
end

