-- ==== Sys2Proof/Machine/Fences.lean ====
section
/-! DEFINITION. FENCE and SFENCE.VMA (R355, R357): no operation; the pc is already past the instruction. -/

namespace Sys2Proof.Machine

/-- FENCE (R355), with FENCE.TSO and PAUSE (R356). -/
def execFence (_fm _pred _succ : BitVec 4) (_rs1 _rd : Reg) (s : State) : Result := .next s

/-- SFENCE.VMA (R357): there is no TLB (R159). -/
def execSfenceVma (_rs1 _rs2 : Reg) (s : State) : Result := .next s

end Sys2Proof.Machine
end

