-- ==== Sys2Proof/Machine/IntegerAlu.lean ====
section
/-! DEFINITION. Integer computation (R230 to R258): no exceptions, nothing written but rd. -/

namespace Sys2Proof.Machine

/-! ## Register-immediate (R231 to R239) -/

/-- ADDI (R231): sum with the immediate. -/
def execAddi (rd rs1 : Reg) (imm : BitVec 12) (s : State) : Result :=
  .next (writeR (fun a => a + imm12 imm) rd rs1 s)

/-- SLTI (R232): 1 if below the immediate, signed. -/
def execSlti (rd rs1 : Reg) (imm : BitVec 12) (s : State) : Result :=
  .next (writeR (fun a => boolWord (a.slt (imm12 imm))) rd rs1 s)

/-- SLTIU (R233): 1 if below the sign-extended immediate, unsigned. -/
def execSltiu (rd rs1 : Reg) (imm : BitVec 12) (s : State) : Result :=
  .next (writeR (fun a => boolWord (a.ult (imm12 imm))) rd rs1 s)

/-- XORI (R234): exclusive or. -/
def execXori (rd rs1 : Reg) (imm : BitVec 12) (s : State) : Result :=
  .next (writeR (fun a => a ^^^ imm12 imm) rd rs1 s)

/-- ORI (R235): or. -/
def execOri (rd rs1 : Reg) (imm : BitVec 12) (s : State) : Result :=
  .next (writeR (fun a => a ||| imm12 imm) rd rs1 s)

/-- ANDI (R236): and. -/
def execAndi (rd rs1 : Reg) (imm : BitVec 12) (s : State) : Result :=
  .next (writeR (fun a => a &&& imm12 imm) rd rs1 s)

/-- SLLI (R237): left shift. -/
def execSlli (rd rs1 : Reg) (shamt : BitVec 6) (s : State) : Result :=
  .next (writeR (fun a => a <<< shamt.toNat) rd rs1 s)

/-- SRLI (R238): logical right shift. -/
def execSrli (rd rs1 : Reg) (shamt : BitVec 6) (s : State) : Result :=
  .next (writeR (fun a => a >>> shamt.toNat) rd rs1 s)

/-- SRAI (R239): arithmetic right shift. -/
def execSrai (rd rs1 : Reg) (shamt : BitVec 6) (s : State) : Result :=
  .next (writeR (fun a => a.sshiftRight shamt.toNat) rd rs1 s)

/-! ## Register-register (R240 to R249) -/

/-- ADD (R240): sum. -/
def execAdd (rd rs1 rs2 : Reg) (s : State) : Result :=
  .next (writeRR (fun a b => a + b) rd rs1 rs2 s)

/-- SUB (R241): difference. -/
def execSub (rd rs1 rs2 : Reg) (s : State) : Result :=
  .next (writeRR (fun a b => a - b) rd rs1 rs2 s)

/-- SLL (R242): left shift by x[rs2][5:0]. -/
def execSll (rd rs1 rs2 : Reg) (s : State) : Result :=
  .next (writeRR (fun a b => a <<< shiftAmount6 b) rd rs1 rs2 s)

/-- SLT (R243): 1 if below, signed. -/
def execSlt (rd rs1 rs2 : Reg) (s : State) : Result :=
  .next (writeRR (fun a b => boolWord (a.slt b)) rd rs1 rs2 s)

/-- SLTU (R244): 1 if below, unsigned. -/
def execSltu (rd rs1 rs2 : Reg) (s : State) : Result :=
  .next (writeRR (fun a b => boolWord (a.ult b)) rd rs1 rs2 s)

/-- XOR (R245): exclusive or. -/
def execXor (rd rs1 rs2 : Reg) (s : State) : Result :=
  .next (writeRR (fun a b => a ^^^ b) rd rs1 rs2 s)

/-- SRL (R246): logical right shift by x[rs2][5:0]. -/
def execSrl (rd rs1 rs2 : Reg) (s : State) : Result :=
  .next (writeRR (fun a b => a >>> shiftAmount6 b) rd rs1 rs2 s)

/-- SRA (R247): arithmetic right shift by x[rs2][5:0]. -/
def execSra (rd rs1 rs2 : Reg) (s : State) : Result :=
  .next (writeRR (fun a b => a.sshiftRight (shiftAmount6 b)) rd rs1 rs2 s)

/-- OR (R248): or. -/
def execOr (rd rs1 rs2 : Reg) (s : State) : Result :=
  .next (writeRR (fun a b => a ||| b) rd rs1 rs2 s)

/-- AND (R249): and. -/
def execAnd (rd rs1 rs2 : Reg) (s : State) : Result :=
  .next (writeRR (fun a b => a &&& b) rd rs1 rs2 s)

/-! ## 32-bit forms (R250 to R258) -/

/-- ADDIW (R250): low word of the sum, sign-extended. -/
def execAddiw (rd rs1 : Reg) (imm : BitVec 12) (s : State) : Result :=
  .next (writeR (fun a => sext32 (low32 (a + imm12 imm))) rd rs1 s)

/-- SLLIW (R251): left shift of the low word. -/
def execSlliw (rd rs1 : Reg) (shamt : BitVec 5) (s : State) : Result :=
  .next (writeRW (fun a => a <<< shamt.toNat) rd rs1 s)

/-- SRLIW (R252): logical right shift of the low word. -/
def execSrliw (rd rs1 : Reg) (shamt : BitVec 5) (s : State) : Result :=
  .next (writeRW (fun a => a >>> shamt.toNat) rd rs1 s)

/-- SRAIW (R253): arithmetic right shift of the low word. -/
def execSraiw (rd rs1 : Reg) (shamt : BitVec 5) (s : State) : Result :=
  .next (writeRW (fun a => a.sshiftRight shamt.toNat) rd rs1 s)

/-- ADDW (R254): low word of the sum, sign-extended. -/
def execAddw (rd rs1 rs2 : Reg) (s : State) : Result :=
  .next (writeRR (fun a b => sext32 (low32 (a + b))) rd rs1 rs2 s)

/-- SUBW (R255): low word of the difference, sign-extended. -/
def execSubw (rd rs1 rs2 : Reg) (s : State) : Result :=
  .next (writeRR (fun a b => sext32 (low32 (a - b))) rd rs1 rs2 s)

/-- SLLW (R256): left shift of the low word by x[rs2][4:0]. -/
def execSllw (rd rs1 rs2 : Reg) (s : State) : Result :=
  .next (writeRR (fun a b => sext32 (low32 a <<< shiftAmount5 b)) rd rs1 rs2 s)

/-- SRLW (R257): logical right shift of the low word by x[rs2][4:0]. -/
def execSrlw (rd rs1 rs2 : Reg) (s : State) : Result :=
  .next (writeRR (fun a b => sext32 (low32 a >>> shiftAmount5 b)) rd rs1 rs2 s)

/-- SRAW (R258): arithmetic right shift of the low word by x[rs2][4:0]. -/
def execSraw (rd rs1 rs2 : Reg) (s : State) : Result :=
  .next (writeRR (fun a b => sext32 ((low32 a).sshiftRight (shiftAmount5 b))) rd rs1 rs2 s)

end Sys2Proof.Machine
end

