-- ==== Sys2Proof/Machine/LoadsStores.lean ====
section
/-! DEFINITION. Loads and stores (R210 to R222). -/

namespace Sys2Proof.Machine

/-- LB (R211): sign-extended byte. -/
def execLb (rd rs1 : Reg) (imm : BitVec 12) (s : State) : Result :=
  .next (loadTo .byte (fun v => (v.setWidth 8).signExtend 64) rd rs1 imm s)

/-- LH (R212): sign-extended half word. -/
def execLh (rd rs1 : Reg) (imm : BitVec 12) (s : State) : Result :=
  .next (loadTo .half (fun v => (v.setWidth 16).signExtend 64) rd rs1 imm s)

/-- LW (R213): sign-extended word. -/
def execLw (rd rs1 : Reg) (imm : BitVec 12) (s : State) : Result :=
  .next (loadTo .word (fun v => sext32 (low32 v)) rd rs1 imm s)

/-- LD (R214): double word. -/
def execLd (rd rs1 : Reg) (imm : BitVec 12) (s : State) : Result :=
  .next (loadTo .double (fun v => v) rd rs1 imm s)

/-- LBU (R215): zero-extended byte. -/
def execLbu (rd rs1 : Reg) (imm : BitVec 12) (s : State) : Result :=
  .next (loadTo .byte (fun v => (v.setWidth 8).setWidth 64) rd rs1 imm s)

/-- LHU (R216): zero-extended half word. -/
def execLhu (rd rs1 : Reg) (imm : BitVec 12) (s : State) : Result :=
  .next (loadTo .half (fun v => (v.setWidth 16).setWidth 64) rd rs1 imm s)

/-- LWU (R217): zero-extended word. -/
def execLwu (rd rs1 : Reg) (imm : BitVec 12) (s : State) : Result :=
  .next (loadTo .word (fun v => zext32 (low32 v)) rd rs1 imm s)

/-- SB (R219): the low byte of x[rs2]. -/
def execSb (rs1 rs2 : Reg) (imm : BitVec 12) (s : State) : Result := .next (storeFrom .byte rs1 rs2 imm s)

/-- SH (R220): the low half word of x[rs2]. -/
def execSh (rs1 rs2 : Reg) (imm : BitVec 12) (s : State) : Result := .next (storeFrom .half rs1 rs2 imm s)

/-- SW (R221): the low word of x[rs2]. -/
def execSw (rs1 rs2 : Reg) (imm : BitVec 12) (s : State) : Result := .next (storeFrom .word rs1 rs2 imm s)

/-- SD (R222): all of x[rs2]. -/
def execSd (rs1 rs2 : Reg) (imm : BitVec 12) (s : State) : Result := .next (storeFrom .double rs1 rs2 imm s)

end Sys2Proof.Machine
end

