-- ==== Sys2Proof/Machine/MultiplyDivide.lean ====
section
/-! DEFINITION. Multiplication and division (R280 to R293): no exceptions. -/

namespace Sys2Proof.Machine

/-- MUL (R281): low half of the product. -/
def execMul (rd rs1 rs2 : Reg) (s : State) : Result :=
  .next (writeRR (fun a b => a * b) rd rs1 rs2 s)

/-- MULH (R282): high half, signed by signed. -/
def execMulh (rd rs1 rs2 : Reg) (s : State) : Result :=
  .next (writeRR (fun a b => mulHigh a b) rd rs1 rs2 s)

/-- MULHSU (R283): high half, signed rs1 by unsigned rs2. -/
def execMulhsu (rd rs1 rs2 : Reg) (s : State) : Result :=
  .next (writeRR (fun a b => mulHighSU a b) rd rs1 rs2 s)

/-- MULHU (R284): high half, unsigned. -/
def execMulhu (rd rs1 rs2 : Reg) (s : State) : Result :=
  .next (writeRR (fun a b => mulHighU a b) rd rs1 rs2 s)

/-- DIV (R285): signed quotient. -/
def execDiv (rd rs1 rs2 : Reg) (s : State) : Result :=
  .next (writeRR (fun a b => divSigned a b) rd rs1 rs2 s)

/-- DIVU (R286): unsigned quotient. -/
def execDivu (rd rs1 rs2 : Reg) (s : State) : Result :=
  .next (writeRR (fun a b => divUnsigned a b) rd rs1 rs2 s)

/-- REM (R287): signed remainder. -/
def execRem (rd rs1 rs2 : Reg) (s : State) : Result :=
  .next (writeRR (fun a b => remSigned a b) rd rs1 rs2 s)

/-- REMU (R288): unsigned remainder. -/
def execRemu (rd rs1 rs2 : Reg) (s : State) : Result :=
  .next (writeRR (fun a b => remUnsigned a b) rd rs1 rs2 s)

/-- MULW (R289): low word of the product of the low words. -/
def execMulw (rd rs1 rs2 : Reg) (s : State) : Result :=
  .next (writeRRW (fun a b => a * b) rd rs1 rs2 s)

/-- DIVW (R290): signed quotient of the low words. -/
def execDivw (rd rs1 rs2 : Reg) (s : State) : Result :=
  .next (writeRRW (fun a b => divSigned a b) rd rs1 rs2 s)

/-- DIVUW (R291): unsigned quotient of the low words. -/
def execDivuw (rd rs1 rs2 : Reg) (s : State) : Result :=
  .next (writeRRW (fun a b => divUnsigned a b) rd rs1 rs2 s)

/-- REMW (R292): signed remainder of the low words. -/
def execRemw (rd rs1 rs2 : Reg) (s : State) : Result :=
  .next (writeRRW (fun a b => remSigned a b) rd rs1 rs2 s)

/-- REMUW (R293): unsigned remainder of the low words. -/
def execRemuw (rd rs1 rs2 : Reg) (s : State) : Result :=
  .next (writeRRW (fun a b => remUnsigned a b) rd rs1 rs2 s)

end Sys2Proof.Machine
end

