-- ==== Sys2Proof/Machine/System.lean ====
section
/-! DEFINITION. ECALL, EBREAK, SRET and MRET (R380 to R386). None checks the mode (R383). -/

namespace Sys2Proof.Machine

/-- The exception an ECALL raises in a mode (R380). -/
def ecallException : Mode → Exception
  | .u => .envCallFromUMode
  | .s => .envCallFromSMode
  | .m => .envCallFromMMode

/-- ECALL (R380): takes the environment call of the current mode. -/
def execEcall (s : State) : Result := .next (raise (ecallException s.mode) s)

/-- EBREAK (R381): takes Breakpoint. -/
def execEbreak (s : State) : Result := .next (raise .breakpoint s)

/-- SRET (R384). -/
def execSret (s : State) : Result := .next (returnS s)

/-- MRET (R385, R386). -/
def execMret (s : State) : Result := .next (returnM s)

end Sys2Proof.Machine
end

