-- ==== Sys2Proof/Machine/UpperImmediate.lean ====
section
/-! DEFINITION. LUI and AUIPC (R350, R351). -/

namespace Sys2Proof.Machine

/-- LUI (R350): imm_U. -/
def execLui (rd : Reg) (imm : BitVec 20) (s : State) : Result := .next (s.setReg rd (immUpper imm))

/-- AUIPC (R351): pc_cur + imm_U. -/
def execAuipc (rd : Reg) (imm : BitVec 20) (s : State) : Result := .next (s.setReg rd (s.pcCur + immUpper imm))

end Sys2Proof.Machine
end

