-- ==== Sys2Proof/Machine/Poll.lean ====
section
/-! DEFINITION. The end of a step: the poll (R430 to R437) with the disk transfer (R433), and letting host moves in (R171). -/

namespace Sys2Proof.Machine

/-! ## The disk transfer (R433) -/

/-- `status <- HostError(reason)` (R417). -/
def hostError (r : HostError) (s : State) : State := s.setStatus (.hostError r)

/-- The end of a transfer that copied every byte: done ← 0. -/
def dmaDone (s : State) : State := { s with disk := { s.disk with done := 0 } }

/-- Disk to RAM: store the bytes one by one through the bus; a failure stops there. -/
def dmaToRam : List Byte → Word → State → State
  | [], _, s => dmaDone s
  | b :: bs, addr, s =>
    match busStore addr .byte (b.setWidth 64) s with
    | none => hostError .busFailure s
    | some t => dmaToRam bs (addr + 1) t

/-- `disk_backing[i] <- b`. -/
def State.setBacking (s : State) (i : Nat) (b : Byte) : State :=
  { s with diskBacking := s.diskBacking.map (fun img => img.set i b) }

/-- RAM to disk: load `n` bytes one by one through the bus into the image from index `i`; a failure stops there. -/
def dmaToDisk : Nat → Nat → Word → State → State
  | 0, _, _, s => dmaDone s
  | n + 1, i, addr, s =>
    match busLoad addr .byte s with
    | none => hostError .busFailure s
    | some (v, t) => dmaToDisk n (i + 1) (addr + 1) (t.setBacking i (v.setWidth 8))

/-- buffer_address (R133). -/
def Disk.bufAddr (d : Disk) : Word := d.bufAddrHi ++ d.bufAddrLo
/-- buffer_length (R133). -/
def Disk.bufLen (d : Disk) : Word := d.bufLenHi ++ d.bufLenLo
/-- The first byte of the transfer in the disk image (R133). -/
def Disk.start (d : Disk) : Nat := d.sector.toNat * sectorBytes

/-- The transfer, notify being idle again (R433). -/
def dmaCopy (s : State) : State :=
  match s.diskBacking with
  | none => hostError .noDiskImage s
  | some img =>
    if img.length < s.disk.start + s.disk.bufLen.toNat then hostError .sectorRange s
    else if s.disk.direction = 1 then dmaToDisk s.disk.bufLen.toNat s.disk.start s.disk.bufAddr s
    else dmaToRam ((img.drop s.disk.start).take s.disk.bufLen.toNat) s.disk.bufAddr s

/-- `dma()` (R433). -/
def dma (s : State) : State := dmaCopy { s with disk := { s.disk with notify := notifyIdle } }

/-! ## The poll (R430) -/

/-- mip.MTIP ← (mtime ≥ mtimecmp), under TIMER_COMPARE (R437). -/
def timerCompare (s : State) : State :=
  if s.cfg.timerCompare then
    s.setCsr csrMip (setBit (s.csr csrMip) Interrupt.mti.code (decide (s.clint.mtimecmp.toNat ≤ s.clint.mtime.toNat)))
  else s

/-- The enable test stops the poll (R431). -/
def pollBlocked (s : State) : Bool :=
  match s.mode with
  | .m => !(s.csr csrMstatus).getLsbD bitMIE
  | .s => !(s.csr csrMstatus).getLsbD bitSIE
  | .u => false

/-- A device's IRQ: its number to sclaim, and mip.SEIP set (R432). -/
def fireIrq (irq : Word32) (s : State) : State :=
  { s with plic := { s.plic with sclaim := irq } }.setCsr csrMip (setBit (s.csr csrMip) Interrupt.sei.code true)

/-- The device query (R432): the UART first, else an armed disk. -/
def deviceQuery (s : State) : State :=
  if s.uart.interrupting then fireIrq 10 { s with uart := { s.uart with interrupting := false } }
  else if s.disk.notify ≠ notifyIdle then
    let t := dma s
    if t.status = .running then fireIrq 1 t else t
  else s

/-- The pc an interrupt records (R435). -/
def interruptEpc (s : State) : Word :=
  match s.cfg.intrEpc with
  | .nextPc => s.pc
  | .pcMinus4 => s.pc - 4

/-- Delivery (R434): the first enabled pending interrupt, its mip bit cleared, is taken. -/
def deliver (s : State) : State :=
  match pickInterrupt (s.csr csrMie &&& s.csr csrMip) with
  | none => s
  | some i => takeTrap (.interrupt i) (interruptEpc s) (s.setCsr csrMip (setBit (s.csr csrMip) i.code false))

/-- The poll past its enable test: query, then deliver unless the transfer failed (R430). -/
def pollEnabled (s : State) : State :=
  let t := deviceQuery s
  if t.status = .running then deliver t else t

/-- `poll()` (R430). -/
def poll (s : State) : State :=
  let t := timerCompare s
  if pollBlocked t then t else pollEnabled t

/-! ## Host moves (R126, R138, R171) -/

/-- `uart_push_byte(b)` where it is enabled (R126). -/
def uartPushByte (b : Byte) (s : State) : State :=
  let t := (s.setUartByte uartDataOffset b).setUartByte uartLsrOffset (s.uartByte uartLsrOffset ||| 0x01#8)
  { t with uart := { t.uart with interrupting := true } }

/-- `kbd_push_scancode(v)` (R138). -/
def kbdPushScancode (v : Word32) (s : State) : State := { s with kbdQueue := s.kbdQueue ++ [v] }

/-- A host move made now, where it is enabled: a byte needs LSR.RX clear (R126). -/
def hostMove (mv : HostMove) (s : State) : Option State :=
  match mv with
  | .uartByte b => if s.uartRx then none else some (uartPushByte b s)
  | .scancode v => some (kbdPushScancode v s)
  | .ramPointer => some s

/-- The state after the moves of one point, and those that were not enabled and still wait. -/
def letIn : List HostMove → State → State × List HostMove
  | [], s => (s, [])
  | m :: ms, s =>
    match hostMove m s with
    | some t => letIn ms t
    | none => ((letIn ms s).1, m :: (letIn ms s).2)

/-- The schedule after a point: moves that still wait go first at the next point (R126). -/
def carryOver (waiting : List HostMove) (points : List (List HostMove)) : List (List HostMove) :=
  if waiting = [] then points else (waiting ++ points.headD []) :: points.tail

/-- One point of R171: the schedule's next moves are let in. A block that has stopped lets nothing in (log 16). -/
def letHostIn (s : State) : State :=
  if s.status = .running then
    match s.hostSchedule with
    | [] => s
    | ms :: points => { (letIn ms s).1 with hostSchedule := carryOver (letIn ms s).2 points }
  else s

/-- The end of a step (R400): if the block still runs, the point inside the step, the poll, and the point before the next step. -/
def endOfStep (s : State) : State := if s.status = .running then letHostIn (poll (letHostIn s)) else s

end Sys2Proof.Machine
end

