-- ==== Sys2Proof/Machine/Execute.lean ====
section
/-! DEFINITION. The first half of a step (R400): fetch, advance, execute; and what comes after it. -/

namespace Sys2Proof.Machine

/-- Executing a fetched word (R187, R401): the pc is advanced, then the word's instruction runs, or IllegalInstruction is taken. -/
def execWord (w : Word32) (s : State) : Result :=
  match decodeWord w with
  | .ok i => exec i (s.setPc (s.pc + 4))
  | .error _ => .next (raise .illegalInstruction (s.setPc (s.pc + 4)))

/-- Fetch, advance and execute (R400). A fetch exception's pc is the fetch address (R402). -/
def execution (s : State) : Result :=
  match fetch s with
  | .error e => .next (raiseAt e s.pc s)
  | .ok (w, t) => execWord w t

/-- The end of a step put after what an execution answered. -/
def afterExec : Result → Result
  | .next t => .next (endOfStep t)
  | .fault r => .fault r
  | .refused r => .refused r

end Sys2Proof.Machine
end

