-- ==== Sys2Proof/Machine/Step.lean ====
section
/-! DEFINITION. One step (R400): fetch, advance, execute, let the host in, poll. -/

namespace Sys2Proof.Machine

/-- `step` (R400). In a status other than running it has no effect (R76). -/
def step (s : State) : Host.Outcome State Fault Refusal :=
  if s.status = .running then afterExec (execution s) else .next s

/-- The state with an instruction word stored where the next fetch reads it: at the physical address of the pc, when that lies in
RAM. It stands for the load of a program from outside the machine (R471, log 5). -/
def State.withFetchWord (s : State) (nbits w : Nat) : State :=
  match translate s.pc .fetch s with
  | .error _ => s
  | .ok pa =>
    if inRam pa.toNat .word then
      { s with mem := Memory.writeBytes s.mem pa.toNat (BitVec.ofNat 64 (w % 2 ^ nbits)) 4 }
    else s

end Sys2Proof.Machine
end

