-- ==== Sys2Proof/Machine/HostAgent.lean ====
section
/-! DEFINITION. What the host agent does to the block (R14, R15, R484): the reset with its two images, and what its reads of RAM
can see. Its moves are in Machine/Poll.lean. -/

namespace Sys2Proof.Machine

/-- `new_hart(kernel_bytes, disk_bytes_or_nil)` (R470 to R472) with the parameters of R12: the reset state, the kernel image in RAM
from RAM_BASE, and the disk image. An image longer than RAM refuses (R471). -/
def newHart (cfg : Config) (kernel : List Byte) (diskImage : Option (List Byte)) : State :=
  if kernel.length ≤ ramSize then
    { State.reset with cfg := cfg, mem := Memory.load [] ramBase kernel, diskBacking := diskImage }
  else { State.reset with cfg := cfg, diskBacking := diskImage, status := .refused .kernelImageTooLarge }

/-! ## What the host sees of RAM (R104, R172) -/

/-- The RAMs a transfer to RAM passes through, one after each of its bus stores. -/
def dmaRamViews : List Byte → Word → State → List Memory
  | [], _, _ => []
  | b :: bs, addr, s =>
    match busStore addr .byte (b.setWidth 64) s with
    | none => []
    | some t => t.mem :: dmaRamViews bs (addr + 1) t

/-- The RAMs `dmaCopy` passes through. A transfer to the disk stores nothing to RAM. -/
def dmaCopyViews (s : State) : List Memory :=
  match s.diskBacking with
  | none => []
  | some img =>
    if img.length < s.disk.start + s.disk.bufLen.toNat then []
    else if s.disk.direction = 1 then []
    else dmaRamViews ((img.drop s.disk.start).take s.disk.bufLen.toNat) s.disk.bufAddr s

/-- The RAMs a disk transfer passes through (R433). -/
def dmaViews (s : State) : List Memory := dmaCopyViews { s with disk := { s.disk with notify := notifyIdle } }

/-- The RAMs a poll passes through: those of the transfer it runs, if it runs one. -/
def pollViews (s : State) : List Memory :=
  if pollBlocked (timerCompare s) || s.uart.interrupting || s.disk.notify == notifyIdle then []
  else dmaViews (timerCompare s)

/-- Every RAM the host can see during a step, oldest first: RAM before it, after the execution's bus accesses, of which at most one
stores, and after each bus store of the poll's disk transfer. The host may read any of them (R172), and reading changes none. -/
def ramViews (s : State) : List Memory :=
  if s.status = .running then
    match execution s with
    | .next u => s.mem :: u.mem :: (if u.status = .running then pollViews (letHostIn u) else [])
    | .fault _ => [s.mem]
    | .refused _ => [s.mem]
  else [s.mem]

/-- The byte at a RAM offset as the host sees it (R104), in one of the RAMs of `ramViews`. -/
def ramPointer (m : Memory) (offset : Nat) : Byte := Cells.read m (ramBase + offset)

/-- FRAMEBUFFER_BASE − RAM_BASE, which `ram_pointer` also gives (R104). -/
def framebufferOffset : Nat := framebufferBase - ramBase

/-- A pixel as the host reads it: a 32-bit little-endian word, row-major from FRAMEBUFFER_BASE (R104). -/
def framebufferPixel (c : Config) (m : Memory) (x y : Nat) : Word32 :=
  low32 (m.readBytes (framebufferBase + 4 * (y * c.fb.width + x)) 4)

end Sys2Proof.Machine
end

