-- ==== Sys2Proof/Safety.lean ====
section
/-! DEFINITION. What a good state is, what counts as a safe run, and the terms claims are stated in: which register an instruction
names as its destination, where it stores, what a trap entry leaves. -/

namespace Sys2Proof.Machine

/-! ## Good states -/

/-- The invariant of the machine: it holds at reset and every step keeps it. -/
structure State.Inv (s : State) : Prop where
  /-- The slot of x[0] holds zero (R41). -/
  x0 : s.regs.get 0 = 0
  /-- RAM is in its canonical form. -/
  memWf : Memory.wf s.mem
  /-- Only RAM addresses are listed (R75, R103). -/
  memInRam : ∀ c ∈ s.mem, ramBase ≤ c.1 ∧ c.1 < ramBase + ramSize
  /-- The CSR file is in its canonical form. -/
  csrsWf : Cells.wf s.csrs
  /-- There are 4096 CSR slots (R50). -/
  csrsIn : ∀ c ∈ s.csrs, c.1 < 4096
  /-- The raw slots of sstatus, sie and sip are never written (R62). -/
  views : s.csr csrSstatus = 0 ∧ s.csr csrSie = 0 ∧ s.csr csrSip = 0
  /-- The UART window is in its canonical form. -/
  uartWf : Cells.wf s.uart.bytes
  /-- The UART window has 256 bytes (R72). -/
  uartIn : ∀ c ∈ s.uart.bytes, c.1 < 256
  /-- The paging cache is that of satp (R48, R64). -/
  paging : s.pagingOn = (s.csr csrSatp >>> 60 == 8#64) ∧ s.ptRoot = ((s.csr csrSatp).extractLsb' 0 44).setWidth 64 <<< 12

/-- The state after a step, where the step answers one. -/
def Steps (s t : State) : Prop := step s = .next t

/-- A run of `n` steps whose every state, the last included, is running: no fatal exception, no host error, no refusal (R483). The first
state's schedule says which host moves land at the two points of each step (R171), so a claim about every such state is a claim about
every interleaving. -/
def SafeRun : Nat → State → Prop
  | 0, s => s.status = .running
  | n + 1, s => s.status = .running ∧ ∃ t, Steps s t ∧ SafeRun n t

/-! ## What an instruction names -/

/-- The integer register in the instruction's rd field, where its format has one (R43, R184). FENCE ignores its rd (R355). -/
def destReg : Instr → Option Reg
  | .lui rd _ => some rd
  | .auipc rd _ => some rd
  | .jal rd _ => some rd
  | .jalr rd _ _ => some rd
  | .beq _ _ _ => none
  | .bne _ _ _ => none
  | .blt _ _ _ => none
  | .bge _ _ _ => none
  | .bltu _ _ _ => none
  | .bgeu _ _ _ => none
  | .lb rd _ _ => some rd
  | .lh rd _ _ => some rd
  | .lw rd _ _ => some rd
  | .ld rd _ _ => some rd
  | .lbu rd _ _ => some rd
  | .lhu rd _ _ => some rd
  | .lwu rd _ _ => some rd
  | .sb _ _ _ => none
  | .sh _ _ _ => none
  | .sw _ _ _ => none
  | .sd _ _ _ => none
  | .addi rd _ _ => some rd
  | .slti rd _ _ => some rd
  | .sltiu rd _ _ => some rd
  | .xori rd _ _ => some rd
  | .ori rd _ _ => some rd
  | .andi rd _ _ => some rd
  | .slli rd _ _ => some rd
  | .srli rd _ _ => some rd
  | .srai rd _ _ => some rd
  | .add rd _ _ => some rd
  | .sub rd _ _ => some rd
  | .sll rd _ _ => some rd
  | .slt rd _ _ => some rd
  | .sltu rd _ _ => some rd
  | .xor rd _ _ => some rd
  | .srl rd _ _ => some rd
  | .sra rd _ _ => some rd
  | .or rd _ _ => some rd
  | .and rd _ _ => some rd
  | .addiw rd _ _ => some rd
  | .slliw rd _ _ => some rd
  | .srliw rd _ _ => some rd
  | .sraiw rd _ _ => some rd
  | .addw rd _ _ => some rd
  | .subw rd _ _ => some rd
  | .sllw rd _ _ => some rd
  | .srlw rd _ _ => some rd
  | .sraw rd _ _ => some rd
  | .mul rd _ _ => some rd
  | .mulh rd _ _ => some rd
  | .mulhsu rd _ _ => some rd
  | .mulhu rd _ _ => some rd
  | .div rd _ _ => some rd
  | .divu rd _ _ => some rd
  | .rem rd _ _ => some rd
  | .remu rd _ _ => some rd
  | .mulw rd _ _ => some rd
  | .divw rd _ _ => some rd
  | .divuw rd _ _ => some rd
  | .remw rd _ _ => some rd
  | .remuw rd _ _ => some rd
  | .amoswapW _ _ rd _ _ => some rd
  | .amoaddW _ _ rd _ _ => some rd
  | .amoxorW _ _ rd _ _ => some rd
  | .amoandW _ _ rd _ _ => some rd
  | .amoorW _ _ rd _ _ => some rd
  | .amominW _ _ rd _ _ => some rd
  | .amomaxW _ _ rd _ _ => some rd
  | .amominuW _ _ rd _ _ => some rd
  | .amomaxuW _ _ rd _ _ => some rd
  | .amoswapD _ _ rd _ _ => some rd
  | .amoaddD _ _ rd _ _ => some rd
  | .amoxorD _ _ rd _ _ => some rd
  | .amoandD _ _ rd _ _ => some rd
  | .amoorD _ _ rd _ _ => some rd
  | .amominD _ _ rd _ _ => some rd
  | .amomaxD _ _ rd _ _ => some rd
  | .amominuD _ _ rd _ _ => some rd
  | .amomaxuD _ _ rd _ _ => some rd
  | .fence _ _ _ _ _ => none
  | .ecall => none
  | .ebreak => none
  | .sret => none
  | .mret => none
  | .sfenceVma _ _ => none
  | .csrrw rd _ _ => some rd
  | .csrrs rd _ _ => some rd
  | .csrrc rd _ _ => some rd
  | .csrrwi rd _ _ => some rd
  | .csrrsi rd _ _ => some rd
  | .csrrci rd _ _ => some rd

/-- The bytes an instruction stores to in a state: the virtual address of the first, with the same address the meaning uses
(R218, R300), and the width. -/
def storeTarget (s : State) : Instr → Option (Word × Width)
  | .lui _ _ => none
  | .auipc _ _ => none
  | .jal _ _ => none
  | .jalr _ _ _ => none
  | .beq _ _ _ => none
  | .bne _ _ _ => none
  | .blt _ _ _ => none
  | .bge _ _ _ => none
  | .bltu _ _ _ => none
  | .bgeu _ _ _ => none
  | .lb _ _ _ => none
  | .lh _ _ _ => none
  | .lw _ _ _ => none
  | .ld _ _ _ => none
  | .lbu _ _ _ => none
  | .lhu _ _ _ => none
  | .lwu _ _ _ => none
  | .sb rs1 _ imm => some (effectiveAddress s rs1 imm, .byte)
  | .sh rs1 _ imm => some (effectiveAddress s rs1 imm, .half)
  | .sw rs1 _ imm => some (effectiveAddress s rs1 imm, .word)
  | .sd rs1 _ imm => some (effectiveAddress s rs1 imm, .double)
  | .addi _ _ _ => none
  | .slti _ _ _ => none
  | .sltiu _ _ _ => none
  | .xori _ _ _ => none
  | .ori _ _ _ => none
  | .andi _ _ _ => none
  | .slli _ _ _ => none
  | .srli _ _ _ => none
  | .srai _ _ _ => none
  | .add _ _ _ => none
  | .sub _ _ _ => none
  | .sll _ _ _ => none
  | .slt _ _ _ => none
  | .sltu _ _ _ => none
  | .xor _ _ _ => none
  | .srl _ _ _ => none
  | .sra _ _ _ => none
  | .or _ _ _ => none
  | .and _ _ _ => none
  | .addiw _ _ _ => none
  | .slliw _ _ _ => none
  | .srliw _ _ _ => none
  | .sraiw _ _ _ => none
  | .addw _ _ _ => none
  | .subw _ _ _ => none
  | .sllw _ _ _ => none
  | .srlw _ _ _ => none
  | .sraw _ _ _ => none
  | .mul _ _ _ => none
  | .mulh _ _ _ => none
  | .mulhsu _ _ _ => none
  | .mulhu _ _ _ => none
  | .div _ _ _ => none
  | .divu _ _ _ => none
  | .rem _ _ _ => none
  | .remu _ _ _ => none
  | .mulw _ _ _ => none
  | .divw _ _ _ => none
  | .divuw _ _ _ => none
  | .remw _ _ _ => none
  | .remuw _ _ _ => none
  | .amoswapW _ _ _ rs1 _ => some (s.reg rs1, .word)
  | .amoaddW _ _ _ rs1 _ => some (s.reg rs1, .word)
  | .amoxorW _ _ _ rs1 _ => some (s.reg rs1, .word)
  | .amoandW _ _ _ rs1 _ => some (s.reg rs1, .word)
  | .amoorW _ _ _ rs1 _ => some (s.reg rs1, .word)
  | .amominW _ _ _ rs1 _ => some (s.reg rs1, .word)
  | .amomaxW _ _ _ rs1 _ => some (s.reg rs1, .word)
  | .amominuW _ _ _ rs1 _ => some (s.reg rs1, .word)
  | .amomaxuW _ _ _ rs1 _ => some (s.reg rs1, .word)
  | .amoswapD _ _ _ rs1 _ => some (s.reg rs1, .double)
  | .amoaddD _ _ _ rs1 _ => some (s.reg rs1, .double)
  | .amoxorD _ _ _ rs1 _ => some (s.reg rs1, .double)
  | .amoandD _ _ _ rs1 _ => some (s.reg rs1, .double)
  | .amoorD _ _ _ rs1 _ => some (s.reg rs1, .double)
  | .amominD _ _ _ rs1 _ => some (s.reg rs1, .double)
  | .amomaxD _ _ _ rs1 _ => some (s.reg rs1, .double)
  | .amominuD _ _ _ rs1 _ => some (s.reg rs1, .double)
  | .amomaxuD _ _ _ rs1 _ => some (s.reg rs1, .double)
  | .fence _ _ _ _ _ => none
  | .ecall => none
  | .ebreak => none
  | .sret => none
  | .mret => none
  | .sfenceVma _ _ => none
  | .csrrw _ _ _ => none
  | .csrrs _ _ _ => none
  | .csrrc _ _ _ => none
  | .csrrwi _ _ _ => none
  | .csrrsi _ _ _ => none
  | .csrrci _ _ _ => none

/-- The address register and the width of an AMO (R300). -/
def amoOperand : Instr → Option (Reg × Width)
  | .lui _ _ => none
  | .auipc _ _ => none
  | .jal _ _ => none
  | .jalr _ _ _ => none
  | .beq _ _ _ => none
  | .bne _ _ _ => none
  | .blt _ _ _ => none
  | .bge _ _ _ => none
  | .bltu _ _ _ => none
  | .bgeu _ _ _ => none
  | .lb _ _ _ => none
  | .lh _ _ _ => none
  | .lw _ _ _ => none
  | .ld _ _ _ => none
  | .lbu _ _ _ => none
  | .lhu _ _ _ => none
  | .lwu _ _ _ => none
  | .sb _ _ _ => none
  | .sh _ _ _ => none
  | .sw _ _ _ => none
  | .sd _ _ _ => none
  | .addi _ _ _ => none
  | .slti _ _ _ => none
  | .sltiu _ _ _ => none
  | .xori _ _ _ => none
  | .ori _ _ _ => none
  | .andi _ _ _ => none
  | .slli _ _ _ => none
  | .srli _ _ _ => none
  | .srai _ _ _ => none
  | .add _ _ _ => none
  | .sub _ _ _ => none
  | .sll _ _ _ => none
  | .slt _ _ _ => none
  | .sltu _ _ _ => none
  | .xor _ _ _ => none
  | .srl _ _ _ => none
  | .sra _ _ _ => none
  | .or _ _ _ => none
  | .and _ _ _ => none
  | .addiw _ _ _ => none
  | .slliw _ _ _ => none
  | .srliw _ _ _ => none
  | .sraiw _ _ _ => none
  | .addw _ _ _ => none
  | .subw _ _ _ => none
  | .sllw _ _ _ => none
  | .srlw _ _ _ => none
  | .sraw _ _ _ => none
  | .mul _ _ _ => none
  | .mulh _ _ _ => none
  | .mulhsu _ _ _ => none
  | .mulhu _ _ _ => none
  | .div _ _ _ => none
  | .divu _ _ _ => none
  | .rem _ _ _ => none
  | .remu _ _ _ => none
  | .mulw _ _ _ => none
  | .divw _ _ _ => none
  | .divuw _ _ _ => none
  | .remw _ _ _ => none
  | .remuw _ _ _ => none
  | .amoswapW _ _ _ rs1 _ => some (rs1, .word)
  | .amoaddW _ _ _ rs1 _ => some (rs1, .word)
  | .amoxorW _ _ _ rs1 _ => some (rs1, .word)
  | .amoandW _ _ _ rs1 _ => some (rs1, .word)
  | .amoorW _ _ _ rs1 _ => some (rs1, .word)
  | .amominW _ _ _ rs1 _ => some (rs1, .word)
  | .amomaxW _ _ _ rs1 _ => some (rs1, .word)
  | .amominuW _ _ _ rs1 _ => some (rs1, .word)
  | .amomaxuW _ _ _ rs1 _ => some (rs1, .word)
  | .amoswapD _ _ _ rs1 _ => some (rs1, .double)
  | .amoaddD _ _ _ rs1 _ => some (rs1, .double)
  | .amoxorD _ _ _ rs1 _ => some (rs1, .double)
  | .amoandD _ _ _ rs1 _ => some (rs1, .double)
  | .amoorD _ _ _ rs1 _ => some (rs1, .double)
  | .amominD _ _ _ rs1 _ => some (rs1, .double)
  | .amomaxD _ _ _ rs1 _ => some (rs1, .double)
  | .amominuD _ _ _ rs1 _ => some (rs1, .double)
  | .amomaxuD _ _ _ rs1 _ => some (rs1, .double)
  | .fence _ _ _ _ _ => none
  | .ecall => none
  | .ebreak => none
  | .sret => none
  | .mret => none
  | .sfenceVma _ _ => none
  | .csrrw _ _ _ => none
  | .csrrs _ _ _ => none
  | .csrrc _ _ _ => none
  | .csrrwi _ _ _ => none
  | .csrrsi _ _ _ => none
  | .csrrci _ _ _ => none

/-- The CSR a CSR instruction names. -/
def csrOperand : Instr → Option CsrNum
  | .lui _ _ => none
  | .auipc _ _ => none
  | .jal _ _ => none
  | .jalr _ _ _ => none
  | .beq _ _ _ => none
  | .bne _ _ _ => none
  | .blt _ _ _ => none
  | .bge _ _ _ => none
  | .bltu _ _ _ => none
  | .bgeu _ _ _ => none
  | .lb _ _ _ => none
  | .lh _ _ _ => none
  | .lw _ _ _ => none
  | .ld _ _ _ => none
  | .lbu _ _ _ => none
  | .lhu _ _ _ => none
  | .lwu _ _ _ => none
  | .sb _ _ _ => none
  | .sh _ _ _ => none
  | .sw _ _ _ => none
  | .sd _ _ _ => none
  | .addi _ _ _ => none
  | .slti _ _ _ => none
  | .sltiu _ _ _ => none
  | .xori _ _ _ => none
  | .ori _ _ _ => none
  | .andi _ _ _ => none
  | .slli _ _ _ => none
  | .srli _ _ _ => none
  | .srai _ _ _ => none
  | .add _ _ _ => none
  | .sub _ _ _ => none
  | .sll _ _ _ => none
  | .slt _ _ _ => none
  | .sltu _ _ _ => none
  | .xor _ _ _ => none
  | .srl _ _ _ => none
  | .sra _ _ _ => none
  | .or _ _ _ => none
  | .and _ _ _ => none
  | .addiw _ _ _ => none
  | .slliw _ _ _ => none
  | .srliw _ _ _ => none
  | .sraiw _ _ _ => none
  | .addw _ _ _ => none
  | .subw _ _ _ => none
  | .sllw _ _ _ => none
  | .srlw _ _ _ => none
  | .sraw _ _ _ => none
  | .mul _ _ _ => none
  | .mulh _ _ _ => none
  | .mulhsu _ _ _ => none
  | .mulhu _ _ _ => none
  | .div _ _ _ => none
  | .divu _ _ _ => none
  | .rem _ _ _ => none
  | .remu _ _ _ => none
  | .mulw _ _ _ => none
  | .divw _ _ _ => none
  | .divuw _ _ _ => none
  | .remw _ _ _ => none
  | .remuw _ _ _ => none
  | .amoswapW _ _ _ _ _ => none
  | .amoaddW _ _ _ _ _ => none
  | .amoxorW _ _ _ _ _ => none
  | .amoandW _ _ _ _ _ => none
  | .amoorW _ _ _ _ _ => none
  | .amominW _ _ _ _ _ => none
  | .amomaxW _ _ _ _ _ => none
  | .amominuW _ _ _ _ _ => none
  | .amomaxuW _ _ _ _ _ => none
  | .amoswapD _ _ _ _ _ => none
  | .amoaddD _ _ _ _ _ => none
  | .amoxorD _ _ _ _ _ => none
  | .amoandD _ _ _ _ _ => none
  | .amoorD _ _ _ _ _ => none
  | .amominD _ _ _ _ _ => none
  | .amomaxD _ _ _ _ _ => none
  | .amominuD _ _ _ _ _ => none
  | .amomaxuD _ _ _ _ _ => none
  | .fence _ _ _ _ _ => none
  | .ecall => none
  | .ebreak => none
  | .sret => none
  | .mret => none
  | .sfenceVma _ _ => none
  | .csrrw _ csr _ => some csr
  | .csrrs _ csr _ => some csr
  | .csrrc _ csr _ => some csr
  | .csrrwi _ csr _ => some csr
  | .csrrsi _ csr _ => some csr
  | .csrrci _ csr _ => some csr

/-- The raw slot a write of a CSR number goes to (R61, R62). -/
def csrSlot (a : CsrNum) : CsrNum :=
  if a = csrSstatus then csrMstatus else if a = csrSie then csrMie else if a = csrSip then csrMip else a

/-! ## What a trap entry leaves (R440 to R444), in the rules' own terms -/

/-- The trap is delegated to S-mode (R441). -/
def GoesToS (cause : Word) (interrupt : Bool) (s : State) : Prop :=
  s.mode ≠ .m ∧
    (if interrupt = true ∧ s.cfg.intrDelegCsr = .mideleg then s.csr csrMideleg else s.csr csrMedeleg).getLsbD
      (cause.toNat % 64) = true

/-- The target under a vector register (R442). -/
def VectorTarget (vec cause : Word) (interrupt : Bool) : Word :=
  if vec.getLsbD 0 = true ∧ interrupt = true then (vec &&& ~~~1#64) + 4 * cause else vec &&& ~~~1#64

/-- mstatus after an S-trap from mode `prev`, bit by bit (R443). -/
def STrapStatus (prev : Mode) (old new : Word) : Prop :=
  ∀ n < 64, new.getLsbD n =
    if n = 1 then false else if n = 5 then old.getLsbD 1 else if n = 8 then decide (prev ≠ .u) else old.getLsbD n

/-- mstatus after an M-trap, bit by bit (R444). -/
def MTrapStatus (old new : Word) : Prop :=
  ∀ n < 64, new.getLsbD n =
    if n = 3 then false else if n = 7 then old.getLsbD 3 else if n = 11 ∨ n = 12 then false else old.getLsbD n

/-- `u` is `s` after entry to S-mode. -/
structure SEntry (cause : Word) (interrupt : Bool) (epc : Word) (s u : State) : Prop where
  rest : u = { s with pc := u.pc, mode := .s, csrs := u.csrs }
  pc : u.pc = VectorTarget (s.csr csrStvec) cause interrupt
  sepc : u.csr csrSepc = epc &&& ~~~1#64
  scause : u.csr csrScause = cause
  stval : u.csr csrStval = 0
  mstatus : STrapStatus s.mode (s.csr csrMstatus) (u.csr csrMstatus)
  others : ∀ a, a ∉ [csrSepc, csrScause, csrStval, csrMstatus] → u.csr a = s.csr a

/-- `u` is `s` after entry to M-mode. -/
structure MEntry (cause : Word) (interrupt : Bool) (epc : Word) (s u : State) : Prop where
  rest : u = { s with pc := u.pc, mode := .m, csrs := u.csrs }
  pc : u.pc = VectorTarget (s.csr csrMtvec) cause interrupt
  mepc : u.csr csrMepc = epc &&& ~~~1#64
  mcause : u.csr csrMcause = cause
  mtval : u.csr csrMtval = 0
  mstatus : MTrapStatus (s.csr csrMstatus) (u.csr csrMstatus)
  others : ∀ a, a ∉ [csrMepc, csrMcause, csrMtval, csrMstatus] → u.csr a = s.csr a

/-- `u` is `s` after a trap was taken (R440). -/
def TrapTaken (cause : Word) (interrupt : Bool) (epc : Word) (s u : State) : Prop :=
  (GoesToS cause interrupt s → SEntry cause interrupt epc s u) ∧
    (¬ GoesToS cause interrupt s → MEntry cause interrupt epc s u)

/-! ## The host's terms (R126, R171, R172) -/

/-- The bytes among a point's host moves, in order. -/
def bytesOf (ms : List HostMove) : List Byte :=
  ms.filterMap fun
    | .uartByte b => some b
    | .scancode _ => none
    | .ramPointer => none

/-- The scancodes among a point's host moves, in order. -/
def scancodesOf (ms : List HostMove) : List Word32 :=
  ms.filterMap fun
    | .uartByte _ => none
    | .scancode v => some v
    | .ramPointer => none

/-! ## The states of a disk transfer (R433) -/

/-- Byte `k` of a transfer to RAM: image byte `start + k` stored through the bus at `addr + k`. -/
def transferStore (img : List Byte) (start : Nat) (addr : Word) (k : Nat) (s : State) : Option State :=
  busStore (addr + BitVec.ofNat 64 k) .byte ((img.getD (start + k) 0).setWidth 64) s

/-- Byte `k` of a transfer to the disk: the byte at `addr + k` loaded through the bus into the image at `start + k`. -/
def transferLoad (start : Nat) (addr : Word) (k : Nat) (s : State) : Option State :=
  (busLoad (addr + BitVec.ofNat 64 k) .byte s).map (fun r => r.2.setBacking (start + k) (r.1.setWidth 8))

/-- The first `m` bytes of a transfer that starts in `s` succeed, and `r k` is the state after the first `k` of them. -/
def Passes (byte : Nat → State → Option State) (s : State) (r : Nat → State) (m : Nat) : Prop :=
  r 0 = s ∧ ∀ k < m, byte k (r k) = some (r (k + 1))

/-! ## The shapes of claims -/

/-- `t` is `s` with x[rd] = v and nothing else changed; x[0] stays zero (R41). -/
def WritesReg (rd : Reg) (v : Word) (s t : State) : Prop :=
  t = { s with regs := t.regs } ∧ ∀ q, t.reg q = if q = 0 then 0 else if q = rd then v else s.reg q

/-- The instruction completes, writes v to x[rd] and changes nothing else; the pc is already past it (R18). -/
def Computes (i : Instr) (rd : Reg) (v : Word) (s : State) : Prop :=
  ∃ t, exec i s = .next t ∧ WritesReg rd v s t

/-- A load of width `w` (R210): the bus's value extended to rd over the state the bus leaves; a failed walk raises its exception
(of a load), a failed bus access LoadAccessFault. -/
def LoadsAs (i : Instr) (w : Width) (ext : Word → Word) (rd rs1 : Reg) (imm : BitVec 12) (s : State) : Prop :=
  (∀ pa v t, translate (s.reg rs1 + imm.signExtend 64) .load s = .ok pa → busLoad pa w s = some (v, t) →
    ∃ u, exec i s = .next u ∧ WritesReg rd (ext v) t u) ∧
  (∀ pa, translate (s.reg rs1 + imm.signExtend 64) .load s = .ok pa → busLoad pa w s = none →
    exec i s = .next (raise .loadAccessFault s)) ∧
  (∀ e, translate (s.reg rs1 + imm.signExtend 64) .load s = .error e →
    (e = .loadAccessFault ∨ e = .loadPageFault) ∧ exec i s = .next (raise e s))

/-- A store of width `w` (R218): in RAM the low bytes of x[rs2] lie little-endian at the translated address, every other byte of RAM
and all else is unchanged; on a device it is the bus's store; a failed walk raises its exception, a failed bus access
StoreAmoAccessFault. -/
def StoresAs (i : Instr) (w : Width) (rs1 rs2 : Reg) (imm : BitVec 12) (s : State) : Prop :=
  (∀ pa, translate (effectiveAddress s rs1 imm) .store s = .ok pa → inRam pa.toNat w = true →
    ∃ t, exec i s = .next t ∧ t = { s with mem := t.mem } ∧
      (∀ k < w.bytes, Cells.read t.mem (pa.toNat + k) = BitVec.ofNat 8 ((s.reg rs2).toNat / 256 ^ k)) ∧
      ∀ a, (a < pa.toNat ∨ pa.toNat + w.bytes ≤ a) → Cells.read t.mem a = Cells.read s.mem a) ∧
  (∀ pa t, translate (effectiveAddress s rs1 imm) .store s = .ok pa → busStore pa w (s.reg rs2) s = some t →
    exec i s = .next t) ∧
  (∀ pa, translate (effectiveAddress s rs1 imm) .store s = .ok pa → busStore pa w (s.reg rs2) s = none →
    exec i s = .next (raise .storeAmoAccessFault s)) ∧
  (∀ e, translate (effectiveAddress s rs1 imm) .store s = .error e →
    (e = .storeAmoAccessFault ∨ e = .storeAmoPageFault) ∧ exec i s = .next (raise e s))

/-- An AMO of width `w` (R300): where the address is aligned and the read half succeeds, the write half does too, the old value goes
to rd and nothing else changes; otherwise the first failing part raises its exception (R302). -/
def AmoAs (i : Instr) (w : Width) (new ret : Word → Word) (rd rs1 : Reg) (s : State) : Prop :=
  ((s.reg rs1).toNat % w.bytes ≠ 0 → exec i s = .next (raise .loadAddressMisaligned s)) ∧
  ((s.reg rs1).toNat % w.bytes = 0 →
    (∀ pa a t, translate (s.reg rs1) .load s = .ok pa → busLoad pa w s = some (a, t) →
      ∃ u v, busStore pa w (new a) t = some u ∧ exec i s = .next v ∧ WritesReg rd (ret a) u v) ∧
    (∀ pa, translate (s.reg rs1) .load s = .ok pa → busLoad pa w s = none →
      exec i s = .next (raise .loadAccessFault s)) ∧
    (∀ e, translate (s.reg rs1) .load s = .error e →
      (e = .loadAccessFault ∨ e = .loadPageFault) ∧ exec i s = .next (raise e s)))

end Sys2Proof.Machine
end

