-- ==== Sys2Proof/Certificates/Slice0/Obligations.lean ====
section
/-! DEFINITION. The statements for the provers. Each docstring names the rules it formalises and says where a clause is the spec's own
decision or inference, or the model's own choice (notes/assumptions). -/

open Sys2Proof Sys2Proof.Machine

/-! ## Decoding and encoding (30_encoding.md) -/

/-- Decoding the bytes of any well-formed instruction gives it back, with every operand, and leaves the bytes after it. -/
def Obligations.DecodeOfEncodeIsTheInstruction : Prop :=
  ∀ (i : Instr) (rest : List Byte), i.wf = true → decode (encode i ++ rest) = .ok (i, rest)

/-- A word that decodes is the encoding of what it decodes to, which is well-formed: no bit of an instruction word is dropped. -/
def Obligations.EncodeOfDecodeIsTheWord : Prop :=
  ∀ (w : Word32) (i : Instr), decodeWord w = .ok i → i.wf = true ∧ encodeWord i = w

/-- The table has 92 rows and no word fits two of them (R187; the spec's decision D14 is how strictly fields match). -/
def Obligations.OpcodeRowsAreDisjoint : Prop :=
  rows.length = 92 ∧ rows.Pairwise (fun a b => ∀ w, ¬ (a.fits w = true ∧ b.fits w = true))

/-- The three words the source prints (R190) and words written out from the formats decode as they should; the words of R195 to R198
decode to nothing. -/
def Obligations.SpecWordsDecode : Prop :=
  decodeWord 0x02A00093#32 = .ok (.addi 1 0 42#12) ∧
  decodeWord 0xFFFFF2B7#32 = .ok (.lui 5 0xFFFFF#20) ∧
  decodeWord 0x00001317#32 = .ok (.auipc 6 1#20) ∧
  decodeWord 0x0020A1AF#32 = .ok (.amoaddW false false 3 1 2) ∧
  decodeWord 0xFE209EE3#32 = .ok (.bne 1 2 0x1FFC#13) ∧
  decodeWord 0xFE113C23#32 = .ok (.sd 2 1 0xFF8#12) ∧
  decodeWord 0x340292F3#32 = .ok (.csrrw 5 0x340#12 5) ∧
  decodeWord 0x43F0D113#32 = .ok (.srai 2 1 63#6) ∧
  ∀ w ∈ [0x00000000#32, 0xFFFFFFFF#32, 0x10500073#32, 0x1000A1AF#32, 0x0000100F#32, 0x00004501#32, 0x0200909B#32],
    decodeWord w = .error (.unknownEncoding w)

/-! ## The step (60_exceptions.md, section 1) -/

/-- When a running block's fetch gives a word that decodes, the step is exec of that instruction with the pc advanced by 4, then, if
the block still runs, the poll between the step's two points for host moves. And the fetch, with paging off and an aligned pc in RAM, is of the four bytes at the
pc. (R400, R401, R403; D35. The points between which the poll stands are R171; the schedule of their moves is the model's, log 7.) -/
def Obligations.StepRunsTheDecodedInstruction : Prop :=
  (∀ s w t i, s.status = .running → fetch s = .ok (w, t) → decodeWord w = .ok i →
    step s =
      match exec i { t with pc := s.pc + 4 } with
      | .next u => .next (if u.status = .running then letHostIn (poll (letHostIn u)) else u)
      | .fault r => .fault r
      | .refused r => .refused r) ∧
  (∀ s, s.pagingOn = false → s.pc.toNat % 4 = 0 → inRam s.pc.toNat .word = true →
    fetch s = .ok (wordOfBytes (Cells.read s.mem s.pc.toNat) (Cells.read s.mem (s.pc.toNat + 1))
      (Cells.read s.mem (s.pc.toNat + 2)) (Cells.read s.mem (s.pc.toNat + 3)), s))

/-- R387: a fetched word that matches no row takes IllegalInstruction, code 2, not fatal, with the word's own address as its pc. The entry
starts from the state the fetch left: a scancode that a fetch from the keyboard window took (R112, D48) stays taken, which is the model's
reading of R413 (log 20). The end of the step after it is R400 (D35) with the two points of R171, whose schedule is the model's (log 7). -/
def Obligations.UnknownWordTakesIllegalInstruction : Prop :=
  ∀ s w t, s.status = .running → fetch s = .ok (w, t) → (∀ r ∈ rows, w &&& r.mask ≠ r.pattern) →
    ∃ u, TrapTaken 2 false s.pc { t with pc := s.pc + 4 } u ∧ u.status = .running ∧
      step s = .next (letHostIn (poll (letHostIn u)))

/-- R402, R403, R412, R416: a fetch that fails takes its exception at the fetch address. Misalignment comes first; misalignment and the
access fault halt the block, a page fault does not and the step ends as every step does: R400 (D35) with the two points of R171, whose
schedule is the model's (log 7). An entry the walk cannot read is an access fault (R158, D38). (D3 is the exception's pc, D34 the halt.) -/
def Obligations.FetchFaultsAreTaken : Prop :=
  ∀ s, s.status = .running →
    (s.pc.toNat % 4 ≠ 0 → ∃ u, TrapTaken 0 false s.pc s u ∧
      step s = .next { u with status := .halted .instructionAddressMisaligned }) ∧
    (s.pc.toNat % 4 = 0 → ∀ e, translate s.pc .fetch s = .error e →
      (e = .instructionAccessFault ∧ ∃ u, TrapTaken 1 false s.pc s u ∧
        step s = .next { u with status := .halted .instructionAccessFault }) ∨
      (e = .instructionPageFault ∧ ∃ u, TrapTaken 12 false s.pc s u ∧
        step s = .next (letHostIn (poll (letHostIn u))))) ∧
    (s.pc.toNat % 4 = 0 → ∀ pa, translate s.pc .fetch s = .ok pa → busLoad pa .word s = none →
      ∃ u, TrapTaken 1 false s.pc s u ∧ step s = .next { u with status := .halted .instructionAccessFault })

/-- Every instruction in every state, and every step, answers a next state; a block that does not run is left as it is (R76, R462: a
step always makes progress or the block has stopped), and the parameters of R12 stay. That stops are states is the model's reading, log 8;
that the parameters are state is log 1. -/
def Obligations.EveryStepAnswersANextState : Prop :=
  (∀ i s, ∃ t, exec i s = .next t) ∧ (∀ s, ∃ t, step s = .next t ∧ t.cfg = s.cfg) ∧
  ∀ s, s.status ≠ .running → step s = .next s

/-- The invariant is kept by every step, from every state that has it. -/
def Obligations.StepKeepsTheInvariant : Prop := ∀ s t, s.Inv → step s = .next t → t.Inv

/-- The reset state has the invariant. -/
def Obligations.ResetMeetsTheInvariant : Prop := State.reset.Inv

/-- The reset values of R85 and R470. The zero CSRs and device registers are the spec's decisions D6, D27, D30, D37; the empty kernel
and absent disk image are the model's, log 5. -/
def Obligations.ResetValues : Prop :=
  State.reset.pc = 0x80000000#64 ∧ State.reset.mode = .m ∧ State.reset.reg 2 = 0x80800000#64 ∧
  (∀ r, r ≠ 2 → State.reset.reg r = 0) ∧ (∀ a, State.reset.csr a = 0) ∧
  State.reset.pagingOn = false ∧ State.reset.ptRoot = 0 ∧ (∀ a, Cells.read State.reset.mem a = 0) ∧
  State.reset.clint.mtime = 0 ∧ State.reset.clint.mtimecmp = 0 ∧
  State.reset.plic.pending = 0 ∧ State.reset.plic.senable = 0 ∧ State.reset.plic.spriority = 0 ∧ State.reset.plic.sclaim = 0 ∧
  (∀ k, State.reset.uartByte k = if k = 5 then 0x20#8 else 0) ∧ State.reset.uart.interrupting = false ∧
  (∀ r, State.reset.disk.get r = match r with
    | .magic => 0x666F7864#32
    | .version => 1
    | .notify => 0xFFFFFFFF#32
    | _ => 0) ∧
  State.reset.diskBacking = none ∧ State.reset.kbdQueue = [] ∧ State.reset.uartOut = [] ∧ State.reset.status = .running

/-- R471, R472: the kernel image lies in RAM from RAM_BASE and every other byte is 0 (D37); the disk image is the backing array; an image
longer than RAM refuses (D45). -/
def Obligations.NewHartLoadsItsImages : Prop :=
  ∀ (cfg : Config) (kernel : List Byte) (img : Option (List Byte)),
    (kernel.length ≤ 0x800000 →
      newHart cfg kernel img =
        { State.reset with cfg := cfg, mem := (newHart cfg kernel img).mem, diskBacking := img } ∧
      ∀ a, Cells.read (newHart cfg kernel img).mem a =
        if 0x80000000 ≤ a then kernel.getD (a - 0x80000000) 0 else 0) ∧
    (0x800000 < kernel.length → (newHart cfg kernel img).status = .refused .kernelImageTooLarge)

/-- R415, R416, R386: a running block still runs after an instruction unless the instruction took one of the fatal exceptions it can take,
or was MRET with MPP = 2. (D34 is the fatal set, D9 the refusal.) -/
def Obligations.InstructionsStopOnlyForNamedReasons : Prop :=
  ∀ i s t, s.status = .running → exec i s = .next t →
    t.status = .running ∨ t.status = .halted .loadAccessFault ∨ t.status = .halted .storeAmoAccessFault ∨
    (i = .mret ∧ mpp (s.csr csrMstatus) = 2 ∧ t.status = .refused .mretReservedMode)

/-! ## Traps and returns (60_exceptions.md, 48_system.md) -/

/-- R440 to R444: taking any trap leaves exactly what the rules say, and (R431's inference) the poll after it is blocked. (D3, D4 and D44
are decisions inside R440 to R442.) -/
def Obligations.TrapEntryFollowsTheRules : Prop :=
  ∀ t epc s, TrapTaken t.cause t.isInterrupt epc s (takeTrap t epc s) ∧ pollBlocked (takeTrap t epc s) = true

/-- R443 and R444: what a trap does to mstatus, whichever mode it goes to. -/
def Obligations.TrapEntryStatus : Prop :=
  ∀ t epc s,
    ((takeTrap t epc s).mode = .s → STrapStatus s.mode (s.csr csrMstatus) ((takeTrap t epc s).csr csrMstatus)) ∧
    ((takeTrap t epc s).mode = .m → MTrapStatus (s.csr csrMstatus) ((takeTrap t epc s).csr csrMstatus))

/-- R410, R415, R416, R440: an exception raised by an instruction is taken at the instruction's own address with its code, and then the
fatal ones halt the block. (D34 is the fatal set.) -/
def Obligations.RaiseTakesTheException : Prop :=
  ∀ e s, ∃ u,
    TrapTaken (match e with
      | .instructionAddressMisaligned => 0
      | .instructionAccessFault => 1
      | .illegalInstruction => 2
      | .breakpoint => 3
      | .loadAddressMisaligned => 4
      | .loadAccessFault => 5
      | .storeAmoAddressMisaligned => 6
      | .storeAmoAccessFault => 7
      | .envCallFromUMode => 8
      | .envCallFromSMode => 9
      | .envCallFromMMode => 11
      | .instructionPageFault => 12
      | .loadPageFault => 13
      | .storeAmoPageFault => 15) false (s.pc - 4) s u ∧
    raise e s =
      if e ∈ [.instructionAddressMisaligned, .instructionAccessFault, .loadAccessFault, .storeAmoAddressMisaligned,
        .storeAmoAccessFault] then { u with status := .halted e } else u

/-- R447: SRET undoes a delegated trap, pc (bit 0 apart), mode and SIE; MRET undoes any other but always goes to U-mode (C2). -/
def Obligations.ReturnUndoesTheTrap : Prop :=
  ∀ t epc s,
    (GoesToS t.cause t.isInterrupt s → ∃ u, exec .sret (takeTrap t epc s) = .next u ∧
      u.pc = epc &&& ~~~1#64 ∧ u.mode = s.mode ∧ (u.csr csrMstatus).getLsbD 1 = (s.csr csrMstatus).getLsbD 1) ∧
    (¬ GoesToS t.cause t.isInterrupt s → ∃ u, exec .mret (takeTrap t epc s) = .next u ∧
      u.pc = epc &&& ~~~1#64 ∧ u.mode = .u ∧ (u.csr csrMstatus).getLsbD 3 = (s.csr csrMstatus).getLsbD 3)

/-- R380, R381: ECALL takes the environment call of its mode, EBREAK Breakpoint, each at its own address and without stopping the block. -/
def Obligations.EcallAndEbreakTakeTheirException : Prop :=
  (∀ s, ∃ u, exec .ecall s = .next u ∧
    TrapTaken (match s.mode with | .u => 8 | .s => 9 | .m => 11) false (s.pc - 4) s u) ∧
  (∀ s, ∃ u, exec .ebreak s = .next u ∧ TrapTaken 3 false (s.pc - 4) s u)

/-- R384: SRET, in every mode (D8), SPP unchanged (D10). -/
def Obligations.SretReturns : Prop :=
  ∀ s, ∃ u, exec .sret s = .next u ∧ u = { s with pc := u.pc, mode := u.mode, csrs := u.csrs } ∧
    u.pc = s.csr csrSepc ∧ u.mode = (if (s.csr csrMstatus).getLsbD 8 = true then .s else .u) ∧
    (∀ n < 64, (u.csr csrMstatus).getLsbD n =
      if n = 1 then (s.csr csrMstatus).getLsbD 5 else if n = 5 then true else (s.csr csrMstatus).getLsbD n) ∧
    ∀ a, a ≠ csrMstatus → u.csr a = s.csr a

/-- R385: MRET, in every mode (R383, D8). With MPP = 2 it refuses (R386, D9; R23: nothing more is claimed of that state), and that the refusal
is a next state is the model's reading, log 8; otherwise it returns to the mode MPP named. -/
def Obligations.MretReturns : Prop :=
  ∀ s,
    ((s.csr csrMstatus).extractLsb' 11 2 = 2#2 →
      ∃ u, exec .mret s = .next u ∧ u.status = .refused .mretReservedMode) ∧
    ((s.csr csrMstatus).extractLsb' 11 2 ≠ 2#2 →
      ∃ u, exec .mret s = .next u ∧ u = { s with pc := u.pc, mode := u.mode, csrs := u.csrs } ∧
        u.pc = s.csr csrMepc ∧
        ((s.csr csrMstatus).extractLsb' 11 2 = 0#2 → u.mode = .u) ∧
        ((s.csr csrMstatus).extractLsb' 11 2 = 1#2 → u.mode = .s) ∧
        ((s.csr csrMstatus).extractLsb' 11 2 = 3#2 → u.mode = .m) ∧
        (∀ n < 64, (u.csr csrMstatus).getLsbD n =
          if n = 3 then (s.csr csrMstatus).getLsbD 7 else if n = 7 then true
          else if n = 11 ∨ n = 12 then false else (s.csr csrMstatus).getLsbD n) ∧
        ∀ a, a ≠ csrMstatus → u.csr a = s.csr a)

/-! ## CSRs (10_state.md section 7, 47_csr.md) -/

/-- R60 to R63, bit by bit: what the views read and what a write through them changes. (D5 is the masks.) -/
def Obligations.ViewsShowAndChangeTheirBits : Prop :=
  ∀ (s : State) (v : Word) (n : Nat), n < 64 →
    ((csrRead s 0x100#12).getLsbD n =
      (decide (n ∈ [1, 5, 6, 8, 9, 10, 13, 14, 15, 16, 18, 19, 32, 33, 63]) && (s.csr csrMstatus).getLsbD n)) ∧
    ((csrRead s 0x104#12).getLsbD n =
      (decide (n ∈ [1, 5, 9]) && (s.csr csrMideleg).getLsbD n && (s.csr csrMie).getLsbD n)) ∧
    ((csrRead s 0x144#12).getLsbD n =
      (decide (n ∈ [1, 5, 9]) && (s.csr csrMideleg).getLsbD n && (s.csr csrMip).getLsbD n)) ∧
    (((csrWrite s 0x100#12 v).csr csrMstatus).getLsbD n =
      if n ∈ [1, 5, 6, 8, 9, 10, 13, 14, 15, 16, 18, 19, 32, 33, 63] then v.getLsbD n else (s.csr csrMstatus).getLsbD n) ∧
    (((csrWrite s 0x104#12 v).csr csrMie).getLsbD n =
      if n ∈ [1, 5, 9] ∧ (s.csr csrMideleg).getLsbD n = true then v.getLsbD n else (s.csr csrMie).getLsbD n) ∧
    (((csrWrite s 0x144#12 v).csr csrMip).getLsbD n =
      if n = 1 ∧ (s.csr csrMideleg).getLsbD n = true then v.getLsbD n else (s.csr csrMip).getLsbD n)

/-- R66: a CSR write changes its slot, for a view the masked bits of the underlying slot, and nothing else, but that a write of satp also
refreshes the paging cache (R64). The masks of the views are R61 to R63 (the spec's decision D5); that a plain slot then holds the whole value
written is R50 and R61 (D7: no write is legalised). D5 and D7 are taken as written, log 18. -/
def Obligations.CsrWriteTouchesOneSlot : Prop :=
  ∀ s a v,
    csrWrite s a v = { s with csrs := (csrWrite s a v).csrs, pagingOn := (csrWrite s a v).pagingOn,
                              ptRoot := (csrWrite s a v).ptRoot } ∧
    (∀ c, c ≠ csrSlot a → (csrWrite s a v).csr c = s.csr c) ∧
    (a ≠ csrSstatus → a ≠ csrSie → a ≠ csrSip → (csrWrite s a v).csr a = v) ∧
    (a = csrSstatus → (csrWrite s a v).csr csrMstatus &&& ~~~0x80000003000DE762#64 =
      s.csr csrMstatus &&& ~~~0x80000003000DE762#64) ∧
    (a = csrSie → (csrWrite s a v).csr csrMie &&& ~~~(s.csr csrMideleg &&& 0x222#64) =
      s.csr csrMie &&& ~~~(s.csr csrMideleg &&& 0x222#64)) ∧
    (a = csrSip → (csrWrite s a v).csr csrMip &&& ~~~(s.csr csrMideleg &&& 0x002#64) =
      s.csr csrMip &&& ~~~(s.csr csrMideleg &&& 0x002#64)) ∧
    (a = csrSatp → csrWrite s a v = refreshPaging (s.setCsr csrSatp v) v) ∧
    (a ≠ csrSatp → (csrWrite s a v).pagingOn = s.pagingOn ∧ (csrWrite s a v).ptRoot = s.ptRoot)

/-- R48, R64: a satp write refreshes the paging cache from the value written, even the value already held; nothing else changes it: no other CSR
write, no instruction that is not a CSR instruction on satp, no fetch, no exception, no host move, no poll, and so no step that does not run
such an instruction. -/
def Obligations.PagingCacheFollowsSatp : Prop :=
  (∀ s v, (csrWrite s csrSatp v).pagingOn = decide (v.toNat / 2 ^ 60 = 8) ∧
    (csrWrite s csrSatp v).ptRoot.toNat = v.toNat % 2 ^ 44 * 4096) ∧
  (∀ i s t, exec i s = .next t → csrOperand i ≠ some csrSatp → t.pagingOn = s.pagingOn ∧ t.ptRoot = s.ptRoot) ∧
  (∀ s a v, a ≠ csrSatp → (csrWrite s a v).pagingOn = s.pagingOn ∧ (csrWrite s a v).ptRoot = s.ptRoot) ∧
  (∀ s w t, fetch s = .ok (w, t) → t.pagingOn = s.pagingOn ∧ t.ptRoot = s.ptRoot) ∧
  (∀ e epc s, (raiseAt e epc s).pagingOn = s.pagingOn ∧ (raiseAt e epc s).ptRoot = s.ptRoot) ∧
  (∀ s, (letHostIn s).pagingOn = s.pagingOn ∧ (letHostIn s).ptRoot = s.ptRoot) ∧
  (∀ s, (poll s).pagingOn = s.pagingOn ∧ (poll s).ptRoot = s.ptRoot) ∧
  (∀ s t, step s = .next t →
    (∀ w u i, fetch s = .ok (w, u) → decodeWord w = .ok i → csrOperand i ≠ some csrSatp) →
    t.pagingOn = s.pagingOn ∧ t.ptRoot = s.ptRoot)

/-- R361 to R366: each CSR instruction writes the CSR from the old value and its operand, read before rd is written, and gives rd the
old value; it completes in every mode. -/
def Obligations.CsrInstructionResults : Prop :=
  ∀ (s : State) (rd rs1 : Reg) (a : CsrNum) (u : BitVec 5),
    (∃ t, exec (.csrrw rd a rs1) s = .next t ∧ WritesReg rd (csrRead s a) (csrWrite s a (s.reg rs1)) t) ∧
    (∃ t, exec (.csrrs rd a rs1) s = .next t ∧
      WritesReg rd (csrRead s a) (csrWrite s a (csrRead s a ||| s.reg rs1)) t) ∧
    (∃ t, exec (.csrrc rd a rs1) s = .next t ∧
      WritesReg rd (csrRead s a) (csrWrite s a (csrRead s a &&& ~~~(s.reg rs1))) t) ∧
    (∃ t, exec (.csrrwi rd a u) s = .next t ∧
      WritesReg rd (csrRead s a) (csrWrite s a (BitVec.ofNat 64 u.toNat)) t) ∧
    (∃ t, exec (.csrrsi rd a u) s = .next t ∧
      WritesReg rd (csrRead s a) (csrWrite s a (csrRead s a ||| BitVec.ofNat 64 u.toNat)) t) ∧
    (∃ t, exec (.csrrci rd a u) s = .next t ∧
      WritesReg rd (csrRead s a) (csrWrite s a (csrRead s a &&& ~~~(BitVec.ofNat 64 u.toNat))) t)

/-- R360's inference: writing back the value a CSR read gives changes nothing, in a state that has the invariant. -/
def Obligations.WritingTheValueReadChangesNothing : Prop := ∀ s a, s.Inv → csrWrite s a (csrRead s a) = s

/-! ## RAM and the bus (20_memory.md sections 1 and 2) -/

/-- R100: a RAM load returns the little-endian value of its bytes, zero-extended, and changes nothing. -/
def Obligations.RamLoadIsLittleEndian : Prop :=
  ∀ (s : State) (pa : Word) (w : Width), inRam pa.toNat w = true →
    busLoad pa w s = some (BitVec.ofNat 64
      (((List.range w.bytes).map (fun k => (Cells.read s.mem (pa.toNat + k)).toNat * 256 ^ k)).sum), s)

/-- R101: a RAM store writes the low bytes of the value little-endian; every other byte, and all else, is unchanged. -/
def Obligations.RamStoreWritesItsBytes : Prop :=
  ∀ (s : State) (pa v : Word) (w : Width), inRam pa.toNat w = true →
    ∃ t, busStore pa w v s = some t ∧ t = { s with mem := t.mem } ∧
      (∀ k < w.bytes, Cells.read t.mem (pa.toNat + k) = BitVec.ofNat 8 (v.toNat / 256 ^ k)) ∧
      ∀ a, (a < pa.toNat ∨ pa.toNat + w.bytes ≤ a) → Cells.read t.mem a = Cells.read s.mem a

/-- R223: a store then a load of the same width at the same RAM address, aligned or not, gives the value's low bits. -/
def Obligations.StoreThenLoadGivesTheValue : Prop :=
  ∀ (s t : State) (pa v : Word) (w : Width), inRam pa.toNat w = true → busStore pa w v s = some t →
    busLoad pa w t = some (BitVec.ofNat 64 (v.toNat % 2 ^ (8 * w.bytes)), t)

/-- R103, R106, R107: a bus access fails exactly when it is neither whole inside RAM nor of a device's own width in its window; a store
fails where a load does. (D20 bounds RAM, D21 is the width of loads. That an access at an offset without a register succeeds is R108, D22;
that the region is the one of the first byte, so that an access past a window's end succeeds, is R106, D47. All taken as written, log 18.) -/
def Obligations.BusFailsExactlyWhereUnmapped : Prop :=
  ∀ (s : State) (pa v : Word) (w : Width),
    (busLoad pa w s = none ↔ ¬ (
      (0x80000000 ≤ pa.toNat ∧ pa.toNat + w.bytes ≤ 0x80800000) ∨
      (w = .double ∧ 0x02000000 ≤ pa.toNat ∧ pa.toNat < 0x02010000) ∨
      (w = .word ∧ 0x0C000000 ≤ pa.toNat ∧ pa.toNat < 0x10000000) ∨
      (w = .byte ∧ 0x10000000 ≤ pa.toNat ∧ pa.toNat < 0x10000100) ∨
      (w = .word ∧ 0x10001000 ≤ pa.toNat ∧ pa.toNat < 0x10001100) ∨
      (w = .word ∧ ∃ k, s.cfg.kbdWindow = some k ∧ k.window.contains pa.toNat = true))) ∧
    (busStore pa w v s = none ↔ busLoad pa w s = none)

/-- R168's inference, exact: a bus load changes nothing but at UART RHR, where LSR.RX is cleared, and at KBD_GET, where the queue's head
is taken. -/
def Obligations.OnlyRhrAndKeyboardLoadsHaveEffects : Prop :=
  ∀ (s t : State) (pa v : Word) (w : Width), busLoad pa w s = some (v, t) →
    (t = s) ∨
    (pa = 0x10000000#64 ∧ w = .byte ∧
      t = { s with uart := { s.uart with bytes := Cells.write s.uart.bytes 5 (s.uartByte 5 &&& 0xFE#8) } }) ∨
    (∃ k, s.cfg.kbdWindow = some k ∧ pa.toNat = k.window.base ∧ w = .word ∧
      t = { s with kbdQueue := s.kbdQueue.tail })

/-! ## Devices (20_memory.md sections 3 to 7) -/

/-- R121, R122: a byte load of RHR gives uart[0] and clears LSR.RX alone; any other offset gives its byte and changes nothing. -/
def Obligations.UartLoads : Prop :=
  ∀ (s : State),
    (∃ t, busLoad 0x10000000#64 .byte s = some ((s.uartByte 0).setWidth 64, t) ∧
      t = { s with uart := { s.uart with bytes := t.uart.bytes } } ∧
      (∀ k, t.uartByte k = if k = 5 then s.uartByte 5 &&& ~~~0x01#8 else s.uartByte k) ∧ t.uartRx = false) ∧
    (∀ off : Nat, 0 < off → off < 256 →
      busLoad (BitVec.ofNat 64 (0x10000000 + off)) .byte s = some ((s.uartByte off).setWidth 64, s)) ∧
    (busLoad 0x10000005#64 .byte s = some ((s.uartByte 5).setWidth 64, s))

/-- R123, R125: a byte store to THR is sent and stored nowhere; at any other offset it is stored. (D30.) -/
def Obligations.UartStores : Prop :=
  ∀ (s : State) (v : Word),
    busStore 0x10000000#64 .byte v s = some { s with uartOut := s.uartOut ++ [v.setWidth 8] } ∧
    ∀ off : Nat, 0 < off → off < 256 →
      ∃ t, busStore (BitVec.ofNat 64 (0x10000000 + off)) .byte v s = some t ∧
        t = { s with uart := { s.uart with bytes := t.uart.bytes } } ∧
        ∀ k, t.uartByte k = if k = off then v.setWidth 8 else s.uartByte k

/-- R114, R117, R108, R137: the CLINT's and PLIC's registers are plain storage at the parameters' offsets, an offset with no register reads 0
and ignores stores, and the keyboard takes from its queue or gives 0 and ignores stores. (D22, D49; the offsets are parameters, D23, D24,
D33.) -/
def Obligations.ClintPlicAndKeyboardRegisters : Prop :=
  ∀ (s : State) (v : Word) (off : Nat),
    (off < 0x10000 →
      busLoad (BitVec.ofNat 64 (0x02000000 + off)) .double s =
        some (if off = s.cfg.clintLayout.mtime then s.clint.mtime
              else if off = s.cfg.clintLayout.mtimecmp then s.clint.mtimecmp else 0, s) ∧
      busStore (BitVec.ofNat 64 (0x02000000 + off)) .double v s =
        some { s with clint := {
          mtime := if off = s.cfg.clintLayout.mtime then v else s.clint.mtime,
          mtimecmp := if off = s.cfg.clintLayout.mtimecmp then v else s.clint.mtimecmp } }) ∧
    (off < 0x4000000 →
      busLoad (BitVec.ofNat 64 (0x0C000000 + off)) .word s =
        some ((if off = s.cfg.plicLayout.sclaim then s.plic.sclaim
              else if off = s.cfg.plicLayout.spriority then s.plic.spriority
              else if off = s.cfg.plicLayout.senable then s.plic.senable
              else if off = s.cfg.plicLayout.pending then s.plic.pending else 0#32).setWidth 64, s) ∧
      busStore (BitVec.ofNat 64 (0x0C000000 + off)) .word v s =
        some { s with plic := {
          pending := if off = s.cfg.plicLayout.pending then v.setWidth 32 else s.plic.pending,
          senable := if off = s.cfg.plicLayout.senable then v.setWidth 32 else s.plic.senable,
          spriority := if off = s.cfg.plicLayout.spriority then v.setWidth 32 else s.plic.spriority,
          sclaim := if off = s.cfg.plicLayout.sclaim then v.setWidth 32 else s.plic.sclaim } }) ∧
    (∀ k, s.cfg.kbdWindow = some k → off < k.window.size →
      busLoad (BitVec.ofNat 64 (k.window.base + off)) .word s =
        some (if off = 0 then (s.kbdQueue.headD 0).setWidth 64 else 0,
          if off = 0 then { s with kbdQueue := s.kbdQueue.tail } else s) ∧
      busStore (BitVec.ofNat 64 (k.window.base + off)) .word v s = some s)

/-- R131: disk accesses are 32 bits wide; a load gives the register; magic reads 0x666F_7864 and version 1, in every state and at every layout. An
offset that holds no register reads 0 and changes nothing (R108, the spec's decision D22). -/
def Obligations.DiskLoads : Prop :=
  ∀ (s : State),
    (∀ (off : Nat) (w : Width), off < 0x100 → w ≠ .word →
      busLoad (BitVec.ofNat 64 (0x10001000 + off)) w s = none ∧
      ∀ v, busStore (BitVec.ofNat 64 (0x10001000 + off)) w v s = none) ∧
    (∀ p ∈ [(s.cfg.disk.magic, 0x666F7864#32), (s.cfg.disk.version, 1#32), (s.cfg.disk.notify, s.disk.notify),
        (s.cfg.disk.direction, s.disk.direction), (s.cfg.disk.bufAddrHi, s.disk.bufAddrHi),
        (s.cfg.disk.bufAddrLo, s.disk.bufAddrLo), (s.cfg.disk.bufLenHi, s.disk.bufLenHi),
        (s.cfg.disk.bufLenLo, s.disk.bufLenLo), (s.cfg.disk.sector, s.disk.sector), (s.cfg.disk.done, s.disk.done)],
      busLoad (BitVec.ofNat 64 (0x10001000 + p.1)) .word s = some (p.2.setWidth 64, s)) ∧
    (∀ off : Nat, off < 0x100 →
      off ∉ [s.cfg.disk.magic, s.cfg.disk.version, s.cfg.disk.notify, s.cfg.disk.direction, s.cfg.disk.bufAddrHi,
        s.cfg.disk.bufAddrLo, s.cfg.disk.bufLenHi, s.cfg.disk.bufLenLo, s.cfg.disk.sector, s.cfg.disk.done] →
      busLoad (BitVec.ofNat 64 (0x10001000 + off)) .word s = some (0, s))

/-- R132, R108: a 32-bit disk store sets the register at its offset alone; magic, version and an offset with no register ignore it. (D26,
D22.) -/
def Obligations.DiskStores : Prop :=
  ∀ (s : State) (v : Word) (off : Nat), off < 0x100 →
    busStore (BitVec.ofNat 64 (0x10001000 + off)) .word v s =
      some { s with disk := {
        notify := if off = s.cfg.disk.notify then v.setWidth 32 else s.disk.notify,
        direction := if off = s.cfg.disk.direction then v.setWidth 32 else s.disk.direction,
        bufAddrHi := if off = s.cfg.disk.bufAddrHi then v.setWidth 32 else s.disk.bufAddrHi,
        bufAddrLo := if off = s.cfg.disk.bufAddrLo then v.setWidth 32 else s.disk.bufAddrLo,
        bufLenHi := if off = s.cfg.disk.bufLenHi then v.setWidth 32 else s.disk.bufLenHi,
        bufLenLo := if off = s.cfg.disk.bufLenLo then v.setWidth 32 else s.disk.bufLenLo,
        sector := if off = s.cfg.disk.sector then v.setWidth 32 else s.disk.sector,
        done := if off = s.cfg.disk.done then v.setWidth 32 else s.disk.done } }

/-! ## Translation (20_memory.md section 8) -/

/-- R150, R153, R154, with the addresses as numbers: with paging off the address itself; else the frame of the leaf at level 2, 1 or 0 and the
virtual address's lower bits. An entry with V = 1 and not W without R is valid; a valid one with R = 1 or X = 1, X alone included, is a leaf, and
one with neither points at the next table. (D41: a superpage's low page numbers are ignored.) -/
def Obligations.TranslationFollowsTheTable : Prop :=
  ∀ (s : State) (va : Word) (kind : Access),
    (s.pagingOn = false → translate va kind s = .ok va) ∧
    (s.pagingOn = true → ∀ p2, readPte (s.ptRoot + BitVec.ofNat 64 (va.toNat / 2 ^ 30 % 512 * 8)) s = some p2 →
      p2.getLsbD 0 = true → (p2.getLsbD 2 = true → p2.getLsbD 1 = true) →
      (p2.getLsbD 1 = true ∨ p2.getLsbD 3 = true → ∃ pa, translate va kind s = .ok pa ∧
        pa.toNat = p2.toNat / 2 ^ 28 % 2 ^ 26 * 2 ^ 30 + va.toNat % 2 ^ 30) ∧
      (p2.getLsbD 1 = false → p2.getLsbD 3 = false → ∀ p1,
        readPte (BitVec.ofNat 64 (p2.toNat / 2 ^ 10 % 2 ^ 44 * 4096 + va.toNat / 2 ^ 21 % 512 * 8)) s = some p1 →
        p1.getLsbD 0 = true → (p1.getLsbD 2 = true → p1.getLsbD 1 = true) →
        (p1.getLsbD 1 = true ∨ p1.getLsbD 3 = true → ∃ pa, translate va kind s = .ok pa ∧
          pa.toNat = p1.toNat / 2 ^ 19 % 2 ^ 35 * 2 ^ 21 + va.toNat % 2 ^ 21) ∧
        (p1.getLsbD 1 = false → p1.getLsbD 3 = false → ∀ p0,
          readPte (BitVec.ofNat 64 (p1.toNat / 2 ^ 10 % 2 ^ 44 * 4096 + va.toNat / 2 ^ 12 % 512 * 8)) s = some p0 →
          p0.getLsbD 0 = true → (p0.getLsbD 2 = true → p0.getLsbD 1 = true) →
          p0.getLsbD 1 = true ∨ p0.getLsbD 3 = true → ∃ pa, translate va kind s = .ok pa ∧
            pa.toNat = p0.toNat / 2 ^ 10 % 2 ^ 44 * 4096 + va.toNat % 4096)))

/-- R150, R153, R158: an entry that cannot be read is the kind's access fault, an invalid one its page fault, at every level; three pointers
are a page fault; translation raises nothing else. Valid is V = 1 and not W without R, a leaf has R or X. So of the walk at any table, and of
translation itself at each of its three levels, from the root on. (D38.) -/
def Obligations.TranslationFaults : Prop :=
  (∀ (s : State) (va a : Word) (kind : Access) (level : Nat),
    (readPte (a + vpn va level * 8) s = none → walk s va kind level a = .error kind.accessFault) ∧
    (∀ p, readPte (a + vpn va level * 8) s = some p →
      ¬ (p.getLsbD 0 = true ∧ (p.getLsbD 2 = true → p.getLsbD 1 = true)) →
      walk s va kind level a = .error kind.pageFault) ∧
    (∀ p, readPte (a + vpn va level * 8) s = some p → p.getLsbD 0 = true → p.getLsbD 1 = false → p.getLsbD 2 = false →
      p.getLsbD 3 = false → level = 0 → walk s va kind level a = .error kind.pageFault)) ∧
  (∀ (s : State) (va : Word) (kind : Access) (e : Exception), translate va kind s = .error e →
    e = kind.accessFault ∨ e = kind.pageFault) ∧
  ∀ (s : State) (va : Word) (kind : Access) (access page : Exception), s.pagingOn = true →
    access = (match kind with
      | .fetch => .instructionAccessFault
      | .load => .loadAccessFault
      | .store => .storeAmoAccessFault) →
    page = (match kind with
      | .fetch => .instructionPageFault
      | .load => .loadPageFault
      | .store => .storeAmoPageFault) →
    (readPte (s.ptRoot + BitVec.ofNat 64 (va.toNat / 2 ^ 30 % 512 * 8)) s = none → translate va kind s = .error access) ∧
    (∀ p2, readPte (s.ptRoot + BitVec.ofNat 64 (va.toNat / 2 ^ 30 % 512 * 8)) s = some p2 →
      (¬ (p2.getLsbD 0 = true ∧ (p2.getLsbD 2 = true → p2.getLsbD 1 = true)) → translate va kind s = .error page) ∧
      (p2.getLsbD 0 = true → p2.getLsbD 1 = false → p2.getLsbD 2 = false → p2.getLsbD 3 = false →
        (readPte (BitVec.ofNat 64 (p2.toNat / 2 ^ 10 % 2 ^ 44 * 4096 + va.toNat / 2 ^ 21 % 512 * 8)) s = none →
          translate va kind s = .error access) ∧
        (∀ p1, readPte (BitVec.ofNat 64 (p2.toNat / 2 ^ 10 % 2 ^ 44 * 4096 + va.toNat / 2 ^ 21 % 512 * 8)) s = some p1 →
          (¬ (p1.getLsbD 0 = true ∧ (p1.getLsbD 2 = true → p1.getLsbD 1 = true)) → translate va kind s = .error page) ∧
          (p1.getLsbD 0 = true → p1.getLsbD 1 = false → p1.getLsbD 2 = false → p1.getLsbD 3 = false →
            (readPte (BitVec.ofNat 64 (p1.toNat / 2 ^ 10 % 2 ^ 44 * 4096 + va.toNat / 2 ^ 12 % 512 * 8)) s = none →
              translate va kind s = .error access) ∧
            (∀ p0, readPte (BitVec.ofNat 64 (p1.toNat / 2 ^ 10 % 2 ^ 44 * 4096 + va.toNat / 2 ^ 12 % 512 * 8)) s = some p0 →
              (¬ (p0.getLsbD 0 = true ∧ (p0.getLsbD 2 = true → p0.getLsbD 1 = true)) → translate va kind s = .error page) ∧
              (p0.getLsbD 0 = true → p0.getLsbD 1 = false → p0.getLsbD 2 = false → p0.getLsbD 3 = false →
                translate va kind s = .error page))))))

/-- R151, R156, R157: with paging on, translation depends on the low 39 bits of the address, the root, RAM, the CLINT and the parameters, and on
nothing else: not the mode, mstatus or the kind of access. (D39, D40.) -/
def Obligations.TranslationIsBlind : Prop :=
  ∀ (s t : State) (va va' : Word) (kind kind' : Access), s.pagingOn = true → t.pagingOn = true → t.ptRoot = s.ptRoot →
    t.mem = s.mem → t.clint = s.clint → t.cfg = s.cfg → va.toNat % 2 ^ 39 = va'.toNat % 2 ^ 39 →
    translate va kind s = translate va' kind t ∧
    ∀ pa, translate va kind s = .ok pa → translate va kind' s = .ok pa

/-! ## Loads, stores and AMOs (40_loads_stores.md, 43_atomics.md) -/

/-- R211 to R217: each load's width and extension, and its exceptions (R210). -/
def Obligations.LoadResults : Prop :=
  ∀ (s : State) (rd rs1 : Reg) (imm : BitVec 12),
    LoadsAs (.lb rd rs1 imm) .byte (fun v => BitVec.ofInt 64 (v.setWidth 8).toInt) rd rs1 imm s ∧
    LoadsAs (.lh rd rs1 imm) .half (fun v => BitVec.ofInt 64 (v.setWidth 16).toInt) rd rs1 imm s ∧
    LoadsAs (.lw rd rs1 imm) .word (fun v => BitVec.ofInt 64 (v.setWidth 32).toInt) rd rs1 imm s ∧
    LoadsAs (.ld rd rs1 imm) .double (fun v => v) rd rs1 imm s ∧
    LoadsAs (.lbu rd rs1 imm) .byte (fun v => BitVec.ofNat 64 (v.toNat % 2 ^ 8)) rd rs1 imm s ∧
    LoadsAs (.lhu rd rs1 imm) .half (fun v => BitVec.ofNat 64 (v.toNat % 2 ^ 16)) rd rs1 imm s ∧
    LoadsAs (.lwu rd rs1 imm) .word (fun v => BitVec.ofNat 64 (v.toNat % 2 ^ 32)) rd rs1 imm s

/-- R218 to R222: each store's width, the bytes it leaves and its exceptions. -/
def Obligations.StoreResults : Prop :=
  ∀ (s : State) (rs1 rs2 : Reg) (imm : BitVec 12),
    effectiveAddress s rs1 imm = s.reg rs1 + imm.signExtend 64 ∧
    StoresAs (.sb rs1 rs2 imm) .byte rs1 rs2 imm s ∧
    StoresAs (.sh rs1 rs2 imm) .half rs1 rs2 imm s ∧
    StoresAs (.sw rs1 rs2 imm) .word rs1 rs2 imm s ∧
    StoresAs (.sd rs1 rs2 imm) .double rs1 rs2 imm s

/-- R300 to R322: what each AMO stores and returns, and its exceptions. (D16: the exceptions' kinds; D15: the parameter that extends a word;
D17: aq and rl are ignored.) -/
def Obligations.AmoResults : Prop :=
  ∀ (s : State) (aq rl : Bool) (rd rs1 rs2 : Reg),
    (∀ (i : Instr) (op : Word32 → Word32 → Word32), (i, op) ∈ ([
        (.amoswapW aq rl rd rs1 rs2, fun _ b => b),
        (.amoaddW aq rl rd rs1 rs2, fun a b => BitVec.ofNat 32 (a.toNat + b.toNat)),
        (.amoxorW aq rl rd rs1 rs2, fun a b => a ^^^ b),
        (.amoandW aq rl rd rs1 rs2, fun a b => a &&& b),
        (.amoorW aq rl rd rs1 rs2, fun a b => a ||| b),
        (.amominW aq rl rd rs1 rs2, fun a b => if a.toInt < b.toInt then a else b),
        (.amomaxW aq rl rd rs1 rs2, fun a b => if a.toInt > b.toInt then a else b),
        (.amominuW aq rl rd rs1 rs2, fun a b => if a.toNat < b.toNat then a else b),
        (.amomaxuW aq rl rd rs1 rs2, fun a b => if a.toNat > b.toNat then a else b)] :
          List (Instr × (Word32 → Word32 → Word32))) →
      AmoAs i .word
        (fun a => (op (a.setWidth 32) ((s.reg rs2).setWidth 32)).setWidth 64)
        (fun a => if s.cfg.amoWExt = .sext then BitVec.ofInt 64 (a.setWidth 32).toInt else BitVec.ofNat 64 (a.toNat % 2 ^ 32))
        rd rs1 s) ∧
    (∀ (i : Instr) (op : Word → Word → Word), (i, op) ∈ ([
        (.amoswapD aq rl rd rs1 rs2, fun _ b => b),
        (.amoaddD aq rl rd rs1 rs2, fun a b => BitVec.ofNat 64 (a.toNat + b.toNat)),
        (.amoxorD aq rl rd rs1 rs2, fun a b => a ^^^ b),
        (.amoandD aq rl rd rs1 rs2, fun a b => a &&& b),
        (.amoorD aq rl rd rs1 rs2, fun a b => a ||| b),
        (.amominD aq rl rd rs1 rs2, fun a b => if a.toInt < b.toInt then a else b),
        (.amomaxD aq rl rd rs1 rs2, fun a b => if a.toInt > b.toInt then a else b),
        (.amominuD aq rl rd rs1 rs2, fun a b => if a.toNat < b.toNat then a else b),
        (.amomaxuD aq rl rd rs1 rs2, fun a b => if a.toNat > b.toNat then a else b)] :
          List (Instr × (Word → Word → Word))) →
      AmoAs i .double (fun a => op a (s.reg rs2)) (fun a => a) rd rs1 s)

/-- R301: an AMO at an address that is not a multiple of its size takes LoadAddressMisaligned, code 4, before any access: memory, registers and
devices are as they were and the block still runs. -/
def Obligations.MisalignedAmoTraps : Prop :=
  ∀ (i : Instr) (s : State) (rs1 : Reg) (w : Width), amoOperand i = some (rs1, w) → (s.reg rs1).toNat % w.bytes ≠ 0 →
    ∃ u, exec i s = .next u ∧ TrapTaken 4 false (s.pc - 4) s u

/-! ## Integer computation (41_integer_alu.md, 42_multiply_divide.md, 45_upper_immediate.md) -/

/-- R240 to R249. -/
def Obligations.RegisterAluResults : Prop :=
  ∀ (s : State) (rd rs1 rs2 : Reg) (x y : Word), x = s.reg rs1 → y = s.reg rs2 →
    Computes (.add rd rs1 rs2) rd (BitVec.ofNat 64 (x.toNat + y.toNat)) s ∧
    Computes (.sub rd rs1 rs2) rd (BitVec.ofInt 64 ((x.toNat : Int) - y.toNat)) s ∧
    Computes (.sll rd rs1 rs2) rd (BitVec.ofNat 64 (x.toNat * 2 ^ (y.toNat % 64))) s ∧
    Computes (.slt rd rs1 rs2) rd (if x.toInt < y.toInt then 1 else 0) s ∧
    Computes (.sltu rd rs1 rs2) rd (if x.toNat < y.toNat then 1 else 0) s ∧
    Computes (.xor rd rs1 rs2) rd (x ^^^ y) s ∧
    Computes (.srl rd rs1 rs2) rd (BitVec.ofNat 64 (x.toNat / 2 ^ (y.toNat % 64))) s ∧
    Computes (.sra rd rs1 rs2) rd (BitVec.ofInt 64 (x.toInt / 2 ^ (y.toNat % 64))) s ∧
    Computes (.or rd rs1 rs2) rd (x ||| y) s ∧
    Computes (.and rd rs1 rs2) rd (x &&& y) s

/-- R231 to R239. -/
def Obligations.ImmediateAluResults : Prop :=
  ∀ (s : State) (rd rs1 : Reg) (imm : BitVec 12) (shamt : BitVec 6) (x y : Word), x = s.reg rs1 → y = BitVec.ofInt 64 imm.toInt →
    Computes (.addi rd rs1 imm) rd (BitVec.ofInt 64 (x.toNat + imm.toInt)) s ∧
    Computes (.slti rd rs1 imm) rd (if x.toInt < imm.toInt then 1 else 0) s ∧
    Computes (.sltiu rd rs1 imm) rd (if x.toNat < y.toNat then 1 else 0) s ∧
    Computes (.xori rd rs1 imm) rd (x ^^^ y) s ∧
    Computes (.ori rd rs1 imm) rd (x ||| y) s ∧
    Computes (.andi rd rs1 imm) rd (x &&& y) s ∧
    Computes (.slli rd rs1 shamt) rd (BitVec.ofNat 64 (x.toNat * 2 ^ shamt.toNat)) s ∧
    Computes (.srli rd rs1 shamt) rd (BitVec.ofNat 64 (x.toNat / 2 ^ shamt.toNat)) s ∧
    Computes (.srai rd rs1 shamt) rd (BitVec.ofInt 64 (x.toInt / 2 ^ shamt.toNat)) s

/-- R250 to R258: a W form's 32-bit result is read as signed and widened. -/
def Obligations.WordAluResults : Prop :=
  ∀ (s : State) (rd rs1 rs2 : Reg) (imm : BitVec 12) (shamt : BitVec 5) (x y : Word) (a : Word32),
    x = s.reg rs1 → y = s.reg rs2 → a = BitVec.ofNat 32 x.toNat →
    Computes (.addiw rd rs1 imm) rd (BitVec.ofInt 64 (BitVec.ofInt 32 (x.toNat + imm.toInt)).toInt) s ∧
    Computes (.slliw rd rs1 shamt) rd (BitVec.ofInt 64 (BitVec.ofNat 32 (a.toNat * 2 ^ shamt.toNat)).toInt) s ∧
    Computes (.srliw rd rs1 shamt) rd (BitVec.ofInt 64 (BitVec.ofNat 32 (a.toNat / 2 ^ shamt.toNat)).toInt) s ∧
    Computes (.sraiw rd rs1 shamt) rd (BitVec.ofInt 64 (a.toInt / 2 ^ shamt.toNat)) s ∧
    Computes (.addw rd rs1 rs2) rd (BitVec.ofInt 64 (BitVec.ofNat 32 (x.toNat + y.toNat)).toInt) s ∧
    Computes (.subw rd rs1 rs2) rd (BitVec.ofInt 64 (BitVec.ofInt 32 ((x.toNat : Int) - y.toNat)).toInt) s ∧
    Computes (.sllw rd rs1 rs2) rd (BitVec.ofInt 64 (BitVec.ofNat 32 (a.toNat * 2 ^ (y.toNat % 32))).toInt) s ∧
    Computes (.srlw rd rs1 rs2) rd (BitVec.ofInt 64 (BitVec.ofNat 32 (a.toNat / 2 ^ (y.toNat % 32))).toInt) s ∧
    Computes (.sraw rd rs1 rs2) rd (BitVec.ofInt 64 (a.toInt / 2 ^ (y.toNat % 32))) s

/-- R281 to R284, R289. -/
def Obligations.MultiplyResults : Prop :=
  ∀ (s : State) (rd rs1 rs2 : Reg) (x y : Word), x = s.reg rs1 → y = s.reg rs2 →
    Computes (.mul rd rs1 rs2) rd (BitVec.ofNat 64 (x.toNat * y.toNat)) s ∧
    Computes (.mulh rd rs1 rs2) rd (BitVec.ofInt 64 (x.toInt * y.toInt / 2 ^ 64)) s ∧
    Computes (.mulhsu rd rs1 rs2) rd (BitVec.ofInt 64 (x.toInt * (y.toNat : Int) / 2 ^ 64)) s ∧
    Computes (.mulhu rd rs1 rs2) rd (BitVec.ofNat 64 (x.toNat * y.toNat / 2 ^ 64)) s ∧
    Computes (.mulw rd rs1 rs2) rd
      (BitVec.ofInt 64 (BitVec.ofNat 32 (x.toNat % 2 ^ 32 * (y.toNat % 2 ^ 32))).toInt) s

/-- R285, R286, R290: the quotients, with the fixed values by zero and on overflow; nothing traps. -/
def Obligations.DivideResults : Prop :=
  ∀ (s : State) (rd rs1 rs2 : Reg) (x y : Word) (a b : Word32), x = s.reg rs1 → y = s.reg rs2 →
    a = BitVec.ofNat 32 x.toNat → b = BitVec.ofNat 32 y.toNat →
    Computes (.div rd rs1 rs2) rd
      (if y = 0 then 0xFFFFFFFFFFFFFFFF#64
       else if x = 0x8000000000000000#64 ∧ y = 0xFFFFFFFFFFFFFFFF#64 then 0x8000000000000000#64
       else BitVec.ofInt 64 (x.toInt.tdiv y.toInt)) s ∧
    Computes (.divu rd rs1 rs2) rd
      (if y = 0 then 0xFFFFFFFFFFFFFFFF#64 else BitVec.ofNat 64 (x.toNat / y.toNat)) s ∧
    Computes (.divw rd rs1 rs2) rd
      (if b = 0 then 0xFFFFFFFFFFFFFFFF#64
       else if a.toInt = -2147483648 ∧ b.toInt = -1 then 0xFFFFFFFF80000000#64
       else BitVec.ofInt 64 (a.toInt.tdiv b.toInt)) s

/-- R287, R288, R291 to R293: the remainders, and DIVUW. By zero a remainder is the dividend and DIVUW all ones: the spec's decision D18 and
inference. -/
def Obligations.RemainderResults : Prop :=
  ∀ (s : State) (rd rs1 rs2 : Reg) (x y : Word) (a b : Word32), x = s.reg rs1 → y = s.reg rs2 →
    a = BitVec.ofNat 32 x.toNat → b = BitVec.ofNat 32 y.toNat →
    Computes (.rem rd rs1 rs2) rd
      (if y = 0 then x
       else if x = 0x8000000000000000#64 ∧ y = 0xFFFFFFFFFFFFFFFF#64 then 0
       else BitVec.ofInt 64 (x.toInt.tmod y.toInt)) s ∧
    Computes (.remu rd rs1 rs2) rd (if y = 0 then x else BitVec.ofNat 64 (x.toNat % y.toNat)) s ∧
    Computes (.divuw rd rs1 rs2) rd
      (if b = 0 then 0xFFFFFFFFFFFFFFFF#64 else BitVec.ofInt 64 (BitVec.ofNat 32 (a.toNat / b.toNat)).toInt) s ∧
    Computes (.remw rd rs1 rs2) rd
      (if b = 0 then BitVec.ofInt 64 a.toInt
       else if a.toInt = -2147483648 ∧ b.toInt = -1 then 0
       else BitVec.ofInt 64 (a.toInt.tmod b.toInt)) s ∧
    Computes (.remuw rd rs1 rs2) rd
      (if b = 0 then BitVec.ofInt 64 a.toInt else BitVec.ofInt 64 (BitVec.ofNat 32 (a.toNat % b.toNat)).toInt) s

/-- R294: the high multiplies from the unsigned one, modulo 2^64; and the unsigned one from 32-bit halves. -/
def Obligations.HighMultiplyIdentities : Prop :=
  ∀ a b : Word,
    mulHigh a b = mulHighU a b - (if a.toInt < 0 then b else 0) - (if b.toInt < 0 then a else 0) ∧
    mulHighSU a b = mulHighU a b - (if a.toInt < 0 then b else 0) ∧
    (∀ ah al bh bl : Nat, ah = a.toNat / 2 ^ 32 → al = a.toNat % 2 ^ 32 → bh = b.toNat / 2 ^ 32 → bl = b.toNat % 2 ^ 32 →
      mulHighU a b = BitVec.ofNat 64
        (ah * bh + ah * bl / 2 ^ 32 + al * bh / 2 ^ 32 + (ah * bl % 2 ^ 32 + al * bh % 2 ^ 32 + al * bl / 2 ^ 32) / 2 ^ 32))

/-! ## Control transfer, upper immediates, fences (44 to 46) -/

/-- R331 to R336: each branch's condition; taken, the pc is the branch's own address plus the offset; nothing else changes. -/
def Obligations.BranchResults : Prop :=
  ∀ (s : State) (rs1 rs2 : Reg) (imm : BitVec 13) (x y target : Word), x = s.reg rs1 → y = s.reg rs2 →
    target = BitVec.ofInt 64 ((s.pc.toNat : Int) - 4 + imm.toInt) →
    exec (.beq rs1 rs2 imm) s = .next { s with pc := if x = y then target else s.pc } ∧
    exec (.bne rs1 rs2 imm) s = .next { s with pc := if x ≠ y then target else s.pc } ∧
    exec (.blt rs1 rs2 imm) s = .next { s with pc := if x.toInt < y.toInt then target else s.pc } ∧
    exec (.bge rs1 rs2 imm) s = .next { s with pc := if x.toInt ≥ y.toInt then target else s.pc } ∧
    exec (.bltu rs1 rs2 imm) s = .next { s with pc := if x.toNat < y.toNat then target else s.pc } ∧
    exec (.bgeu rs1 rs2 imm) s = .next { s with pc := if x.toNat ≥ y.toNat then target else s.pc }

/-- R337, R338, R350, R351: the jumps link pc_cur + 4 and go to their target, read before rd is written; the upper immediates. The pc an
instruction sees is pc_cur + 4 (R18). -/
def Obligations.JumpAndUpperImmediateResults : Prop :=
  ∀ (s : State) (rd rs1 : Reg) (imm : BitVec 12) (off : BitVec 21) (up : BitVec 20),
    (∃ t, exec (.jal rd off) s = .next t ∧
      WritesReg rd s.pc { s with pc := BitVec.ofInt 64 ((s.pc.toNat : Int) - 4 + off.toInt) } t) ∧
    (∃ t, exec (.jalr rd rs1 imm) s = .next t ∧
      WritesReg rd s.pc
        { s with pc := BitVec.ofNat 64 ((BitVec.ofInt 64 ((s.reg rs1).toNat + imm.toInt)).toNat / 2 * 2) } t) ∧
    Computes (.lui rd up) rd (BitVec.ofInt 64 (up.toInt * 4096)) s ∧
    Computes (.auipc rd up) rd (BitVec.ofInt 64 ((s.pc.toNat : Int) - 4 + up.toInt * 4096)) s

/-- R355, R357: FENCE and SFENCE.VMA change nothing, the pc being past them already. (D14: FENCE's fields are ignored; D8: no mode check.) -/
def Obligations.FencesChangeNothing : Prop :=
  (∀ s fm pred succ rs1 rd, exec (.fence fm pred succ rs1 rd) s = .next s) ∧
  (∀ s rs1 rs2, exec (.sfenceVma rs1 rs2) s = .next s)

/-! ## The poll (60_exceptions.md section 5) -/

/-- R430, R431, R437: a poll first makes mip.MTIP (mtime ≥ mtimecmp) under TIMER_COMPARE and else changes nothing (D31); in M-mode with MIE = 0
and in S-mode with SIE = 0 it does no more; in every other case, U-mode among them, it queries the devices and, unless that stopped the block,
delivers. -/
def Obligations.BlockedPoll : Prop :=
  ∀ s t, t = timerCompare s →
    (s.cfg.timerCompare = false → t = s) ∧
    (s.cfg.timerCompare = true → t = { s with csrs := t.csrs } ∧
      (∀ a, a ≠ csrMip → t.csr a = s.csr a) ∧
      ∀ n < 64, (t.csr csrMip).getLsbD n =
        if n = 7 then decide (s.clint.mtime.toNat ≥ s.clint.mtimecmp.toNat) else (s.csr csrMip).getLsbD n) ∧
    ((s.mode = .m ∧ (s.csr csrMstatus).getLsbD 3 = false) ∨ (s.mode = .s ∧ (s.csr csrMstatus).getLsbD 1 = false) →
      pollBlocked t = true ∧ poll s = t) ∧
    (¬ ((s.mode = .m ∧ (s.csr csrMstatus).getLsbD 3 = false) ∨ (s.mode = .s ∧ (s.csr csrMstatus).getLsbD 1 = false)) →
      pollBlocked t = false ∧
        poll s = if (deviceQuery t).status = .running then deliver (deviceQuery t) else deviceQuery t)

/-- R432: the UART is asked first: its flag is cleared and IRQ 10 fires, and the disk is not asked; otherwise an armed disk runs its transfer and, if
that does not fail, IRQ 1 fires; a fired IRQ goes to sclaim and sets mip.SEIP. -/
def Obligations.DeviceQueryAsksTheUartFirst : Prop :=
  ∀ s,
    (s.uart.interrupting = true →
      ∃ u, deviceQuery s = u ∧ u = { s with uart := { s.uart with interrupting := false },
                                            plic := { s.plic with sclaim := 10 }, csrs := u.csrs } ∧
        (∀ a, a ≠ csrMip → u.csr a = s.csr a) ∧
        ∀ n < 64, (u.csr csrMip).getLsbD n = (decide (n = 9) || (s.csr csrMip).getLsbD n)) ∧
    (s.uart.interrupting = false → s.disk.notify ≠ 0xFFFFFFFF#32 →
      ((dma s).status ≠ .running → deviceQuery s = dma s) ∧
      ((dma s).status = .running →
        ∃ u, deviceQuery s = u ∧ u = { dma s with plic := { (dma s).plic with sclaim := 1 }, csrs := u.csrs } ∧
          (∀ a, a ≠ csrMip → u.csr a = (dma s).csr a) ∧
          ∀ n < 64, (u.csr csrMip).getLsbD n = (decide (n = 9) || ((dma s).csr csrMip).getLsbD n))) ∧
    (s.uart.interrupting = false → s.disk.notify = 0xFFFFFFFF#32 → deviceQuery s = s)

/-- R434, R435: the first of MEI, MSI, MTI, SEI, SSI, STI that is pending and enabled is taken, its mip bit cleared, with cause 2^63 | code and the
parameter's pc; with none nothing happens. (D2 is the pc.) -/
def Obligations.InterruptsAreTakenInOrder : Prop :=
  ∀ (s : State) (p : Nat → Bool), (∀ n, p n = ((s.csr csrMie).getLsbD n && (s.csr csrMip).getLsbD n)) →
    (p 11 = false → p 3 = false → p 7 = false → p 9 = false → p 1 = false → p 5 = false → deliver s = s) ∧
    ∀ c : Nat,
      (c = 11 ∧ p 11 = true) ∨ (c = 3 ∧ p 3 = true ∧ p 11 = false) ∨
        (c = 7 ∧ p 7 = true ∧ p 11 = false ∧ p 3 = false) ∨
        (c = 9 ∧ p 9 = true ∧ p 11 = false ∧ p 3 = false ∧ p 7 = false) ∨
        (c = 1 ∧ p 1 = true ∧ p 11 = false ∧ p 3 = false ∧ p 7 = false ∧ p 9 = false) ∨
        (c = 5 ∧ p 5 = true ∧ p 11 = false ∧ p 3 = false ∧ p 7 = false ∧ p 9 = false ∧ p 1 = false) →
      ∃ r, r = { s with csrs := r.csrs } ∧ (∀ a, a ≠ csrMip → r.csr a = s.csr a) ∧
        (∀ n < 64, (r.csr csrMip).getLsbD n = (decide (n ≠ c) && (s.csr csrMip).getLsbD n)) ∧
        TrapTaken (0x8000000000000000#64 ||| BitVec.ofNat 64 c) true
          (match s.cfg.intrEpc with | .nextPc => s.pc | .pcMinus4 => s.pc - 4) r (deliver s)

/-- R433: a transfer whose range lies in the disk image and in RAM copies its bytes, clears done, sets notify idle and changes nothing else, in both
directions. (D28, D29.) -/
def Obligations.DmaCopies : Prop :=
  ∀ (s : State) (img : List Byte) (addr len start : Nat), s.diskBacking = some img →
    addr = s.disk.bufAddrHi.toNat * 2 ^ 32 + s.disk.bufAddrLo.toNat →
    len = s.disk.bufLenHi.toNat * 2 ^ 32 + s.disk.bufLenLo.toNat → start = s.disk.sector.toNat * 512 →
    start + len ≤ img.length → 0x80000000 ≤ addr → addr + len ≤ 0x80800000 →
    (s.disk.direction ≠ 1 →
      dma s = { s with disk := { s.disk with notify := 0xFFFFFFFF#32, done := 0 }, mem := (dma s).mem } ∧
      (∀ k < len, Cells.read (dma s).mem (addr + k) = img.getD (start + k) 0) ∧
      ∀ a, (a < addr ∨ addr + len ≤ a) → Cells.read (dma s).mem a = Cells.read s.mem a) ∧
    (s.disk.direction = 1 →
      ∃ img', dma s = { s with disk := { s.disk with notify := 0xFFFFFFFF#32, done := 0 }, diskBacking := some img' } ∧
        img'.length = img.length ∧
        (∀ k < len, img'.getD (start + k) 0 = Cells.read s.mem (addr + k)) ∧
        ∀ j, (j < start ∨ start + len ≤ j) → img'.getD j 0 = img.getD j 0)

/-- R417, R433: no disk image, a range past the image's end, or a byte that fails on the bus is a host error. The first two, and a failure of the
first byte, leave all but notify and the status as they were. A later failure leaves the state after the bytes copied before it, in both directions,
with done, sclaim and mip not written (log 15); so does a transfer that runs past the end of RAM, written out as bytes. (D28; the exact sum in the
range check is log 14.) -/
def Obligations.DmaHostErrors : Prop :=
  ∀ (s : State) (u : State), u = { s with disk := { s.disk with notify := 0xFFFFFFFF#32 } } →
    (s.diskBacking = none → dma s = { u with status := .hostError .noDiskImage }) ∧
    (∀ img len start, s.diskBacking = some img → len = s.disk.bufLenHi.toNat * 2 ^ 32 + s.disk.bufLenLo.toNat →
      start = s.disk.sector.toNat * 512 →
      (img.length < start + len → dma s = { u with status := .hostError .sectorRange }) ∧
      (start + len ≤ img.length →
        (len ≠ 0 → busLoad (s.disk.bufAddrHi ++ s.disk.bufAddrLo) .byte s = none →
          dma s = { u with status := .hostError .busFailure }) ∧
        (s.disk.direction ≠ 1 → ∀ r m, m < len → Passes (transferStore img start (s.disk.bufAddrHi ++ s.disk.bufAddrLo)) u r m →
          transferStore img start (s.disk.bufAddrHi ++ s.disk.bufAddrLo) m (r m) = none →
          dma s = { r m with status := .hostError .busFailure } ∧
            (r m).disk = u.disk ∧ (r m).plic = s.plic ∧ (r m).csrs = s.csrs) ∧
        (s.disk.direction = 1 → ∀ r m, m < len → Passes (transferLoad start (s.disk.bufAddrHi ++ s.disk.bufAddrLo)) u r m →
          transferLoad start (s.disk.bufAddrHi ++ s.disk.bufAddrLo) m (r m) = none →
          dma s = { r m with status := .hostError .busFailure } ∧
            (r m).disk = u.disk ∧ (r m).plic = s.plic ∧ (r m).csrs = s.csrs) ∧
        ∀ addr n, addr = s.disk.bufAddrHi.toNat * 2 ^ 32 + s.disk.bufAddrLo.toNat → 0x80000000 ≤ addr → addr + n = 0x80800000 →
          n < len →
          (s.disk.direction ≠ 1 →
            dma s = { u with mem := (dma s).mem, status := .hostError .busFailure } ∧
            (∀ k < n, Cells.read (dma s).mem (addr + k) = img.getD (start + k) 0) ∧
            ∀ a, (a < addr ∨ 0x80800000 ≤ a) → Cells.read (dma s).mem a = Cells.read s.mem a) ∧
          (s.disk.direction = 1 →
            ∃ img', dma s = { u with diskBacking := some img', status := .hostError .busFailure } ∧ img'.length = img.length ∧
              (∀ k < n, img'.getD (start + k) 0 = Cells.read s.mem (addr + k)) ∧
              ∀ j, (j < start ∨ start + n ≤ j) → img'.getD j 0 = img.getD j 0)))

/-! ## The host agent (20_memory.md sections 5, 7 and 11) -/

/-- R126, R138, R104: a byte is delivered only while LSR.RX is clear, to RHR, setting LSR.RX and the flag; a scancode always joins the queue's end; a
read through ram_pointer changes nothing. R171: a point of a running block lets in the next moves of the schedule (the model's, log 7): every
scancode in order; of the bytes the first if LSR.RX is clear and else none; the other bytes wait and go first at the next point; nothing else
changes, nor anything at a point without moves or in a block that has stopped (log 16). R172: the RAMs the host can see during a step of a running block are
RAM before it; RAM after the execution, which differs at most in the bytes of the store target of the instruction fetched; and, exactly when the poll
runs a transfer to RAM, RAM after each byte the transfer stores, in order, up to its last or the one that fails; the last of them is RAM after the
step. So a read between any two bus accesses sees one of them (log 19). A block that has stopped shows its RAM. -/
def Obligations.HostMovesDeliver : Prop :=
  (∀ (s : State) (b : Byte) (v : Word32),
    ((s.uartByte 5).getLsbD 0 = true → hostMove (.uartByte b) s = none) ∧
    ((s.uartByte 5).getLsbD 0 = false →
      ∃ t, hostMove (.uartByte b) s = some t ∧
        t = { s with uart := { bytes := t.uart.bytes, interrupting := true } } ∧
        ∀ k, t.uartByte k = if k = 0 then b else if k = 5 then s.uartByte 5 ||| 0x01#8 else s.uartByte k) ∧
    hostMove (.scancode v) s = some { s with kbdQueue := s.kbdQueue ++ [v] } ∧ hostMove .ramPointer s = some s) ∧
  (∀ s, s.status ≠ .running ∨ s.hostSchedule = [] → letHostIn s = s) ∧
  (∀ s ms points, s.status = .running → s.hostSchedule = ms :: points →
    ∃ u waiting, letHostIn s = u ∧
      u = { s with uart := u.uart, kbdQueue := s.kbdQueue ++ scancodesOf ms, hostSchedule := u.hostSchedule } ∧
      (waiting = [] → u.hostSchedule = points) ∧
      (waiting ≠ [] → u.hostSchedule = (waiting.map .uartByte ++ points.headD []) :: points.tail) ∧
      (s.uartRx = true ∨ bytesOf ms = [] → u.uart = s.uart ∧ waiting = bytesOf ms) ∧
      (s.uartRx = false → ∀ b bs, bytesOf ms = b :: bs →
        u.uart.interrupting = true ∧ waiting = bs ∧
          ∀ k, u.uartByte k = if k = 0 then b else if k = 5 then s.uartByte 5 ||| 0x01#8 else s.uartByte k)) ∧
  (∀ s, s.status ≠ .running → ramViews s = [s.mem]) ∧
  (∀ s t, s.status = .running → step s = .next t →
    ∃ u vs, execution s = .next u ∧ ramViews s = s.mem :: u.mem :: vs ∧ (s.mem :: u.mem :: vs).getLast? = some t.mem ∧
      ((∀ w f i, fetch s = .ok (w, f) → decodeWord w ≠ .ok i) → u.mem = s.mem) ∧
      (∀ w f f' i, fetch s = .ok (w, f) → decodeWord w = .ok i → f' = { f with pc := s.pc + 4 } →
        (storeTarget f' i = none → u.mem = s.mem) ∧
        ∀ va wd, storeTarget f' i = some (va, wd) →
          (∀ e, translate va .store f' = .error e → u.mem = s.mem) ∧
          ∀ pa, translate va .store f' = .ok pa →
            (busLoad pa wd f' = none → u.mem = s.mem) ∧
            ∀ a, (a < pa.toNat ∨ pa.toNat + wd.bytes ≤ a) → Cells.read u.mem a = Cells.read s.mem a) ∧
      ∀ p len start, p = timerCompare (letHostIn u) → len = p.disk.bufLenHi.toNat * 2 ^ 32 + p.disk.bufLenLo.toNat →
        start = p.disk.sector.toNat * 512 →
        ((∀ img, p.diskBacking = some img →
            ¬ (u.status = .running ∧ pollBlocked p = false ∧ p.uart.interrupting = false ∧ p.disk.notify ≠ 0xFFFFFFFF#32 ∧
              p.disk.direction ≠ 1 ∧ start + len ≤ img.length)) → vs = []) ∧
        (∀ img, p.diskBacking = some img → u.status = .running → pollBlocked p = false → p.uart.interrupting = false →
          p.disk.notify ≠ 0xFFFFFFFF#32 → p.disk.direction ≠ 1 → start + len ≤ img.length →
          ∃ r m, Passes (transferStore img start (p.disk.bufAddrHi ++ p.disk.bufAddrLo))
              { p with disk := { p.disk with notify := 0xFFFFFFFF#32 } } r m ∧
            vs = (List.range m).map (fun k => (r (k + 1)).mem) ∧
            (m = len ∨
              m < len ∧ transferStore img start (p.disk.bufAddrHi ++ p.disk.bufAddrLo) m (r m) = none)))

/-! ## Whole-machine frames -/

/-- R43: an instruction changes no integer register but the one its rd field names; and no byte of RAM but those of its store target (R218, R300), at
the address the meaning itself computes. Exceptions included. -/
def Obligations.OnlyNamedRegistersAndBytesChange : Prop :=
  ∀ i s t, exec i s = .next t →
    (∀ r, destReg i ≠ some r → t.reg r = s.reg r) ∧
    (storeTarget s i = none → t.mem = s.mem) ∧
    ∀ va w, storeTarget s i = some (va, w) →
      (∀ e, translate va .store s = .error e → t.mem = s.mem) ∧
      ∀ pa, translate va .store s = .ok pa → ∀ a, (a < pa.toNat ∨ pa.toNat + w.bytes ≤ a) →
        Cells.read t.mem a = Cells.read s.mem a

/-- R66, R440, R450: outside CSR instructions only the trap CSRs and mstatus change; a CSR instruction changes only its slot; and the mode changes only by
a trap entry, SRET or MRET. -/
def Obligations.CsrsAndModeChangeOnlyAsNamed : Prop :=
  ∀ i s t, exec i s = .next t →
    (∀ c, csrOperand i = some c → t.mode = s.mode ∧ ∀ a, a ≠ csrSlot c → t.csr a = s.csr a) ∧
    (csrOperand i = none →
      (∀ a, a ∉ [csrSepc, csrScause, csrStval, csrMepc, csrMcause, csrMtval, csrMstatus] → t.csr a = s.csr a) ∧
      (t.mode ≠ s.mode → i = .sret ∨ i = .mret ∨
        ∃ e r, r.mode = s.mode ∧ r.pc = s.pc ∧ r.csrs = s.csrs ∧ t = raise e r))
end

