-- ==== Sys2Proof/Laws/Cells.lean ====
section
/-! SUPPORT. The laws of sparse storage: read after write, and that every operation keeps the canonical form. -/

namespace Sys2Proof.Machine

variable {w : Nat}

/-! ## Read after write -/

theorem Cells.read_erase (m : Cells w) (a c : Nat) : (m.erase a).read c = if c = a then 0 else m.read c := by
  induction m with
  | nil => simp [Cells.erase, Cells.read]
  | cons p rest ih =>
    obtain ⟨k, v⟩ := p
    simp only [Cells.erase, Cells.read]
    split
    · subst_vars; rw [ih]; split <;> rename_i h
      · rfl
      · rw [if_neg (fun hh => h hh.symm)]
    · rename_i hk
      simp only [Cells.read]
      split
      · subst_vars; rw [if_neg hk]
      · exact ih

theorem Cells.read_insert (m : Cells w) (a c : Nat) (b : BitVec w) (h : c ≠ a) :
    (m.insert a b).read c = m.read c := by
  induction m with
  | nil => simp [Cells.insert, Cells.read, h.symm]
  | cons p rest ih =>
    obtain ⟨k, v⟩ := p
    simp only [Cells.insert]
    split
    · simp [Cells.read, h.symm]
    · simp only [Cells.read, ih]

/-- The address is not listed. -/
def Cells.unlisted (m : Cells w) (a : Nat) : Prop := ∀ p ∈ m, p.1 ≠ a

theorem Cells.unlisted_erase (m : Cells w) (a : Nat) : (m.erase a).unlisted a := by
  induction m with
  | nil => simp [Cells.erase, Cells.unlisted]
  | cons p rest ih =>
    obtain ⟨k, v⟩ := p
    simp only [Cells.erase]
    split
    · exact ih
    · rename_i hk
      intro q hq
      rcases List.mem_cons.mp hq with rfl | hq
      · exact hk
      · exact ih q hq

theorem Cells.read_insert_self (m : Cells w) (a : Nat) (b : BitVec w) (h : m.unlisted a) :
    (m.insert a b).read a = b := by
  induction m with
  | nil => simp [Cells.insert, Cells.read]
  | cons p rest ih =>
    obtain ⟨k, v⟩ := p
    simp only [Cells.insert]
    split
    · simp [Cells.read]
    · simp only [Cells.read]
      rw [if_neg (h (k, v) (List.mem_cons_self ..))]
      exact ih (fun q hq => h q (List.mem_cons_of_mem _ hq))

/-- Reading after a write: the value written at its address, the old value elsewhere. -/
theorem Cells.read_write (m : Cells w) (a c : Nat) (b : BitVec w) :
    (m.write a b).read c = if c = a then b else m.read c := by
  unfold Cells.write
  by_cases hb : b = 0
  · simp only [hb, ↓reduceIte, Cells.read_erase]
  · simp only [hb, ↓reduceIte]
    by_cases hc : c = a
    · subst hc; simp [Cells.read_insert_self _ _ _ (Cells.unlisted_erase m c)]
    · rw [Cells.read_insert _ _ _ _ hc, Cells.read_erase, if_neg hc, if_neg hc]

@[simp] theorem Cells.read_write_self (m : Cells w) (a : Nat) (b : BitVec w) : (m.write a b).read a = b := by
  simp [Cells.read_write]

theorem Cells.read_write_ne (m : Cells w) {a c : Nat} (b : BitVec w) (h : c ≠ a) :
    (m.write a b).read c = m.read c := by
  simp [Cells.read_write, h]

/-! ## The canonical form -/

theorem Cells.mem_erase {m : Cells w} {a : Nat} {p : Nat × BitVec w} (h : p ∈ m.erase a) : p ∈ m := by
  induction m with
  | nil => exact h
  | cons q rest ih =>
    obtain ⟨k, v⟩ := q
    simp only [Cells.erase] at h
    split at h
    · exact List.mem_cons_of_mem _ (ih h)
    · rcases List.mem_cons.mp h with rfl | h
      · exact List.mem_cons_self ..
      · exact List.mem_cons_of_mem _ (ih h)

theorem Cells.mem_insert {m : Cells w} {a : Nat} {b : BitVec w} {p : Nat × BitVec w} (h : p ∈ m.insert a b) :
    p = (a, b) ∨ p ∈ m := by
  induction m with
  | nil => simpa [Cells.insert] using h
  | cons q rest ih =>
    obtain ⟨k, v⟩ := q
    simp only [Cells.insert] at h
    split at h
    · simpa using h
    · rcases List.mem_cons.mp h with rfl | h
      · exact .inr (List.mem_cons_self ..)
      · rcases ih h with h | h
        · exact .inl h
        · exact .inr (List.mem_cons_of_mem _ h)

/-- Every entry after a write is the one written or an old one. -/
theorem Cells.mem_write {m : Cells w} {a : Nat} {b : BitVec w} {p : Nat × BitVec w} (h : p ∈ m.write a b) :
    p = (a, b) ∨ p ∈ m := by
  unfold Cells.write at h
  split at h
  · exact .inr (Cells.mem_erase h)
  · rcases Cells.mem_insert h with h | h
    · exact .inl h
    · exact .inr (Cells.mem_erase h)

theorem Cells.sorted_erase {m : Cells w} (a : Nat) (h : m.Pairwise (fun c d => c.1 < d.1)) :
    (m.erase a).Pairwise (fun c d => c.1 < d.1) := by
  induction m with
  | nil => exact h
  | cons p rest ih =>
    obtain ⟨k, v⟩ := p
    rw [List.pairwise_cons] at h
    simp only [Cells.erase]
    split
    · exact ih h.2
    · exact List.pairwise_cons.mpr ⟨fun q hq => h.1 q (Cells.mem_erase hq), ih h.2⟩

theorem Cells.sorted_insert {m : Cells w} (a : Nat) (b : BitVec w) (h : m.Pairwise (fun c d => c.1 < d.1))
    (hu : m.unlisted a) : (m.insert a b).Pairwise (fun c d => c.1 < d.1) := by
  induction m with
  | nil => simp [Cells.insert]
  | cons p rest ih =>
    obtain ⟨k, v⟩ := p
    have hk : k ≠ a := hu (k, v) (List.mem_cons_self ..)
    have h' := List.pairwise_cons.mp h
    simp only [Cells.insert]
    split
    · rename_i hlt
      refine List.pairwise_cons.mpr ⟨fun q hq => ?_, h⟩
      rcases List.mem_cons.mp hq with rfl | hq
      · exact hlt
      · exact Nat.lt_trans hlt (h'.1 q hq)
    · rename_i hge
      refine List.pairwise_cons.mpr ⟨fun q hq => ?_, ih h'.2 (fun q hq => hu q (List.mem_cons_of_mem _ hq))⟩
      rcases Cells.mem_insert hq with rfl | hq
      · simp only; omega
      · exact h'.1 q hq

/-- A write keeps the canonical form. -/
theorem Cells.wf_write {m : Cells w} (a : Nat) (b : BitVec w) (h : m.wf) : (m.write a b).wf := by
  unfold Cells.write
  split
  · exact ⟨Cells.sorted_erase a h.1, fun p hp => h.2 p (Cells.mem_erase hp)⟩
  · rename_i hb
    refine ⟨Cells.sorted_insert a b (Cells.sorted_erase a h.1) (Cells.unlisted_erase m a), fun p hp => ?_⟩
    rcases Cells.mem_insert hp with rfl | hp
    · exact hb
    · exact h.2 p (Cells.mem_erase hp)

/-- Writing the value already held changes nothing in the canonical form. -/
theorem Cells.write_read_self {m : Cells w} (a : Nat) (h : m.wf) : m.write a (m.read a) = m := by
  have erase_id : ∀ l : Cells w, l.unlisted a → l.erase a = l := by
    intro l hl
    induction l with
    | nil => rfl
    | cons p rest ih =>
      obtain ⟨k, v⟩ := p
      simp only [Cells.erase]
      rw [if_neg (hl (k, v) (List.mem_cons_self ..)), ih (fun q hq => hl q (List.mem_cons_of_mem _ hq))]
  have read_unlisted : ∀ l : Cells w, l.unlisted a → l.read a = 0 := by
    intro l hl
    induction l with
    | nil => rfl
    | cons p rest ih =>
      obtain ⟨k, v⟩ := p
      simp only [Cells.read]
      rw [if_neg (hl (k, v) (List.mem_cons_self ..)), ih (fun q hq => hl q (List.mem_cons_of_mem _ hq))]
  induction m with
  | nil => simp [Cells.read, Cells.write, Cells.erase]
  | cons p rest ih =>
    obtain ⟨k, v⟩ := p
    have hs := List.pairwise_cons.mp h.1
    have hr : Cells.wf rest := ⟨hs.2, fun q hq => h.2 q (List.mem_cons_of_mem _ hq)⟩
    by_cases hk : k = a
    · subst hk
      have hu : Cells.unlisted rest k := fun q hq hqk => by have := hs.1 q hq; simp only at this; omega
      have hv : v ≠ 0 := h.2 (k, v) (List.mem_cons_self ..)
      simp only [Cells.read, Cells.write, Cells.erase, ↓reduceIte, hv, erase_id rest hu]
      cases rest with
      | nil => rfl
      | cons q rest' =>
        have := hs.1 q (List.mem_cons_self ..)
        simp only [Cells.insert]
        rw [if_pos this]
    · have := ih hr
      simp only [Cells.read, Cells.write, Cells.erase, if_neg hk] at this ⊢
      split
      · rename_i hz; rw [if_pos hz] at this; rw [this]
      · rename_i hz
        rw [if_neg hz] at this
        simp only [Cells.insert]
        split
        · rename_i hlt
          exfalso
          have hu : Cells.unlisted rest a := fun q hq hqa => by have := hs.1 q hq; simp only at this; omega
          exact hz (read_unlisted rest hu)
        · rw [this]

/-! ## Runs of bytes -/

/-- A store of bytes leaves every address outside them alone (R101). -/
theorem Memory.read_writeBytes_outside (n : Nat) (m : Memory) (a : Nat) (v : Word) (c : Nat) (h : c < a ∨ a + n ≤ c) :
    Cells.read (Memory.writeBytes m a v n) c = Cells.read m c := by
  induction n generalizing m a v with
  | zero => rfl
  | succ n ih =>
    unfold Memory.writeBytes
    rw [ih _ _ _ (by omega), Cells.read_write_ne _ _ (by omega)]

/-- A store of bytes puts byte k of the value at address a + k (R101). -/
theorem Memory.read_writeBytes_inside (n : Nat) (m : Memory) (a : Nat) (v : Word) (k : Nat) (h : k < n) :
    Cells.read (Memory.writeBytes m a v n) (a + k) = (v >>> (8 * k)).setWidth 8 := by
  induction n generalizing m a v k with
  | zero => omega
  | succ n ih =>
    unfold Memory.writeBytes
    cases k with
    | zero =>
      rw [Memory.read_writeBytes_outside _ _ _ _ _ (by omega)]
      simp
    | succ k =>
      rw [show a + (k + 1) = (a + 1) + k by omega, ih _ _ _ _ (by omega), ← BitVec.shiftRight_add,
        show 8 + 8 * k = 8 * (k + 1) by omega]

/-- A store of bytes keeps the canonical form. -/
theorem Memory.wf_writeBytes (n : Nat) (m : Memory) (a : Nat) (v : Word) (h : Memory.wf m) :
    Memory.wf (Memory.writeBytes m a v n) := by
  induction n generalizing m a v with
  | zero => exact h
  | succ n ih => exact ih _ _ _ (Cells.wf_write _ _ h)

/-- Every entry after a store of bytes is an old one or at one of the addresses stored to. -/
theorem Memory.mem_writeBytes (n : Nat) (m : Memory) (a : Nat) (v : Word) (p : Host.Cell)
    (h : p ∈ Memory.writeBytes m a v n) : p ∈ m ∨ (a ≤ p.1 ∧ p.1 < a + n) := by
  induction n generalizing m a v with
  | zero => exact .inl h
  | succ n ih =>
    rcases ih _ _ _ h with h | h
    · rcases Cells.mem_write h with rfl | h
      · exact .inr ⟨by simp, by simp⟩
      · exact .inl h
    · exact .inr ⟨by omega, by omega⟩

/-- Loading a list of bytes keeps the canonical form. -/
theorem Memory.wf_load (bs : List Byte) (m : Memory) (a : Nat) (h : Memory.wf m) : Memory.wf (Memory.load m a bs) := by
  induction bs generalizing m a with
  | nil => exact h
  | cons b bs ih => exact ih _ _ (Cells.wf_write _ _ h)

/-- Reading bytes depends on those bytes alone. -/
theorem Memory.readBytes_congr (n : Nat) (m m' : Memory) (a : Nat)
    (h : ∀ k < n, Cells.read m (a + k) = Cells.read m' (a + k)) :
    Memory.readBytes m a n = Memory.readBytes m' a n := by
  induction n generalizing a with
  | zero => rfl
  | succ n ih =>
    unfold Memory.readBytes
    have h0 := h 0 (by omega)
    simp only [Nat.add_zero] at h0
    rw [h0, ih (a + 1) (fun k hk => by rw [show a + 1 + k = a + (k + 1) by omega]; exact h (k + 1) (by omega))]

/-- The number a little-endian run of bytes stands for (R100). -/
theorem Memory.toNat_readBytes (n : Nat) (m : Memory) (a : Nat) (h : n ≤ 8) :
    (Memory.readBytes m a n).toNat = ((List.range n).map (fun k => (Cells.read m (a + k)).toNat * 256 ^ k)).sum ∧
      (Memory.readBytes m a n).toNat < 256 ^ n := by
  induction n generalizing a with
  | zero => exact ⟨rfl, by simp [Memory.readBytes]⟩
  | succ n ih =>
    obtain ⟨he, hl⟩ := ih (a + 1) (by omega)
    have hp : (256 : Nat) ^ n ≤ 256 ^ 7 := Nat.pow_le_pow_right (by decide) (by omega)
    have hb : (Cells.read m a).toNat < 256 := (Cells.read m a).isLt
    have hs : (Memory.readBytes m a (n + 1)).toNat =
        (Cells.read m a).toNat + 256 * (Memory.readBytes m (a + 1) n).toNat := by
      have hshift : (Memory.readBytes m (a + 1) n <<< 8).toNat = (Memory.readBytes m (a + 1) n).toNat <<< 8 := by
        rw [BitVec.toNat_shiftLeft, Nat.shiftLeft_eq]
        apply Nat.mod_eq_of_lt
        omega
      show (_ ||| _ : Word).toNat = _
      rw [BitVec.toNat_or, hshift, BitVec.toNat_setWidth, Nat.mod_eq_of_lt (by omega), Nat.or_comm,
        ← Nat.shiftLeft_add_eq_or_of_lt (show _ < 2 ^ 8 from hb), Nat.shiftLeft_eq]
      omega
    rw [hs]
    refine ⟨?_, by rw [Nat.pow_succ]; omega⟩
    rw [he, List.range_succ_eq_map, List.map_cons, List.sum_cons, List.map_map, ← List.sum_map_mul_left]
    simp only [Nat.add_zero, Nat.pow_zero, Nat.mul_one]
    congr 2
    apply List.map_congr_left
    intro k _
    simp only [Function.comp, Nat.succ_eq_add_one, Nat.pow_succ]
    rw [show a + 1 + k = a + (k + 1) by omega]
    ring

end Sys2Proof.Machine
end

