-- ==== Sys2Proof/Laws/State.lean ====
section
/-! SUPPORT. What each update of State does to each field, one lemma each, true by rfl; and the accessors over the updates. -/

namespace Sys2Proof.Machine

/-! ## setPc -/

@[simp] theorem setPc_cfg (s : State) (v : Word) : (s.setPc v).cfg = s.cfg := rfl
@[simp] theorem setPc_regs (s : State) (v : Word) : (s.setPc v).regs = s.regs := rfl
@[simp] theorem setPc_pc (s : State) (v : Word) : (s.setPc v).pc = v := rfl
@[simp] theorem setPc_mode (s : State) (v : Word) : (s.setPc v).mode = s.mode := rfl
@[simp] theorem setPc_pagingOn (s : State) (v : Word) : (s.setPc v).pagingOn = s.pagingOn := rfl
@[simp] theorem setPc_ptRoot (s : State) (v : Word) : (s.setPc v).ptRoot = s.ptRoot := rfl
@[simp] theorem setPc_csrs (s : State) (v : Word) : (s.setPc v).csrs = s.csrs := rfl
@[simp] theorem setPc_mem (s : State) (v : Word) : (s.setPc v).mem = s.mem := rfl
@[simp] theorem setPc_clint (s : State) (v : Word) : (s.setPc v).clint = s.clint := rfl
@[simp] theorem setPc_plic (s : State) (v : Word) : (s.setPc v).plic = s.plic := rfl
@[simp] theorem setPc_uart (s : State) (v : Word) : (s.setPc v).uart = s.uart := rfl
@[simp] theorem setPc_disk (s : State) (v : Word) : (s.setPc v).disk = s.disk := rfl
@[simp] theorem setPc_diskBacking (s : State) (v : Word) : (s.setPc v).diskBacking = s.diskBacking := rfl
@[simp] theorem setPc_kbdQueue (s : State) (v : Word) : (s.setPc v).kbdQueue = s.kbdQueue := rfl
@[simp] theorem setPc_uartOut (s : State) (v : Word) : (s.setPc v).uartOut = s.uartOut := rfl
@[simp] theorem setPc_status (s : State) (v : Word) : (s.setPc v).status = s.status := rfl
@[simp] theorem setPc_hostSchedule (s : State) (v : Word) : (s.setPc v).hostSchedule = s.hostSchedule := rfl

/-! ## setMode -/

@[simp] theorem setMode_cfg (s : State) (md : Mode) : (s.setMode md).cfg = s.cfg := rfl
@[simp] theorem setMode_regs (s : State) (md : Mode) : (s.setMode md).regs = s.regs := rfl
@[simp] theorem setMode_pc (s : State) (md : Mode) : (s.setMode md).pc = s.pc := rfl
@[simp] theorem setMode_mode (s : State) (md : Mode) : (s.setMode md).mode = md := rfl
@[simp] theorem setMode_pagingOn (s : State) (md : Mode) : (s.setMode md).pagingOn = s.pagingOn := rfl
@[simp] theorem setMode_ptRoot (s : State) (md : Mode) : (s.setMode md).ptRoot = s.ptRoot := rfl
@[simp] theorem setMode_csrs (s : State) (md : Mode) : (s.setMode md).csrs = s.csrs := rfl
@[simp] theorem setMode_mem (s : State) (md : Mode) : (s.setMode md).mem = s.mem := rfl
@[simp] theorem setMode_clint (s : State) (md : Mode) : (s.setMode md).clint = s.clint := rfl
@[simp] theorem setMode_plic (s : State) (md : Mode) : (s.setMode md).plic = s.plic := rfl
@[simp] theorem setMode_uart (s : State) (md : Mode) : (s.setMode md).uart = s.uart := rfl
@[simp] theorem setMode_disk (s : State) (md : Mode) : (s.setMode md).disk = s.disk := rfl
@[simp] theorem setMode_diskBacking (s : State) (md : Mode) : (s.setMode md).diskBacking = s.diskBacking := rfl
@[simp] theorem setMode_kbdQueue (s : State) (md : Mode) : (s.setMode md).kbdQueue = s.kbdQueue := rfl
@[simp] theorem setMode_uartOut (s : State) (md : Mode) : (s.setMode md).uartOut = s.uartOut := rfl
@[simp] theorem setMode_status (s : State) (md : Mode) : (s.setMode md).status = s.status := rfl
@[simp] theorem setMode_hostSchedule (s : State) (md : Mode) : (s.setMode md).hostSchedule = s.hostSchedule := rfl

/-! ## setStatus -/

@[simp] theorem setStatus_cfg (s : State) (st : Status) : (s.setStatus st).cfg = s.cfg := rfl
@[simp] theorem setStatus_regs (s : State) (st : Status) : (s.setStatus st).regs = s.regs := rfl
@[simp] theorem setStatus_pc (s : State) (st : Status) : (s.setStatus st).pc = s.pc := rfl
@[simp] theorem setStatus_mode (s : State) (st : Status) : (s.setStatus st).mode = s.mode := rfl
@[simp] theorem setStatus_pagingOn (s : State) (st : Status) : (s.setStatus st).pagingOn = s.pagingOn := rfl
@[simp] theorem setStatus_ptRoot (s : State) (st : Status) : (s.setStatus st).ptRoot = s.ptRoot := rfl
@[simp] theorem setStatus_csrs (s : State) (st : Status) : (s.setStatus st).csrs = s.csrs := rfl
@[simp] theorem setStatus_mem (s : State) (st : Status) : (s.setStatus st).mem = s.mem := rfl
@[simp] theorem setStatus_clint (s : State) (st : Status) : (s.setStatus st).clint = s.clint := rfl
@[simp] theorem setStatus_plic (s : State) (st : Status) : (s.setStatus st).plic = s.plic := rfl
@[simp] theorem setStatus_uart (s : State) (st : Status) : (s.setStatus st).uart = s.uart := rfl
@[simp] theorem setStatus_disk (s : State) (st : Status) : (s.setStatus st).disk = s.disk := rfl
@[simp] theorem setStatus_diskBacking (s : State) (st : Status) : (s.setStatus st).diskBacking = s.diskBacking := rfl
@[simp] theorem setStatus_kbdQueue (s : State) (st : Status) : (s.setStatus st).kbdQueue = s.kbdQueue := rfl
@[simp] theorem setStatus_uartOut (s : State) (st : Status) : (s.setStatus st).uartOut = s.uartOut := rfl
@[simp] theorem setStatus_status (s : State) (st : Status) : (s.setStatus st).status = st := rfl
@[simp] theorem setStatus_hostSchedule (s : State) (st : Status) : (s.setStatus st).hostSchedule = s.hostSchedule := rfl

/-! ## setCsr -/

@[simp] theorem setCsr_cfg (s : State) (a : CsrNum) (v : Word) : (s.setCsr a v).cfg = s.cfg := rfl
@[simp] theorem setCsr_regs (s : State) (a : CsrNum) (v : Word) : (s.setCsr a v).regs = s.regs := rfl
@[simp] theorem setCsr_pc (s : State) (a : CsrNum) (v : Word) : (s.setCsr a v).pc = s.pc := rfl
@[simp] theorem setCsr_mode (s : State) (a : CsrNum) (v : Word) : (s.setCsr a v).mode = s.mode := rfl
@[simp] theorem setCsr_pagingOn (s : State) (a : CsrNum) (v : Word) : (s.setCsr a v).pagingOn = s.pagingOn := rfl
@[simp] theorem setCsr_ptRoot (s : State) (a : CsrNum) (v : Word) : (s.setCsr a v).ptRoot = s.ptRoot := rfl
@[simp] theorem setCsr_csrs (s : State) (a : CsrNum) (v : Word) : (s.setCsr a v).csrs = Cells.write s.csrs a.toNat v := rfl
@[simp] theorem setCsr_mem (s : State) (a : CsrNum) (v : Word) : (s.setCsr a v).mem = s.mem := rfl
@[simp] theorem setCsr_clint (s : State) (a : CsrNum) (v : Word) : (s.setCsr a v).clint = s.clint := rfl
@[simp] theorem setCsr_plic (s : State) (a : CsrNum) (v : Word) : (s.setCsr a v).plic = s.plic := rfl
@[simp] theorem setCsr_uart (s : State) (a : CsrNum) (v : Word) : (s.setCsr a v).uart = s.uart := rfl
@[simp] theorem setCsr_disk (s : State) (a : CsrNum) (v : Word) : (s.setCsr a v).disk = s.disk := rfl
@[simp] theorem setCsr_diskBacking (s : State) (a : CsrNum) (v : Word) : (s.setCsr a v).diskBacking = s.diskBacking := rfl
@[simp] theorem setCsr_kbdQueue (s : State) (a : CsrNum) (v : Word) : (s.setCsr a v).kbdQueue = s.kbdQueue := rfl
@[simp] theorem setCsr_uartOut (s : State) (a : CsrNum) (v : Word) : (s.setCsr a v).uartOut = s.uartOut := rfl
@[simp] theorem setCsr_status (s : State) (a : CsrNum) (v : Word) : (s.setCsr a v).status = s.status := rfl
@[simp] theorem setCsr_hostSchedule (s : State) (a : CsrNum) (v : Word) : (s.setCsr a v).hostSchedule = s.hostSchedule := rfl

/-! ## setUartByte -/

@[simp] theorem setUartByte_cfg (s : State) (off : Nat) (b : Byte) : (s.setUartByte off b).cfg = s.cfg := rfl
@[simp] theorem setUartByte_regs (s : State) (off : Nat) (b : Byte) : (s.setUartByte off b).regs = s.regs := rfl
@[simp] theorem setUartByte_pc (s : State) (off : Nat) (b : Byte) : (s.setUartByte off b).pc = s.pc := rfl
@[simp] theorem setUartByte_mode (s : State) (off : Nat) (b : Byte) : (s.setUartByte off b).mode = s.mode := rfl
@[simp] theorem setUartByte_pagingOn (s : State) (off : Nat) (b : Byte) : (s.setUartByte off b).pagingOn = s.pagingOn := rfl
@[simp] theorem setUartByte_ptRoot (s : State) (off : Nat) (b : Byte) : (s.setUartByte off b).ptRoot = s.ptRoot := rfl
@[simp] theorem setUartByte_csrs (s : State) (off : Nat) (b : Byte) : (s.setUartByte off b).csrs = s.csrs := rfl
@[simp] theorem setUartByte_mem (s : State) (off : Nat) (b : Byte) : (s.setUartByte off b).mem = s.mem := rfl
@[simp] theorem setUartByte_clint (s : State) (off : Nat) (b : Byte) : (s.setUartByte off b).clint = s.clint := rfl
@[simp] theorem setUartByte_plic (s : State) (off : Nat) (b : Byte) : (s.setUartByte off b).plic = s.plic := rfl
@[simp] theorem setUartByte_uart (s : State) (off : Nat) (b : Byte) : (s.setUartByte off b).uart = { s.uart with bytes := Cells.write s.uart.bytes off b } := rfl
@[simp] theorem setUartByte_disk (s : State) (off : Nat) (b : Byte) : (s.setUartByte off b).disk = s.disk := rfl
@[simp] theorem setUartByte_diskBacking (s : State) (off : Nat) (b : Byte) : (s.setUartByte off b).diskBacking = s.diskBacking := rfl
@[simp] theorem setUartByte_kbdQueue (s : State) (off : Nat) (b : Byte) : (s.setUartByte off b).kbdQueue = s.kbdQueue := rfl
@[simp] theorem setUartByte_uartOut (s : State) (off : Nat) (b : Byte) : (s.setUartByte off b).uartOut = s.uartOut := rfl
@[simp] theorem setUartByte_status (s : State) (off : Nat) (b : Byte) : (s.setUartByte off b).status = s.status := rfl
@[simp] theorem setUartByte_hostSchedule (s : State) (off : Nat) (b : Byte) : (s.setUartByte off b).hostSchedule = s.hostSchedule := rfl

/-! ## setBacking -/

@[simp] theorem setBacking_cfg (s : State) (k : Nat) (b : Byte) : (s.setBacking k b).cfg = s.cfg := rfl
@[simp] theorem setBacking_regs (s : State) (k : Nat) (b : Byte) : (s.setBacking k b).regs = s.regs := rfl
@[simp] theorem setBacking_pc (s : State) (k : Nat) (b : Byte) : (s.setBacking k b).pc = s.pc := rfl
@[simp] theorem setBacking_mode (s : State) (k : Nat) (b : Byte) : (s.setBacking k b).mode = s.mode := rfl
@[simp] theorem setBacking_pagingOn (s : State) (k : Nat) (b : Byte) : (s.setBacking k b).pagingOn = s.pagingOn := rfl
@[simp] theorem setBacking_ptRoot (s : State) (k : Nat) (b : Byte) : (s.setBacking k b).ptRoot = s.ptRoot := rfl
@[simp] theorem setBacking_csrs (s : State) (k : Nat) (b : Byte) : (s.setBacking k b).csrs = s.csrs := rfl
@[simp] theorem setBacking_mem (s : State) (k : Nat) (b : Byte) : (s.setBacking k b).mem = s.mem := rfl
@[simp] theorem setBacking_clint (s : State) (k : Nat) (b : Byte) : (s.setBacking k b).clint = s.clint := rfl
@[simp] theorem setBacking_plic (s : State) (k : Nat) (b : Byte) : (s.setBacking k b).plic = s.plic := rfl
@[simp] theorem setBacking_uart (s : State) (k : Nat) (b : Byte) : (s.setBacking k b).uart = s.uart := rfl
@[simp] theorem setBacking_disk (s : State) (k : Nat) (b : Byte) : (s.setBacking k b).disk = s.disk := rfl
@[simp] theorem setBacking_diskBacking (s : State) (k : Nat) (b : Byte) : (s.setBacking k b).diskBacking = s.diskBacking.map (fun img => img.set k b) := rfl
@[simp] theorem setBacking_kbdQueue (s : State) (k : Nat) (b : Byte) : (s.setBacking k b).kbdQueue = s.kbdQueue := rfl
@[simp] theorem setBacking_uartOut (s : State) (k : Nat) (b : Byte) : (s.setBacking k b).uartOut = s.uartOut := rfl
@[simp] theorem setBacking_status (s : State) (k : Nat) (b : Byte) : (s.setBacking k b).status = s.status := rfl
@[simp] theorem setBacking_hostSchedule (s : State) (k : Nat) (b : Byte) : (s.setBacking k b).hostSchedule = s.hostSchedule := rfl

/-! ## refreshPaging -/

@[simp] theorem refreshPaging_cfg (s : State) (v : Word) : (refreshPaging s v).cfg = s.cfg := rfl
@[simp] theorem refreshPaging_regs (s : State) (v : Word) : (refreshPaging s v).regs = s.regs := rfl
@[simp] theorem refreshPaging_pc (s : State) (v : Word) : (refreshPaging s v).pc = s.pc := rfl
@[simp] theorem refreshPaging_mode (s : State) (v : Word) : (refreshPaging s v).mode = s.mode := rfl
@[simp] theorem refreshPaging_pagingOn (s : State) (v : Word) : (refreshPaging s v).pagingOn = (v >>> 60 == 8#64) := rfl
@[simp] theorem refreshPaging_ptRoot (s : State) (v : Word) : (refreshPaging s v).ptRoot = (v.extractLsb' 0 44).setWidth 64 <<< 12 := rfl
@[simp] theorem refreshPaging_csrs (s : State) (v : Word) : (refreshPaging s v).csrs = s.csrs := rfl
@[simp] theorem refreshPaging_mem (s : State) (v : Word) : (refreshPaging s v).mem = s.mem := rfl
@[simp] theorem refreshPaging_clint (s : State) (v : Word) : (refreshPaging s v).clint = s.clint := rfl
@[simp] theorem refreshPaging_plic (s : State) (v : Word) : (refreshPaging s v).plic = s.plic := rfl
@[simp] theorem refreshPaging_uart (s : State) (v : Word) : (refreshPaging s v).uart = s.uart := rfl
@[simp] theorem refreshPaging_disk (s : State) (v : Word) : (refreshPaging s v).disk = s.disk := rfl
@[simp] theorem refreshPaging_diskBacking (s : State) (v : Word) : (refreshPaging s v).diskBacking = s.diskBacking := rfl
@[simp] theorem refreshPaging_kbdQueue (s : State) (v : Word) : (refreshPaging s v).kbdQueue = s.kbdQueue := rfl
@[simp] theorem refreshPaging_uartOut (s : State) (v : Word) : (refreshPaging s v).uartOut = s.uartOut := rfl
@[simp] theorem refreshPaging_status (s : State) (v : Word) : (refreshPaging s v).status = s.status := rfl
@[simp] theorem refreshPaging_hostSchedule (s : State) (v : Word) : (refreshPaging s v).hostSchedule = s.hostSchedule := rfl

/-! ## dmaDone -/

@[simp] theorem dmaDone_cfg (s : State) : (dmaDone s).cfg = s.cfg := rfl
@[simp] theorem dmaDone_regs (s : State) : (dmaDone s).regs = s.regs := rfl
@[simp] theorem dmaDone_pc (s : State) : (dmaDone s).pc = s.pc := rfl
@[simp] theorem dmaDone_mode (s : State) : (dmaDone s).mode = s.mode := rfl
@[simp] theorem dmaDone_pagingOn (s : State) : (dmaDone s).pagingOn = s.pagingOn := rfl
@[simp] theorem dmaDone_ptRoot (s : State) : (dmaDone s).ptRoot = s.ptRoot := rfl
@[simp] theorem dmaDone_csrs (s : State) : (dmaDone s).csrs = s.csrs := rfl
@[simp] theorem dmaDone_mem (s : State) : (dmaDone s).mem = s.mem := rfl
@[simp] theorem dmaDone_clint (s : State) : (dmaDone s).clint = s.clint := rfl
@[simp] theorem dmaDone_plic (s : State) : (dmaDone s).plic = s.plic := rfl
@[simp] theorem dmaDone_uart (s : State) : (dmaDone s).uart = s.uart := rfl
@[simp] theorem dmaDone_disk (s : State) : (dmaDone s).disk = { s.disk with done := 0 } := rfl
@[simp] theorem dmaDone_diskBacking (s : State) : (dmaDone s).diskBacking = s.diskBacking := rfl
@[simp] theorem dmaDone_kbdQueue (s : State) : (dmaDone s).kbdQueue = s.kbdQueue := rfl
@[simp] theorem dmaDone_uartOut (s : State) : (dmaDone s).uartOut = s.uartOut := rfl
@[simp] theorem dmaDone_status (s : State) : (dmaDone s).status = s.status := rfl
@[simp] theorem dmaDone_hostSchedule (s : State) : (dmaDone s).hostSchedule = s.hostSchedule := rfl

/-! ## hostError -/

@[simp] theorem hostError_cfg (s : State) (r : HostError) : (hostError r s).cfg = s.cfg := rfl
@[simp] theorem hostError_regs (s : State) (r : HostError) : (hostError r s).regs = s.regs := rfl
@[simp] theorem hostError_pc (s : State) (r : HostError) : (hostError r s).pc = s.pc := rfl
@[simp] theorem hostError_mode (s : State) (r : HostError) : (hostError r s).mode = s.mode := rfl
@[simp] theorem hostError_pagingOn (s : State) (r : HostError) : (hostError r s).pagingOn = s.pagingOn := rfl
@[simp] theorem hostError_ptRoot (s : State) (r : HostError) : (hostError r s).ptRoot = s.ptRoot := rfl
@[simp] theorem hostError_csrs (s : State) (r : HostError) : (hostError r s).csrs = s.csrs := rfl
@[simp] theorem hostError_mem (s : State) (r : HostError) : (hostError r s).mem = s.mem := rfl
@[simp] theorem hostError_clint (s : State) (r : HostError) : (hostError r s).clint = s.clint := rfl
@[simp] theorem hostError_plic (s : State) (r : HostError) : (hostError r s).plic = s.plic := rfl
@[simp] theorem hostError_uart (s : State) (r : HostError) : (hostError r s).uart = s.uart := rfl
@[simp] theorem hostError_disk (s : State) (r : HostError) : (hostError r s).disk = s.disk := rfl
@[simp] theorem hostError_diskBacking (s : State) (r : HostError) : (hostError r s).diskBacking = s.diskBacking := rfl
@[simp] theorem hostError_kbdQueue (s : State) (r : HostError) : (hostError r s).kbdQueue = s.kbdQueue := rfl
@[simp] theorem hostError_uartOut (s : State) (r : HostError) : (hostError r s).uartOut = s.uartOut := rfl
@[simp] theorem hostError_status (s : State) (r : HostError) : (hostError r s).status = .hostError r := rfl
@[simp] theorem hostError_hostSchedule (s : State) (r : HostError) : (hostError r s).hostSchedule = s.hostSchedule := rfl

/-! ## kbdPushScancode -/

@[simp] theorem kbdPushScancode_cfg (s : State) (v : Word32) : (kbdPushScancode v s).cfg = s.cfg := rfl
@[simp] theorem kbdPushScancode_regs (s : State) (v : Word32) : (kbdPushScancode v s).regs = s.regs := rfl
@[simp] theorem kbdPushScancode_pc (s : State) (v : Word32) : (kbdPushScancode v s).pc = s.pc := rfl
@[simp] theorem kbdPushScancode_mode (s : State) (v : Word32) : (kbdPushScancode v s).mode = s.mode := rfl
@[simp] theorem kbdPushScancode_pagingOn (s : State) (v : Word32) : (kbdPushScancode v s).pagingOn = s.pagingOn := rfl
@[simp] theorem kbdPushScancode_ptRoot (s : State) (v : Word32) : (kbdPushScancode v s).ptRoot = s.ptRoot := rfl
@[simp] theorem kbdPushScancode_csrs (s : State) (v : Word32) : (kbdPushScancode v s).csrs = s.csrs := rfl
@[simp] theorem kbdPushScancode_mem (s : State) (v : Word32) : (kbdPushScancode v s).mem = s.mem := rfl
@[simp] theorem kbdPushScancode_clint (s : State) (v : Word32) : (kbdPushScancode v s).clint = s.clint := rfl
@[simp] theorem kbdPushScancode_plic (s : State) (v : Word32) : (kbdPushScancode v s).plic = s.plic := rfl
@[simp] theorem kbdPushScancode_uart (s : State) (v : Word32) : (kbdPushScancode v s).uart = s.uart := rfl
@[simp] theorem kbdPushScancode_disk (s : State) (v : Word32) : (kbdPushScancode v s).disk = s.disk := rfl
@[simp] theorem kbdPushScancode_diskBacking (s : State) (v : Word32) : (kbdPushScancode v s).diskBacking = s.diskBacking := rfl
@[simp] theorem kbdPushScancode_kbdQueue (s : State) (v : Word32) : (kbdPushScancode v s).kbdQueue = s.kbdQueue ++ [v] := rfl
@[simp] theorem kbdPushScancode_uartOut (s : State) (v : Word32) : (kbdPushScancode v s).uartOut = s.uartOut := rfl
@[simp] theorem kbdPushScancode_status (s : State) (v : Word32) : (kbdPushScancode v s).status = s.status := rfl
@[simp] theorem kbdPushScancode_hostSchedule (s : State) (v : Word32) : (kbdPushScancode v s).hostSchedule = s.hostSchedule := rfl

/-! ## setReg -/

@[simp] theorem setReg_cfg (s : State) (r : Reg) (v : Word) : (s.setReg r v).cfg = s.cfg := by
  unfold State.setReg; split <;> rfl
@[simp] theorem setReg_pc (s : State) (r : Reg) (v : Word) : (s.setReg r v).pc = s.pc := by
  unfold State.setReg; split <;> rfl
@[simp] theorem setReg_mode (s : State) (r : Reg) (v : Word) : (s.setReg r v).mode = s.mode := by
  unfold State.setReg; split <;> rfl
@[simp] theorem setReg_pagingOn (s : State) (r : Reg) (v : Word) : (s.setReg r v).pagingOn = s.pagingOn := by
  unfold State.setReg; split <;> rfl
@[simp] theorem setReg_ptRoot (s : State) (r : Reg) (v : Word) : (s.setReg r v).ptRoot = s.ptRoot := by
  unfold State.setReg; split <;> rfl
@[simp] theorem setReg_csrs (s : State) (r : Reg) (v : Word) : (s.setReg r v).csrs = s.csrs := by
  unfold State.setReg; split <;> rfl
@[simp] theorem setReg_mem (s : State) (r : Reg) (v : Word) : (s.setReg r v).mem = s.mem := by
  unfold State.setReg; split <;> rfl
@[simp] theorem setReg_clint (s : State) (r : Reg) (v : Word) : (s.setReg r v).clint = s.clint := by
  unfold State.setReg; split <;> rfl
@[simp] theorem setReg_plic (s : State) (r : Reg) (v : Word) : (s.setReg r v).plic = s.plic := by
  unfold State.setReg; split <;> rfl
@[simp] theorem setReg_uart (s : State) (r : Reg) (v : Word) : (s.setReg r v).uart = s.uart := by
  unfold State.setReg; split <;> rfl
@[simp] theorem setReg_disk (s : State) (r : Reg) (v : Word) : (s.setReg r v).disk = s.disk := by
  unfold State.setReg; split <;> rfl
@[simp] theorem setReg_diskBacking (s : State) (r : Reg) (v : Word) : (s.setReg r v).diskBacking = s.diskBacking := by
  unfold State.setReg; split <;> rfl
@[simp] theorem setReg_kbdQueue (s : State) (r : Reg) (v : Word) : (s.setReg r v).kbdQueue = s.kbdQueue := by
  unfold State.setReg; split <;> rfl
@[simp] theorem setReg_uartOut (s : State) (r : Reg) (v : Word) : (s.setReg r v).uartOut = s.uartOut := by
  unfold State.setReg; split <;> rfl
@[simp] theorem setReg_status (s : State) (r : Reg) (v : Word) : (s.setReg r v).status = s.status := by
  unfold State.setReg; split <;> rfl
@[simp] theorem setReg_hostSchedule (s : State) (r : Reg) (v : Word) : (s.setReg r v).hostSchedule = s.hostSchedule := by
  unfold State.setReg; split <;> rfl

/-- Reading a register after a write (R41, R43). -/
theorem reg_setReg (s : State) (r q : Reg) (v : Word) :
    (s.setReg r v).reg q = if q = r ∧ r ≠ 0 then v else s.reg q := by
  unfold State.reg State.setReg
  by_cases hr : r = 0
  · simp [hr]
  · by_cases hq : q = r
    · subst hq; simp [hr, Vector.get]
    · have : r.val ≠ q.val := fun h => hq (Fin.ext h.symm)
      simp [hr, hq, Vector.get, this]

@[simp] theorem reg_zero (s : State) : s.reg 0 = 0 := rfl

@[simp] theorem setReg_zero (s : State) (v : Word) : s.setReg 0 v = s := rfl

/-- Registers depend on `regs` alone. -/
theorem reg_congr {s t : State} (h : t.regs = s.regs) (r : Reg) : t.reg r = s.reg r := by
  unfold State.reg; rw [h]

/-- CSR slots depend on `csrs` alone. -/
theorem csr_congr {s t : State} (h : t.csrs = s.csrs) (a : CsrNum) : t.csr a = s.csr a := by
  unfold State.csr; rw [h]

@[simp] theorem reg_setPc (s : State) (v : Word) (q : Reg) : (s.setPc v).reg q = s.reg q := rfl
@[simp] theorem reg_setMode (s : State) (md : Mode) (q : Reg) : (s.setMode md).reg q = s.reg q := rfl
@[simp] theorem reg_setStatus (s : State) (st : Status) (q : Reg) : (s.setStatus st).reg q = s.reg q := rfl
@[simp] theorem reg_setCsr (s : State) (a : CsrNum) (v : Word) (q : Reg) : (s.setCsr a v).reg q = s.reg q := rfl
@[simp] theorem reg_setUartByte (s : State) (off : Nat) (b : Byte) (q : Reg) : (s.setUartByte off b).reg q = s.reg q := rfl
@[simp] theorem reg_setBacking (s : State) (k : Nat) (b : Byte) (q : Reg) : (s.setBacking k b).reg q = s.reg q := rfl
@[simp] theorem reg_refreshPaging (s : State) (v : Word) (q : Reg) : (refreshPaging s v).reg q = s.reg q := rfl
@[simp] theorem reg_dmaDone (s : State) (q : Reg) : (dmaDone s).reg q = s.reg q := rfl
@[simp] theorem reg_hostError (s : State) (r : HostError) (q : Reg) : (hostError r s).reg q = s.reg q := rfl
@[simp] theorem reg_kbdPushScancode (s : State) (v : Word32) (q : Reg) : (kbdPushScancode v s).reg q = s.reg q := rfl

@[simp] theorem csr_setPc (s : State) (v : Word) (c : CsrNum) : (s.setPc v).csr c = s.csr c := rfl
@[simp] theorem csr_setMode (s : State) (md : Mode) (c : CsrNum) : (s.setMode md).csr c = s.csr c := rfl
@[simp] theorem csr_setStatus (s : State) (st : Status) (c : CsrNum) : (s.setStatus st).csr c = s.csr c := rfl
@[simp] theorem csr_setUartByte (s : State) (off : Nat) (b : Byte) (c : CsrNum) : (s.setUartByte off b).csr c = s.csr c := rfl
@[simp] theorem csr_setBacking (s : State) (k : Nat) (b : Byte) (c : CsrNum) : (s.setBacking k b).csr c = s.csr c := rfl
@[simp] theorem csr_refreshPaging (s : State) (v : Word) (c : CsrNum) : (refreshPaging s v).csr c = s.csr c := rfl
@[simp] theorem csr_dmaDone (s : State) (c : CsrNum) : (dmaDone s).csr c = s.csr c := rfl
@[simp] theorem csr_hostError (s : State) (r : HostError) (c : CsrNum) : (hostError r s).csr c = s.csr c := rfl
@[simp] theorem csr_kbdPushScancode (s : State) (v : Word32) (c : CsrNum) : (kbdPushScancode v s).csr c = s.csr c := rfl
@[simp] theorem csr_setReg (s : State) (r : Reg) (v : Word) (c : CsrNum) : (s.setReg r v).csr c = s.csr c := by
  unfold State.csr; simp

/-! ## fireIrq and uartPushByte -/

@[simp] theorem fireIrq_cfg (s : State) (q : Word32) : (fireIrq q s).cfg = s.cfg := rfl
@[simp] theorem fireIrq_regs (s : State) (q : Word32) : (fireIrq q s).regs = s.regs := rfl
@[simp] theorem fireIrq_pc (s : State) (q : Word32) : (fireIrq q s).pc = s.pc := rfl
@[simp] theorem fireIrq_mode (s : State) (q : Word32) : (fireIrq q s).mode = s.mode := rfl
@[simp] theorem fireIrq_pagingOn (s : State) (q : Word32) : (fireIrq q s).pagingOn = s.pagingOn := rfl
@[simp] theorem fireIrq_ptRoot (s : State) (q : Word32) : (fireIrq q s).ptRoot = s.ptRoot := rfl
@[simp] theorem fireIrq_mem (s : State) (q : Word32) : (fireIrq q s).mem = s.mem := rfl
@[simp] theorem fireIrq_clint (s : State) (q : Word32) : (fireIrq q s).clint = s.clint := rfl
@[simp] theorem fireIrq_plic (s : State) (q : Word32) : (fireIrq q s).plic = { s.plic with sclaim := q } := rfl
@[simp] theorem fireIrq_uart (s : State) (q : Word32) : (fireIrq q s).uart = s.uart := rfl
@[simp] theorem fireIrq_disk (s : State) (q : Word32) : (fireIrq q s).disk = s.disk := rfl
@[simp] theorem fireIrq_diskBacking (s : State) (q : Word32) : (fireIrq q s).diskBacking = s.diskBacking := rfl
@[simp] theorem fireIrq_kbdQueue (s : State) (q : Word32) : (fireIrq q s).kbdQueue = s.kbdQueue := rfl
@[simp] theorem fireIrq_uartOut (s : State) (q : Word32) : (fireIrq q s).uartOut = s.uartOut := rfl
@[simp] theorem fireIrq_status (s : State) (q : Word32) : (fireIrq q s).status = s.status := rfl
@[simp] theorem fireIrq_hostSchedule (s : State) (q : Word32) : (fireIrq q s).hostSchedule = s.hostSchedule := rfl
@[simp] theorem uartPushByte_cfg (s : State) (b : Byte) : (uartPushByte b s).cfg = s.cfg := rfl
@[simp] theorem uartPushByte_regs (s : State) (b : Byte) : (uartPushByte b s).regs = s.regs := rfl
@[simp] theorem uartPushByte_pc (s : State) (b : Byte) : (uartPushByte b s).pc = s.pc := rfl
@[simp] theorem uartPushByte_mode (s : State) (b : Byte) : (uartPushByte b s).mode = s.mode := rfl
@[simp] theorem uartPushByte_pagingOn (s : State) (b : Byte) : (uartPushByte b s).pagingOn = s.pagingOn := rfl
@[simp] theorem uartPushByte_ptRoot (s : State) (b : Byte) : (uartPushByte b s).ptRoot = s.ptRoot := rfl
@[simp] theorem uartPushByte_csrs (s : State) (b : Byte) : (uartPushByte b s).csrs = s.csrs := rfl
@[simp] theorem uartPushByte_mem (s : State) (b : Byte) : (uartPushByte b s).mem = s.mem := rfl
@[simp] theorem uartPushByte_clint (s : State) (b : Byte) : (uartPushByte b s).clint = s.clint := rfl
@[simp] theorem uartPushByte_plic (s : State) (b : Byte) : (uartPushByte b s).plic = s.plic := rfl
@[simp] theorem uartPushByte_disk (s : State) (b : Byte) : (uartPushByte b s).disk = s.disk := rfl
@[simp] theorem uartPushByte_diskBacking (s : State) (b : Byte) : (uartPushByte b s).diskBacking = s.diskBacking := rfl
@[simp] theorem uartPushByte_kbdQueue (s : State) (b : Byte) : (uartPushByte b s).kbdQueue = s.kbdQueue := rfl
@[simp] theorem uartPushByte_uartOut (s : State) (b : Byte) : (uartPushByte b s).uartOut = s.uartOut := rfl
@[simp] theorem uartPushByte_status (s : State) (b : Byte) : (uartPushByte b s).status = s.status := rfl
@[simp] theorem uartPushByte_hostSchedule (s : State) (b : Byte) : (uartPushByte b s).hostSchedule = s.hostSchedule := rfl

end Sys2Proof.Machine
end

