-- ==== Sys2Proof/Laws/Bus.lean ====
section
/-! SUPPORT. The bus decoder: which region holds an address, what an access answers there, and what it leaves unchanged. -/

namespace Sys2Proof.Machine

/-! ## Regions (R105, R106) -/

theorem Window.contains_iff (w : Window) (a : Nat) : w.contains a = true ↔ w.base ≤ a ∧ a < w.base + w.size := by
  simp [Window.contains]

/-- The keyboard window lies below RAM and apart from every other window. -/
theorem KbdWindow.apart (k : KbdWindow) (a : Nat) (h : k.window.contains a = true) :
    a < 0x80000000 ∧ ¬ (0x02000000 ≤ a ∧ a < 0x02010000) ∧ ¬ (0x0C000000 ≤ a ∧ a < 0x10000000) ∧
      ¬ (0x10000000 ≤ a ∧ a < 0x10000100) ∧ ¬ (0x10001000 ≤ a ∧ a < 0x10001100) := by
  obtain ⟨w, _, hb, hs, hd⟩ := k
  rw [Window.contains_iff] at h
  have h1 := hd clintWindow (by simp)
  have h2 := hd plicWindow (by simp)
  have h3 := hd uartWindow (by simp)
  have h4 := hd diskWindow (by simp)
  have h5 := hd ramWindow (by simp)
  simp only [Window.disjoint, Bool.or_eq_true, decide_eq_true_eq] at h1 h2 h3 h4 h5
  simp only [clintWindow, plicWindow, uartWindow, diskWindow, ramWindow, ramBase, ramSize] at h hb h1 h2 h3 h4 h5
  omega

/-- The region of an address, by ranges. -/
theorem regionOf_eq (c : Config) (a : Nat) :
    regionOf c a =
      if 0x02000000 ≤ a ∧ a < 0x02010000 then some (.device .clint)
      else if 0x0C000000 ≤ a ∧ a < 0x10000000 then some (.device .plic)
      else if 0x10000000 ≤ a ∧ a < 0x10000100 then some (.device .uart)
      else if 0x10001000 ≤ a ∧ a < 0x10001100 then some (.device .disk)
      else if kbdContains c a = true then some (.device .kbd)
      else if 0x80000000 ≤ a then some .ram else none := by
  unfold regionOf
  simp only [Window.contains_iff, clintWindow, plicWindow, uartWindow, diskWindow, ramBase]
  rfl

theorem kbdContains_iff (c : Config) (a : Nat) :
    kbdContains c a = true ↔ ∃ k, c.kbdWindow = some k ∧ k.window.contains a = true := by
  unfold kbdContains
  cases c.kbdWindow <;> simp

theorem regionOf_ram (c : Config) (a : Nat) (h : 0x80000000 ≤ a) : regionOf c a = some .ram := by
  rw [regionOf_eq, if_neg (by omega), if_neg (by omega), if_neg (by omega), if_neg (by omega), if_neg, if_pos h]
  intro hk
  obtain ⟨k, _, hk⟩ := (kbdContains_iff c a).1 hk
  have := (KbdWindow.apart k a hk).1
  omega

theorem regionOf_clint (c : Config) (a : Nat) (h : 0x02000000 ≤ a ∧ a < 0x02010000) :
    regionOf c a = some (.device .clint) := by rw [regionOf_eq, if_pos h]

theorem regionOf_plic (c : Config) (a : Nat) (h : 0x0C000000 ≤ a ∧ a < 0x10000000) :
    regionOf c a = some (.device .plic) := by rw [regionOf_eq, if_neg (by omega), if_pos h]

theorem regionOf_uart (c : Config) (a : Nat) (h : 0x10000000 ≤ a ∧ a < 0x10000100) :
    regionOf c a = some (.device .uart) := by rw [regionOf_eq, if_neg (by omega), if_neg (by omega), if_pos h]

theorem regionOf_disk (c : Config) (a : Nat) (h : 0x10001000 ≤ a ∧ a < 0x10001100) :
    regionOf c a = some (.device .disk) := by
  rw [regionOf_eq, if_neg (by omega), if_neg (by omega), if_neg (by omega), if_pos h]

theorem regionOf_kbd (c : Config) (a : Nat) (k : KbdWindow) (hk : c.kbdWindow = some k)
    (h : k.window.contains a = true) : regionOf c a = some (.device .kbd) := by
  have := KbdWindow.apart k a h
  rw [regionOf_eq, if_neg this.2.1, if_neg this.2.2.1, if_neg this.2.2.2.1, if_neg this.2.2.2.2,
    if_pos ((kbdContains_iff c a).2 ⟨k, hk, h⟩)]

/-- What a region says of the address. -/
theorem regionOf_inv {c : Config} {a : Nat} {r : Region} (h : regionOf c a = some r) :
    (r = .device .clint ∧ 0x02000000 ≤ a ∧ a < 0x02010000) ∨ (r = .device .plic ∧ 0x0C000000 ≤ a ∧ a < 0x10000000) ∨
      (r = .device .uart ∧ 0x10000000 ≤ a ∧ a < 0x10000100) ∨ (r = .device .disk ∧ 0x10001000 ≤ a ∧ a < 0x10001100) ∨
      (r = .device .kbd ∧ kbdContains c a = true) ∨ (r = .ram ∧ 0x80000000 ≤ a) := by
  rw [regionOf_eq] at h
  split at h
  · exact .inl ⟨(Option.some.inj h).symm, ‹_›⟩
  · split at h
    · exact .inr (.inl ⟨(Option.some.inj h).symm, ‹_›⟩)
    · split at h
      · exact .inr (.inr (.inl ⟨(Option.some.inj h).symm, ‹_›⟩))
      · split at h
        · exact .inr (.inr (.inr (.inl ⟨(Option.some.inj h).symm, ‹_›⟩)))
        · split at h
          · exact .inr (.inr (.inr (.inr (.inl ⟨(Option.some.inj h).symm, ‹_›⟩))))
          · split at h
            · exact .inr (.inr (.inr (.inr (.inr ⟨(Option.some.inj h).symm, ‹_›⟩))))
            · cases h

/-! ## RAM -/

theorem inRam_iff (a : Nat) (w : Width) : inRam a w = true ↔ 0x80000000 ≤ a ∧ a + w.bytes ≤ 0x80800000 := by
  unfold inRam
  rw [Bool.and_eq_true, decide_eq_true_eq, decide_eq_true_eq]
  rfl

theorem busLoad_ram (s : State) (pa : Word) (w : Width) (h : inRam pa.toNat w = true) :
    busLoad pa w s = some (s.mem.readBytes pa.toNat w.bytes, s) := by
  unfold busLoad
  rw [regionOf_ram _ _ ((inRam_iff _ _).1 h).1]
  simp [h]

theorem busStore_ram (s : State) (pa v : Word) (w : Width) (h : inRam pa.toNat w = true) :
    busStore pa w v s = some { s with mem := s.mem.writeBytes pa.toNat v w.bytes } := by
  unfold busStore
  rw [regionOf_ram _ _ ((inRam_iff _ _).1 h).1]
  simp [h]

/-! ## Everything an access can do -/

theorem busLoad_cases {s t : State} {pa v : Word} {w : Width} (h : busLoad pa w s = some (v, t)) :
    (inRam pa.toNat w = true ∧ v = s.mem.readBytes pa.toNat w.bytes ∧ t = s) ∨
      ∃ d, regionOf s.cfg pa.toNat = some (.device d) ∧ w = d.naturalWidth ∧
        (v, t) = deviceLoad s (pa.toNat - d.base s.cfg) d := by
  unfold busLoad at h
  split at h
  · cases h
  · split at h
    · cases h; exact .inl ⟨‹_›, rfl, rfl⟩
    · cases h
  · split at h
    · rename_i d hr hw
      exact .inr ⟨d, hr, hw, (Option.some.inj h).symm⟩
    · cases h

theorem busStore_cases {s t : State} {pa v : Word} {w : Width} (h : busStore pa w v s = some t) :
    (inRam pa.toNat w = true ∧ t = { s with mem := s.mem.writeBytes pa.toNat v w.bytes }) ∨
      ∃ d, regionOf s.cfg pa.toNat = some (.device d) ∧ w = d.naturalWidth ∧
        t = deviceStore s (pa.toNat - d.base s.cfg) v d := by
  unfold busStore at h
  split at h
  · cases h
  · split at h
    · cases h; exact .inl ⟨‹_›, rfl⟩
    · cases h
  · split at h
    · rename_i d hr hw
      exact .inr ⟨d, hr, hw, (Option.some.inj h).symm⟩
    · cases h

/-- Whether an access fails depends on the parameters alone. -/
theorem busLoad_none_iff (s : State) (pa : Word) (w : Width) :
    busLoad pa w s = none ↔
      regionOf s.cfg pa.toNat = none ∨ (regionOf s.cfg pa.toNat = some .ram ∧ inRam pa.toNat w = false) ∨
        ∃ d, regionOf s.cfg pa.toNat = some (.device d) ∧ w ≠ d.naturalWidth := by
  unfold busLoad
  split <;> rename_i hr <;> rw [hr]
  · simp
  · cases hi : inRam pa.toNat w <;> simp
  · rename_i d; by_cases hw : w = d.naturalWidth <;> simp [hw]

theorem busStore_none_iff (s : State) (pa v : Word) (w : Width) :
    busStore pa w v s = none ↔
      regionOf s.cfg pa.toNat = none ∨ (regionOf s.cfg pa.toNat = some .ram ∧ inRam pa.toNat w = false) ∨
        ∃ d, regionOf s.cfg pa.toNat = some (.device d) ∧ w ≠ d.naturalWidth := by
  unfold busStore
  split <;> rename_i hr <;> rw [hr]
  · simp
  · cases hi : inRam pa.toNat w <;> simp
  · rename_i d; by_cases hw : w = d.naturalWidth <;> simp [hw]

/-- A load of a device's own width in its window is the device's load. -/
theorem busLoad_device {s : State} {pa : Word} {d : Device} {off : Nat}
    (hr : regionOf s.cfg pa.toNat = some (.device d)) (ho : pa.toNat = d.base s.cfg + off) :
    busLoad pa d.naturalWidth s = some (deviceLoad s off d) := by
  unfold busLoad
  rw [hr]
  simp only [ho, Nat.add_sub_cancel_left, if_true]

/-- A store of a device's own width in its window is the device's store. -/
theorem busStore_device {s : State} {pa v : Word} {d : Device} {off : Nat}
    (hr : regionOf s.cfg pa.toNat = some (.device d)) (ho : pa.toNat = d.base s.cfg + off) :
    busStore pa d.naturalWidth v s = some (deviceStore s off v d) := by
  unfold busStore
  rw [hr]
  simp only [ho, Nat.add_sub_cancel_left, if_true]

/-! ## Disk registers -/

/-- The offset the layout gives a disk register. -/
def diskOffset (l : DiskLayout) : DiskReg → Nat
  | .magic => l.magic
  | .version => l.version
  | .notify => l.notify
  | .direction => l.direction
  | .bufAddrHi => l.bufAddrHi
  | .bufAddrLo => l.bufAddrLo
  | .bufLenHi => l.bufLenHi
  | .bufLenLo => l.bufLenLo
  | .sector => l.sector
  | .done => l.done

/-- An offset names a register exactly when it is that register's: the offsets are distinct (R130). -/
theorem diskRegAt_iff (l : DiskLayout) (off : Nat) (r : DiskReg) : diskRegAt l off = some r ↔ off = diskOffset l r := by
  have hn := l.ok.1
  simp only [List.nodup_cons, List.mem_cons, List.not_mem_nil, or_false, not_or] at hn
  constructor
  · intro h
    unfold diskRegAt at h
    repeat' split at h
    all_goals first | (cases h; assumption) | cases h
  · rintro rfl
    obtain ⟨⟨h01, h02, h03, h04, h05, h06, h07, h08, h09⟩, ⟨h12, h13, h14, h15, h16, h17, h18, h19⟩, ⟨h23, h24, h25, h26, h27, h28, h29⟩, ⟨h34, h35, h36, h37, h38, h39⟩, ⟨h45, h46, h47, h48, h49⟩, ⟨h56, h57, h58, h59⟩, ⟨h67, h68, h69⟩, ⟨h78, h79⟩, h89, _⟩ := hn
    unfold diskRegAt diskOffset
    cases r
    · exact if_pos rfl
    · rw [if_neg (Ne.symm h01), if_pos rfl]
    · rw [if_neg (Ne.symm h02), if_neg (Ne.symm h12), if_pos rfl]
    · rw [if_neg (Ne.symm h03), if_neg (Ne.symm h13), if_neg (Ne.symm h23), if_pos rfl]
    · rw [if_neg (Ne.symm h04), if_neg (Ne.symm h14), if_neg (Ne.symm h24), if_neg (Ne.symm h34), if_pos rfl]
    · rw [if_neg (Ne.symm h05), if_neg (Ne.symm h15), if_neg (Ne.symm h25), if_neg (Ne.symm h35), if_neg (Ne.symm h45), if_pos rfl]
    · rw [if_neg (Ne.symm h06), if_neg (Ne.symm h16), if_neg (Ne.symm h26), if_neg (Ne.symm h36), if_neg (Ne.symm h46), if_neg (Ne.symm h56), if_pos rfl]
    · rw [if_neg (Ne.symm h07), if_neg (Ne.symm h17), if_neg (Ne.symm h27), if_neg (Ne.symm h37), if_neg (Ne.symm h47), if_neg (Ne.symm h57), if_neg (Ne.symm h67), if_pos rfl]
    · rw [if_neg (Ne.symm h08), if_neg (Ne.symm h18), if_neg (Ne.symm h28), if_neg (Ne.symm h38), if_neg (Ne.symm h48), if_neg (Ne.symm h58), if_neg (Ne.symm h68), if_neg (Ne.symm h78), if_pos rfl]
    · rw [if_neg (Ne.symm h09), if_neg (Ne.symm h19), if_neg (Ne.symm h29), if_neg (Ne.symm h39), if_neg (Ne.symm h49), if_neg (Ne.symm h59), if_neg (Ne.symm h69), if_neg (Ne.symm h79), if_neg (Ne.symm h89), if_pos rfl]

/-! ## Frames -/

/-- A load changes the UART registers or the keyboard queue, if anything. -/
theorem busLoad_rest {s t : State} {pa v : Word} {w : Width} (h : busLoad pa w s = some (v, t)) :
    t = { s with uart := { s.uart with bytes := t.uart.bytes }, kbdQueue := t.kbdQueue } := by
  obtain ⟨_, _, rfl⟩ | ⟨d, _, _, h⟩ := busLoad_cases h
  · rfl
  · generalize pa.toNat - d.base s.cfg = off at *
    cases d <;> simp only [deviceLoad, Prod.mk.injEq] at h <;> obtain ⟨-, rfl⟩ := h
    · rfl
    · rfl
    · unfold uartLoad; split <;> rfl
    · rfl
    · unfold kbdLoad; (repeat' split) <;> rfl

/-- A 64-bit load, such as a page-table read, has no side effect. -/
theorem busLoad_double {s t : State} {pa v : Word} (h : busLoad pa .double s = some (v, t)) : t = s := by
  obtain ⟨_, _, rfl⟩ | ⟨d, _, hw, h⟩ := busLoad_cases h
  · rfl
  · generalize pa.toNat - d.base s.cfg = off at *
    cases d <;> first | (cases hw; done) | (simp only [deviceLoad, Prod.mk.injEq] at h; exact h.2)

/-- A store changes RAM, a device's registers, or the output. -/
theorem busStore_rest {s t : State} {pa v : Word} {w : Width} (h : busStore pa w v s = some t) :
    t = { s with mem := t.mem, clint := t.clint, plic := t.plic, uart := { s.uart with bytes := t.uart.bytes },
                 disk := t.disk, uartOut := t.uartOut } := by
  obtain ⟨_, rfl⟩ | ⟨d, _, _, h⟩ := busStore_cases h
  · rfl
  · generalize pa.toNat - d.base s.cfg = off at *
    subst h
    cases d
    · simp only [deviceStore, clintStore]; (repeat' split) <;> rfl
    · simp only [deviceStore, plicStore]; (repeat' split) <;> rfl
    · simp only [deviceStore, uartStore]; split <;> rfl
    · simp only [deviceStore, diskStore]; split <;> rfl
    · rfl

/-- A store changes no byte of RAM outside its own, and none at all on a device. -/
theorem busStore_mem {s t : State} {pa v : Word} {w : Width} (h : busStore pa w v s = some t) (a : Nat)
    (ha : a < pa.toNat ∨ pa.toNat + w.bytes ≤ a) : Cells.read t.mem a = Cells.read s.mem a := by
  obtain ⟨_, rfl⟩ | ⟨d, _, _, h⟩ := busStore_cases h
  · exact Memory.read_writeBytes_outside _ _ _ _ _ ha
  · generalize pa.toNat - d.base s.cfg = off at *
    subst h
    cases d
    · simp only [deviceStore, clintStore]; (repeat' split) <;> rfl
    · simp only [deviceStore, plicStore]; (repeat' split) <;> rfl
    · simp only [deviceStore, uartStore]; split <;> rfl
    · simp only [deviceStore, diskStore]; split <;> rfl
    · rfl

/-- Where a load succeeds, so does a store of the same width, also in the state the load leaves. -/
theorem busStore_of_busLoad {s t : State} {pa v v' : Word} {w : Width} (h : busLoad pa w s = some (v, t)) :
    ∃ u, busStore pa w v' t = some u := by
  have hc : t.cfg = s.cfg := by rw [busLoad_rest h]
  cases hs : busStore pa w v' t with
  | some u => exact ⟨u, rfl⟩
  | none =>
    rw [busStore_none_iff, hc, ← busLoad_none_iff] at hs
    rw [h] at hs; cases hs

/-! ## UART bytes -/

theorem uartByte_setUartByte (s : State) (off k : Nat) (b : Byte) :
    (s.setUartByte off b).uartByte k = if k = off then b else s.uartByte k := Cells.read_write _ _ _ _

end Sys2Proof.Machine
end

