-- ==== Sys2Proof/Laws/Csr.lean ====
section
/-! SUPPORT. Bits of a word after an update, and the CSR accessors over raw slots. -/

namespace Sys2Proof.Machine

/-! ## Bits -/

theorem getLsbD_one_shiftLeft (n i : Nat) (h : i < 64) : (1#64 <<< n).getLsbD i = decide (i = n) := by
  rw [BitVec.getLsbD_shiftLeft, BitVec.getLsbD_one]
  by_cases hi : i < n
  · simp [hi, Nat.ne_of_lt hi]
  · by_cases he : i = n
    · subst he; simp [h]
    · have : i - n ≠ 0 := by omega
      simp [this, he]

/-- A bit of a word after one bit was set or cleared. -/
theorem getLsbD_setBit (v : Word) (n i : Nat) (b : Bool) (h : i < 64) :
    (setBit v n b).getLsbD i = if i = n then b else v.getLsbD i := by
  unfold setBit
  cases b
  · rw [if_neg (by decide), BitVec.getLsbD_and, BitVec.getLsbD_not, getLsbD_one_shiftLeft _ _ h]
    by_cases he : i = n <;> simp only [he, decide_true, decide_false] <;> simp [h]
  · rw [if_pos rfl, BitVec.getLsbD_or, getLsbD_one_shiftLeft _ _ h]
    by_cases he : i = n <;> simp only [he, decide_true, decide_false] <;> simp

/-- A bit of a masked write. -/
theorem getLsbD_merge (old mask new : Word) (i : Nat) (h : i < 64) :
    (merge old mask new).getLsbD i = if mask.getLsbD i then new.getLsbD i else old.getLsbD i := by
  unfold merge
  rw [BitVec.getLsbD_or, BitVec.getLsbD_and, BitVec.getLsbD_and, BitVec.getLsbD_not]
  cases mask.getLsbD i <;> simp [h]

/-- A masked write of the value's own bits changes nothing. -/
theorem merge_self (old mask : Word) : merge old mask (old &&& mask) = old := by
  apply BitVec.eq_of_getLsbD_eq
  intro i hi
  rw [getLsbD_merge _ _ _ _ hi]
  split <;> simp_all

/-- The bits outside a mask survive a masked write. -/
theorem merge_outside (old mask new : Word) : merge old mask new &&& ~~~mask = old &&& ~~~mask := by
  apply BitVec.eq_of_getLsbD_eq
  intro i hi
  rw [BitVec.getLsbD_and, getLsbD_merge _ _ _ _ hi, BitVec.getLsbD_and, BitVec.getLsbD_not]
  cases mask.getLsbD i <;> simp [hi]

/-! ## Raw slots -/

theorem csr_setCsr (s : State) (a c : CsrNum) (v : Word) :
    (s.setCsr a v).csr c = if c = a then v else s.csr c := by
  unfold State.csr State.setCsr
  rw [Cells.read_write]
  by_cases h : c = a
  · simp [h]
  · have : c.toNat ≠ a.toNat := fun e => h (BitVec.eq_of_toNat_eq e)
    simp [h, this]

@[simp] theorem csr_setCsr_self (s : State) (a : CsrNum) (v : Word) : (s.setCsr a v).csr a = v := by
  simp [csr_setCsr]

theorem csr_setCsr_ne (s : State) {a c : CsrNum} (v : Word) (h : c ≠ a) : (s.setCsr a v).csr c = s.csr c := by
  simp [csr_setCsr, h]

/-- Writing back a slot's own value changes nothing, in a canonical file. -/
theorem setCsr_csr_self (s : State) (a : CsrNum) (h : Cells.wf s.csrs) : s.setCsr a (s.csr a) = s := by
  unfold State.setCsr State.csr
  rw [Cells.write_read_self _ h]

/-! ## csr_write (R61) -/

/-- A write touches the slot of its number and no other (R66). -/
theorem csr_csrWrite_ne (s : State) (a : CsrNum) (v : Word) {c : CsrNum} (h : c ≠ csrSlot a) :
    (csrWrite s a v).csr c = s.csr c := by
  unfold csrSlot at h
  unfold csrWrite
  split at h
  · rw [if_pos ‹_›, csr_setCsr_ne _ _ h]
  · split at h
    · rw [if_neg ‹_›, if_pos ‹_›, csr_setCsr_ne _ _ h]
    · split at h
      · rw [if_neg ‹_›, if_neg ‹_›, if_pos ‹_›, csr_setCsr_ne _ _ h]
      · rw [if_neg ‹_›, if_neg ‹_›, if_neg ‹_›]
        split
        · rw [csr_refreshPaging, csr_setCsr_ne _ _ (by simp_all)]
        · rw [csr_setCsr_ne _ _ h]

/-- What a write leaves of every field but the CSR file and the paging cache. -/
theorem csrWrite_rest (s : State) (a : CsrNum) (v : Word) :
    csrWrite s a v = { s with csrs := (csrWrite s a v).csrs, pagingOn := (csrWrite s a v).pagingOn,
                              ptRoot := (csrWrite s a v).ptRoot } := by
  unfold csrWrite
  (repeat' split) <;> rfl

end Sys2Proof.Machine
end

