-- ==== Sys2Proof/Laws/Decode.lean ====
section
/-! SUPPORT. The formats of an instruction word: the fields of an encoded word are what was encoded, and a word is the encoding of its
fields; and a word fits at most one row of the opcode table. -/

namespace Sys2Proof

/-! ## Masks -/

/-- A field a row's mask covers is the pattern's. -/
theorem field_of_fits {w mask pattern : Word32} (h : w &&& mask = pattern) (k n : Nat)
    (hm : mask.extractLsb' k n = BitVec.allOnes n) : w.extractLsb' k n = pattern.extractLsb' k n := by
  rw [← h, BitVec.extractLsb'_and, hm, BitVec.and_allOnes]

/-- Two rows whose patterns differ under both masks share no word. -/
theorem not_both_fit {a b : Row} (h : (a.mask &&& b.mask) &&& (a.pattern ^^^ b.pattern) ≠ 0) (w : Word32) :
    ¬ (a.fits w = true ∧ b.fits w = true) := by
  rintro ⟨ha, hb⟩
  apply h
  simp only [Row.fits, beq_iff_eq] at ha hb
  rw [← ha, ← hb]
  apply BitVec.eq_of_getLsbD_eq
  intro i hi
  rw [show (0 : Word32) = 0#32 from rfl, BitVec.getLsbD_zero]
  simp only [BitVec.getLsbD_and, BitVec.getLsbD_xor]
  cases w.getLsbD i <;> cases a.mask.getLsbD i <;> cases b.mask.getLsbD i <;> rfl

/-! ## The fields of an encoded word -/

@[simp] theorem rdOf_encR (f7 : BitVec 7) (f3 : BitVec 3) (op : BitVec 7) (rd rs1 rs2 : Reg) : rdOf (encR f7 f3 op rd rs1 rs2) = rd := by
  have h : (encR f7 f3 op rd rs1 rs2).extractLsb' 7 5 = regBits rd := by
    apply BitVec.eq_of_getLsbD_eq
    intro i hi
    simp only [encR, BitVec.getLsbD_append, BitVec.getLsbD_extractLsb']
    (repeat' split) <;> first | omega | (rw [decide_eq_true (by omega), Bool.true_and]; congr 1; omega)
  unfold rdOf; rw [h]; rfl

@[simp] theorem rs1Of_encR (f7 : BitVec 7) (f3 : BitVec 3) (op : BitVec 7) (rd rs1 rs2 : Reg) : rs1Of (encR f7 f3 op rd rs1 rs2) = rs1 := by
  have h : (encR f7 f3 op rd rs1 rs2).extractLsb' 15 5 = regBits rs1 := by
    apply BitVec.eq_of_getLsbD_eq
    intro i hi
    simp only [encR, BitVec.getLsbD_append, BitVec.getLsbD_extractLsb']
    (repeat' split) <;> first | omega | (rw [decide_eq_true (by omega), Bool.true_and]; congr 1; omega)
  unfold rs1Of; rw [h]; rfl

@[simp] theorem rs2Of_encR (f7 : BitVec 7) (f3 : BitVec 3) (op : BitVec 7) (rd rs1 rs2 : Reg) : rs2Of (encR f7 f3 op rd rs1 rs2) = rs2 := by
  have h : (encR f7 f3 op rd rs1 rs2).extractLsb' 20 5 = regBits rs2 := by
    apply BitVec.eq_of_getLsbD_eq
    intro i hi
    simp only [encR, BitVec.getLsbD_append, BitVec.getLsbD_extractLsb']
    (repeat' split) <;> first | omega | (rw [decide_eq_true (by omega), Bool.true_and]; congr 1; omega)
  unfold rs2Of; rw [h]; rfl

@[simp] theorem rdOf_encI (f3 : BitVec 3) (op : BitVec 7) (rd rs1 : Reg) (imm : BitVec 12) : rdOf (encI f3 op rd rs1 imm) = rd := by
  have h : (encI f3 op rd rs1 imm).extractLsb' 7 5 = regBits rd := by
    apply BitVec.eq_of_getLsbD_eq
    intro i hi
    simp only [encI, BitVec.getLsbD_append, BitVec.getLsbD_extractLsb']
    (repeat' split) <;> first | omega | (rw [decide_eq_true (by omega), Bool.true_and]; congr 1; omega)
  unfold rdOf; rw [h]; rfl

@[simp] theorem rs1Of_encI (f3 : BitVec 3) (op : BitVec 7) (rd rs1 : Reg) (imm : BitVec 12) : rs1Of (encI f3 op rd rs1 imm) = rs1 := by
  have h : (encI f3 op rd rs1 imm).extractLsb' 15 5 = regBits rs1 := by
    apply BitVec.eq_of_getLsbD_eq
    intro i hi
    simp only [encI, BitVec.getLsbD_append, BitVec.getLsbD_extractLsb']
    (repeat' split) <;> first | omega | (rw [decide_eq_true (by omega), Bool.true_and]; congr 1; omega)
  unfold rs1Of; rw [h]; rfl

@[simp] theorem immIOf_encI (f3 : BitVec 3) (op : BitVec 7) (rd rs1 : Reg) (imm : BitVec 12) : immIOf (encI f3 op rd rs1 imm) = imm := by
  apply BitVec.eq_of_getLsbD_eq
  intro i hi
  simp only [immIOf, encI, BitVec.getLsbD_append, BitVec.getLsbD_extractLsb']
  (repeat' split) <;> first | omega | (rw [decide_eq_true (by omega), Bool.true_and]; congr 1; omega)

@[simp] theorem rs1Of_encS (f3 : BitVec 3) (op : BitVec 7) (rs1 rs2 : Reg) (imm : BitVec 12) : rs1Of (encS f3 op rs1 rs2 imm) = rs1 := by
  have h : (encS f3 op rs1 rs2 imm).extractLsb' 15 5 = regBits rs1 := by
    apply BitVec.eq_of_getLsbD_eq
    intro i hi
    simp only [encS, BitVec.getLsbD_append, BitVec.getLsbD_extractLsb']
    (repeat' split) <;> first | omega | (rw [decide_eq_true (by omega), Bool.true_and]; congr 1; omega)
  unfold rs1Of; rw [h]; rfl

@[simp] theorem rs2Of_encS (f3 : BitVec 3) (op : BitVec 7) (rs1 rs2 : Reg) (imm : BitVec 12) : rs2Of (encS f3 op rs1 rs2 imm) = rs2 := by
  have h : (encS f3 op rs1 rs2 imm).extractLsb' 20 5 = regBits rs2 := by
    apply BitVec.eq_of_getLsbD_eq
    intro i hi
    simp only [encS, BitVec.getLsbD_append, BitVec.getLsbD_extractLsb']
    (repeat' split) <;> first | omega | (rw [decide_eq_true (by omega), Bool.true_and]; congr 1; omega)
  unfold rs2Of; rw [h]; rfl

theorem immSOf_encS (f3 : BitVec 3) (op : BitVec 7) (rs1 rs2 : Reg) (imm : BitVec 12) : immSOf (encS f3 op rs1 rs2 imm) = imm := by
  apply BitVec.eq_of_getLsbD_eq
  intro i hi
  simp only [immSOf, encS, BitVec.getLsbD_append, BitVec.getLsbD_extractLsb']
  (repeat' split) <;> first | omega | (simp (disch := omega) only [decide_eq_true, Bool.true_and]; congr 1; omega)

@[simp] theorem rs1Of_encB (f3 : BitVec 3) (op : BitVec 7) (rs1 rs2 : Reg) (imm : BitVec 13) : rs1Of (encB f3 op rs1 rs2 imm) = rs1 := by
  have h : (encB f3 op rs1 rs2 imm).extractLsb' 15 5 = regBits rs1 := by
    apply BitVec.eq_of_getLsbD_eq
    intro i hi
    simp only [encB, BitVec.getLsbD_append, BitVec.getLsbD_extractLsb']
    (repeat' split) <;> first | omega | (rw [decide_eq_true (by omega), Bool.true_and]; congr 1; omega)
  unfold rs1Of; rw [h]; rfl

@[simp] theorem rs2Of_encB (f3 : BitVec 3) (op : BitVec 7) (rs1 rs2 : Reg) (imm : BitVec 13) : rs2Of (encB f3 op rs1 rs2 imm) = rs2 := by
  have h : (encB f3 op rs1 rs2 imm).extractLsb' 20 5 = regBits rs2 := by
    apply BitVec.eq_of_getLsbD_eq
    intro i hi
    simp only [encB, BitVec.getLsbD_append, BitVec.getLsbD_extractLsb']
    (repeat' split) <;> first | omega | (rw [decide_eq_true (by omega), Bool.true_and]; congr 1; omega)
  unfold rs2Of; rw [h]; rfl

theorem immBOf_encB (f3 : BitVec 3) (op : BitVec 7) (rs1 rs2 : Reg) (imm : BitVec 13) (h : imm.getLsbD 0 = false) : immBOf (encB f3 op rs1 rs2 imm) = imm := by
  apply BitVec.eq_of_getLsbD_eq
  intro i hi
  simp only [immBOf, encB, BitVec.getLsbD_append, BitVec.getLsbD_extractLsb']
  interval_cases i
  · exact h.symm
  all_goals rfl

@[simp] theorem rdOf_encU (op : BitVec 7) (rd : Reg) (imm : BitVec 20) : rdOf (encU op rd imm) = rd := by
  have h : (encU op rd imm).extractLsb' 7 5 = regBits rd := by
    apply BitVec.eq_of_getLsbD_eq
    intro i hi
    simp only [encU, BitVec.getLsbD_append, BitVec.getLsbD_extractLsb']
    (repeat' split) <;> first | omega | (rw [decide_eq_true (by omega), Bool.true_and]; congr 1; omega)
  unfold rdOf; rw [h]; rfl

@[simp] theorem immUOf_encU (op : BitVec 7) (rd : Reg) (imm : BitVec 20) : immUOf (encU op rd imm) = imm := by
  apply BitVec.eq_of_getLsbD_eq
  intro i hi
  simp only [immUOf, encU, BitVec.getLsbD_append, BitVec.getLsbD_extractLsb']
  (repeat' split) <;> first | omega | (rw [decide_eq_true (by omega), Bool.true_and]; congr 1; omega)

@[simp] theorem rdOf_encJ (op : BitVec 7) (rd : Reg) (imm : BitVec 21) : rdOf (encJ op rd imm) = rd := by
  have h : (encJ op rd imm).extractLsb' 7 5 = regBits rd := by
    apply BitVec.eq_of_getLsbD_eq
    intro i hi
    simp only [encJ, BitVec.getLsbD_append, BitVec.getLsbD_extractLsb']
    (repeat' split) <;> first | omega | (rw [decide_eq_true (by omega), Bool.true_and]; congr 1; omega)
  unfold rdOf; rw [h]; rfl

theorem immJOf_encJ (op : BitVec 7) (rd : Reg) (imm : BitVec 21) (h : imm.getLsbD 0 = false) : immJOf (encJ op rd imm) = imm := by
  apply BitVec.eq_of_getLsbD_eq
  intro i hi
  simp only [immJOf, encJ, BitVec.getLsbD_append, BitVec.getLsbD_extractLsb']
  interval_cases i
  · exact h.symm
  all_goals rfl

@[simp] theorem rdOf_encShift64 (f6 : BitVec 6) (f3 : BitVec 3) (op : BitVec 7) (rd rs1 : Reg) (shamt : BitVec 6) : rdOf (encShift64 f6 f3 op rd rs1 shamt) = rd := by
  have h : (encShift64 f6 f3 op rd rs1 shamt).extractLsb' 7 5 = regBits rd := by
    apply BitVec.eq_of_getLsbD_eq
    intro i hi
    simp only [encShift64, BitVec.getLsbD_append, BitVec.getLsbD_extractLsb']
    (repeat' split) <;> first | omega | (rw [decide_eq_true (by omega), Bool.true_and]; congr 1; omega)
  unfold rdOf; rw [h]; rfl

@[simp] theorem rs1Of_encShift64 (f6 : BitVec 6) (f3 : BitVec 3) (op : BitVec 7) (rd rs1 : Reg) (shamt : BitVec 6) : rs1Of (encShift64 f6 f3 op rd rs1 shamt) = rs1 := by
  have h : (encShift64 f6 f3 op rd rs1 shamt).extractLsb' 15 5 = regBits rs1 := by
    apply BitVec.eq_of_getLsbD_eq
    intro i hi
    simp only [encShift64, BitVec.getLsbD_append, BitVec.getLsbD_extractLsb']
    (repeat' split) <;> first | omega | (rw [decide_eq_true (by omega), Bool.true_and]; congr 1; omega)
  unfold rs1Of; rw [h]; rfl

@[simp] theorem shamt6Of_encShift64 (f6 : BitVec 6) (f3 : BitVec 3) (op : BitVec 7) (rd rs1 : Reg) (shamt : BitVec 6) : shamt6Of (encShift64 f6 f3 op rd rs1 shamt) = shamt := by
  apply BitVec.eq_of_getLsbD_eq
  intro i hi
  simp only [shamt6Of, encShift64, BitVec.getLsbD_append, BitVec.getLsbD_extractLsb']
  (repeat' split) <;> first | omega | (rw [decide_eq_true (by omega), Bool.true_and]; congr 1; omega)

@[simp] theorem rdOf_encShift32 (f7 : BitVec 7) (f3 : BitVec 3) (op : BitVec 7) (rd rs1 : Reg) (shamt : BitVec 5) : rdOf (encShift32 f7 f3 op rd rs1 shamt) = rd := by
  have h : (encShift32 f7 f3 op rd rs1 shamt).extractLsb' 7 5 = regBits rd := by
    apply BitVec.eq_of_getLsbD_eq
    intro i hi
    simp only [encShift32, BitVec.getLsbD_append, BitVec.getLsbD_extractLsb']
    (repeat' split) <;> first | omega | (rw [decide_eq_true (by omega), Bool.true_and]; congr 1; omega)
  unfold rdOf; rw [h]; rfl

@[simp] theorem rs1Of_encShift32 (f7 : BitVec 7) (f3 : BitVec 3) (op : BitVec 7) (rd rs1 : Reg) (shamt : BitVec 5) : rs1Of (encShift32 f7 f3 op rd rs1 shamt) = rs1 := by
  have h : (encShift32 f7 f3 op rd rs1 shamt).extractLsb' 15 5 = regBits rs1 := by
    apply BitVec.eq_of_getLsbD_eq
    intro i hi
    simp only [encShift32, BitVec.getLsbD_append, BitVec.getLsbD_extractLsb']
    (repeat' split) <;> first | omega | (rw [decide_eq_true (by omega), Bool.true_and]; congr 1; omega)
  unfold rs1Of; rw [h]; rfl

@[simp] theorem shamt5Of_encShift32 (f7 : BitVec 7) (f3 : BitVec 3) (op : BitVec 7) (rd rs1 : Reg) (shamt : BitVec 5) : shamt5Of (encShift32 f7 f3 op rd rs1 shamt) = shamt := by
  apply BitVec.eq_of_getLsbD_eq
  intro i hi
  simp only [shamt5Of, encShift32, BitVec.getLsbD_append, BitVec.getLsbD_extractLsb']
  (repeat' split) <;> first | omega | (rw [decide_eq_true (by omega), Bool.true_and]; congr 1; omega)

@[simp] theorem rdOf_encAmo (f5 : BitVec 5) (f3 : BitVec 3) (aq rl : Bool) (rd rs1 rs2 : Reg) : rdOf (encAmo f5 f3 aq rl rd rs1 rs2) = rd := by
  have h : (encAmo f5 f3 aq rl rd rs1 rs2).extractLsb' 7 5 = regBits rd := by
    apply BitVec.eq_of_getLsbD_eq
    intro i hi
    simp only [encAmo, BitVec.getLsbD_append, BitVec.getLsbD_extractLsb']
    (repeat' split) <;> first | omega | (rw [decide_eq_true (by omega), Bool.true_and]; congr 1; omega)
  unfold rdOf; rw [h]; rfl

@[simp] theorem rs1Of_encAmo (f5 : BitVec 5) (f3 : BitVec 3) (aq rl : Bool) (rd rs1 rs2 : Reg) : rs1Of (encAmo f5 f3 aq rl rd rs1 rs2) = rs1 := by
  have h : (encAmo f5 f3 aq rl rd rs1 rs2).extractLsb' 15 5 = regBits rs1 := by
    apply BitVec.eq_of_getLsbD_eq
    intro i hi
    simp only [encAmo, BitVec.getLsbD_append, BitVec.getLsbD_extractLsb']
    (repeat' split) <;> first | omega | (rw [decide_eq_true (by omega), Bool.true_and]; congr 1; omega)
  unfold rs1Of; rw [h]; rfl

@[simp] theorem rs2Of_encAmo (f5 : BitVec 5) (f3 : BitVec 3) (aq rl : Bool) (rd rs1 rs2 : Reg) : rs2Of (encAmo f5 f3 aq rl rd rs1 rs2) = rs2 := by
  have h : (encAmo f5 f3 aq rl rd rs1 rs2).extractLsb' 20 5 = regBits rs2 := by
    apply BitVec.eq_of_getLsbD_eq
    intro i hi
    simp only [encAmo, BitVec.getLsbD_append, BitVec.getLsbD_extractLsb']
    (repeat' split) <;> first | omega | (rw [decide_eq_true (by omega), Bool.true_and]; congr 1; omega)
  unfold rs2Of; rw [h]; rfl

@[simp] theorem aqOf_encAmo (f5 : BitVec 5) (f3 : BitVec 3) (aq rl : Bool) (rd rs1 rs2 : Reg) : aqOf (encAmo f5 f3 aq rl rd rs1 rs2) = aq := by
  unfold aqOf encAmo
  simp only [BitVec.getLsbD_append]
  cases aq <;> cases rl <;> rfl

@[simp] theorem rlOf_encAmo (f5 : BitVec 5) (f3 : BitVec 3) (aq rl : Bool) (rd rs1 rs2 : Reg) : rlOf (encAmo f5 f3 aq rl rd rs1 rs2) = rl := by
  unfold rlOf encAmo
  simp only [BitVec.getLsbD_append]
  cases aq <;> cases rl <;> rfl

@[simp] theorem rdOf_encCsr (f3 : BitVec 3) (rd : Reg) (csr : CsrNum) (rs1 : Reg) : rdOf (encCsr f3 rd csr rs1) = rd := by
  have h : (encCsr f3 rd csr rs1).extractLsb' 7 5 = regBits rd := by
    apply BitVec.eq_of_getLsbD_eq
    intro i hi
    simp only [encCsr, BitVec.getLsbD_append, BitVec.getLsbD_extractLsb']
    (repeat' split) <;> first | omega | (rw [decide_eq_true (by omega), Bool.true_and]; congr 1; omega)
  unfold rdOf; rw [h]; rfl

@[simp] theorem rs1Of_encCsr (f3 : BitVec 3) (rd : Reg) (csr : CsrNum) (rs1 : Reg) : rs1Of (encCsr f3 rd csr rs1) = rs1 := by
  have h : (encCsr f3 rd csr rs1).extractLsb' 15 5 = regBits rs1 := by
    apply BitVec.eq_of_getLsbD_eq
    intro i hi
    simp only [encCsr, BitVec.getLsbD_append, BitVec.getLsbD_extractLsb']
    (repeat' split) <;> first | omega | (rw [decide_eq_true (by omega), Bool.true_and]; congr 1; omega)
  unfold rs1Of; rw [h]; rfl

@[simp] theorem csrOf_encCsr (f3 : BitVec 3) (rd : Reg) (csr : CsrNum) (rs1 : Reg) : csrOf (encCsr f3 rd csr rs1) = csr := by
  apply BitVec.eq_of_getLsbD_eq
  intro i hi
  simp only [csrOf, encCsr, BitVec.getLsbD_append, BitVec.getLsbD_extractLsb']
  (repeat' split) <;> first | omega | (rw [decide_eq_true (by omega), Bool.true_and]; congr 1; omega)

@[simp] theorem rdOf_encCsrI (f3 : BitVec 3) (rd : Reg) (csr : CsrNum) (uimm : BitVec 5) : rdOf (encCsrI f3 rd csr uimm) = rd := by
  have h : (encCsrI f3 rd csr uimm).extractLsb' 7 5 = regBits rd := by
    apply BitVec.eq_of_getLsbD_eq
    intro i hi
    simp only [encCsrI, BitVec.getLsbD_append, BitVec.getLsbD_extractLsb']
    (repeat' split) <;> first | omega | (rw [decide_eq_true (by omega), Bool.true_and]; congr 1; omega)
  unfold rdOf; rw [h]; rfl

@[simp] theorem uimmOf_encCsrI (f3 : BitVec 3) (rd : Reg) (csr : CsrNum) (uimm : BitVec 5) : uimmOf (encCsrI f3 rd csr uimm) = uimm := by
  apply BitVec.eq_of_getLsbD_eq
  intro i hi
  simp only [uimmOf, encCsrI, BitVec.getLsbD_append, BitVec.getLsbD_extractLsb']
  (repeat' split) <;> first | omega | (rw [decide_eq_true (by omega), Bool.true_and]; congr 1; omega)

@[simp] theorem csrOf_encCsrI (f3 : BitVec 3) (rd : Reg) (csr : CsrNum) (uimm : BitVec 5) : csrOf (encCsrI f3 rd csr uimm) = csr := by
  apply BitVec.eq_of_getLsbD_eq
  intro i hi
  simp only [csrOf, encCsrI, BitVec.getLsbD_append, BitVec.getLsbD_extractLsb']
  (repeat' split) <;> first | omega | (rw [decide_eq_true (by omega), Bool.true_and]; congr 1; omega)

@[simp] theorem rdOf_encFence (fm pred succ : BitVec 4) (rs1 rd : Reg) : rdOf (encFence fm pred succ rs1 rd) = rd := by
  have h : (encFence fm pred succ rs1 rd).extractLsb' 7 5 = regBits rd := by
    apply BitVec.eq_of_getLsbD_eq
    intro i hi
    simp only [encFence, BitVec.getLsbD_append, BitVec.getLsbD_extractLsb']
    (repeat' split) <;> first | omega | (rw [decide_eq_true (by omega), Bool.true_and]; congr 1; omega)
  unfold rdOf; rw [h]; rfl

@[simp] theorem rs1Of_encFence (fm pred succ : BitVec 4) (rs1 rd : Reg) : rs1Of (encFence fm pred succ rs1 rd) = rs1 := by
  have h : (encFence fm pred succ rs1 rd).extractLsb' 15 5 = regBits rs1 := by
    apply BitVec.eq_of_getLsbD_eq
    intro i hi
    simp only [encFence, BitVec.getLsbD_append, BitVec.getLsbD_extractLsb']
    (repeat' split) <;> first | omega | (rw [decide_eq_true (by omega), Bool.true_and]; congr 1; omega)
  unfold rs1Of; rw [h]; rfl

@[simp] theorem fmOf_encFence (fm pred succ : BitVec 4) (rs1 rd : Reg) : fmOf (encFence fm pred succ rs1 rd) = fm := by
  apply BitVec.eq_of_getLsbD_eq
  intro i hi
  simp only [fmOf, encFence, BitVec.getLsbD_append, BitVec.getLsbD_extractLsb']
  (repeat' split) <;> first | omega | (rw [decide_eq_true (by omega), Bool.true_and]; congr 1; omega)

@[simp] theorem predOf_encFence (fm pred succ : BitVec 4) (rs1 rd : Reg) : predOf (encFence fm pred succ rs1 rd) = pred := by
  apply BitVec.eq_of_getLsbD_eq
  intro i hi
  simp only [predOf, encFence, BitVec.getLsbD_append, BitVec.getLsbD_extractLsb']
  (repeat' split) <;> first | omega | (rw [decide_eq_true (by omega), Bool.true_and]; congr 1; omega)

@[simp] theorem succOf_encFence (fm pred succ : BitVec 4) (rs1 rd : Reg) : succOf (encFence fm pred succ rs1 rd) = succ := by
  apply BitVec.eq_of_getLsbD_eq
  intro i hi
  simp only [succOf, encFence, BitVec.getLsbD_append, BitVec.getLsbD_extractLsb']
  (repeat' split) <;> first | omega | (rw [decide_eq_true (by omega), Bool.true_and]; congr 1; omega)

@[simp] theorem rs1Of_encSfence (rs1 rs2 : Reg) : rs1Of (encSfence rs1 rs2) = rs1 := by
  have h : (encSfence rs1 rs2).extractLsb' 15 5 = regBits rs1 := by
    apply BitVec.eq_of_getLsbD_eq
    intro i hi
    simp only [encSfence, BitVec.getLsbD_append, BitVec.getLsbD_extractLsb']
    (repeat' split) <;> first | omega | (rw [decide_eq_true (by omega), Bool.true_and]; congr 1; omega)
  unfold rs1Of; rw [h]; rfl

@[simp] theorem rs2Of_encSfence (rs1 rs2 : Reg) : rs2Of (encSfence rs1 rs2) = rs2 := by
  have h : (encSfence rs1 rs2).extractLsb' 20 5 = regBits rs2 := by
    apply BitVec.eq_of_getLsbD_eq
    intro i hi
    simp only [encSfence, BitVec.getLsbD_append, BitVec.getLsbD_extractLsb']
    (repeat' split) <;> first | omega | (rw [decide_eq_true (by omega), Bool.true_and]; congr 1; omega)
  unfold rs2Of; rw [h]; rfl

/-! ## A word is the encoding of its fields -/

theorem encR_fields (w : Word32) (f7 : BitVec 7) (f3 : BitVec 3) (op : BitVec 7) (h25 : w.extractLsb' 25 7 = f7) (h12 : w.extractLsb' 12 3 = f3) (h0 : w.extractLsb' 0 7 = op) :
    encR f7 f3 op (rdOf w) (rs1Of w) (rs2Of w) = w := by
  subst h25 h12 h0
  unfold encR
  apply BitVec.eq_of_getLsbD_eq
  intro i hi
  simp only [regBits, rdOf, rs1Of, rs2Of, BitVec.ofFin_toFin, BitVec.getLsbD_append, BitVec.getLsbD_extractLsb']
  (repeat' split) <;> first | omega | (simp (disch := omega) only [decide_eq_true, Bool.true_and]; congr 1; omega)

theorem encI_fields (w : Word32) (f3 : BitVec 3) (op : BitVec 7) (h12 : w.extractLsb' 12 3 = f3) (h0 : w.extractLsb' 0 7 = op) :
    encI f3 op (rdOf w) (rs1Of w) (immIOf w) = w := by
  subst h12 h0
  unfold encI
  apply BitVec.eq_of_getLsbD_eq
  intro i hi
  simp only [regBits, rdOf, rs1Of, immIOf, BitVec.ofFin_toFin, BitVec.getLsbD_append, BitVec.getLsbD_extractLsb']
  (repeat' split) <;> first | omega | (simp (disch := omega) only [decide_eq_true, Bool.true_and]; congr 1; omega)

theorem encS_fields (w : Word32) (f3 : BitVec 3) (op : BitVec 7) (h12 : w.extractLsb' 12 3 = f3) (h0 : w.extractLsb' 0 7 = op) :
    encS f3 op (rs1Of w) (rs2Of w) (immSOf w) = w := by
  subst h12 h0
  unfold encS
  apply BitVec.eq_of_getLsbD_eq
  intro i hi
  simp only [regBits, rs1Of, rs2Of, immSOf, BitVec.ofFin_toFin, BitVec.getLsbD_append, BitVec.getLsbD_extractLsb']
  (repeat' split) <;> first | omega | (simp (disch := omega) only [decide_eq_true, Bool.true_and]; congr 1; omega)

theorem encB_fields (w : Word32) (f3 : BitVec 3) (op : BitVec 7) (h12 : w.extractLsb' 12 3 = f3) (h0 : w.extractLsb' 0 7 = op) :
    encB f3 op (rs1Of w) (rs2Of w) (immBOf w) = w := by
  subst h12 h0
  unfold encB
  apply BitVec.eq_of_getLsbD_eq
  intro i hi
  simp only [regBits, rs1Of, rs2Of, immBOf, BitVec.ofFin_toFin, BitVec.getLsbD_append, BitVec.getLsbD_extractLsb']
  interval_cases i <;> rfl

theorem encU_fields (w : Word32) (op : BitVec 7) (h0 : w.extractLsb' 0 7 = op) :
    encU op (rdOf w) (immUOf w) = w := by
  subst h0
  unfold encU
  apply BitVec.eq_of_getLsbD_eq
  intro i hi
  simp only [regBits, rdOf, immUOf, BitVec.ofFin_toFin, BitVec.getLsbD_append, BitVec.getLsbD_extractLsb']
  (repeat' split) <;> first | omega | (simp (disch := omega) only [decide_eq_true, Bool.true_and]; congr 1; omega)

theorem encJ_fields (w : Word32) (op : BitVec 7) (h0 : w.extractLsb' 0 7 = op) :
    encJ op (rdOf w) (immJOf w) = w := by
  subst h0
  unfold encJ
  apply BitVec.eq_of_getLsbD_eq
  intro i hi
  simp only [regBits, rdOf, immJOf, BitVec.ofFin_toFin, BitVec.getLsbD_append, BitVec.getLsbD_extractLsb']
  interval_cases i <;> rfl

theorem encShift64_fields (w : Word32) (f6 : BitVec 6) (f3 : BitVec 3) (op : BitVec 7) (h26 : w.extractLsb' 26 6 = f6) (h12 : w.extractLsb' 12 3 = f3) (h0 : w.extractLsb' 0 7 = op) :
    encShift64 f6 f3 op (rdOf w) (rs1Of w) (shamt6Of w) = w := by
  subst h26 h12 h0
  unfold encShift64
  apply BitVec.eq_of_getLsbD_eq
  intro i hi
  simp only [regBits, rdOf, rs1Of, shamt6Of, BitVec.ofFin_toFin, BitVec.getLsbD_append, BitVec.getLsbD_extractLsb']
  (repeat' split) <;> first | omega | (simp (disch := omega) only [decide_eq_true, Bool.true_and]; congr 1; omega)

theorem encShift32_fields (w : Word32) (f7 : BitVec 7) (f3 : BitVec 3) (op : BitVec 7) (h25 : w.extractLsb' 25 7 = f7) (h12 : w.extractLsb' 12 3 = f3) (h0 : w.extractLsb' 0 7 = op) :
    encShift32 f7 f3 op (rdOf w) (rs1Of w) (shamt5Of w) = w := by
  subst h25 h12 h0
  unfold encShift32
  apply BitVec.eq_of_getLsbD_eq
  intro i hi
  simp only [regBits, rdOf, rs1Of, shamt5Of, BitVec.ofFin_toFin, BitVec.getLsbD_append, BitVec.getLsbD_extractLsb']
  (repeat' split) <;> first | omega | (simp (disch := omega) only [decide_eq_true, Bool.true_and]; congr 1; omega)

theorem encAmo_fields (w : Word32) (f5 : BitVec 5) (f3 : BitVec 3) (h27 : w.extractLsb' 27 5 = f5) (h12 : w.extractLsb' 12 3 = f3) (h0 : w.extractLsb' 0 7 = 0b0101111#7) :
    encAmo f5 f3 (aqOf w) (rlOf w) (rdOf w) (rs1Of w) (rs2Of w) = w := by
  subst h27 h12
  unfold encAmo
  rw [← h0]
  apply BitVec.eq_of_getLsbD_eq
  intro i hi
  simp only [regBits, rdOf, rs1Of, rs2Of, aqOf, rlOf, BitVec.ofFin_toFin, BitVec.getLsbD_append, BitVec.getLsbD_extractLsb']
  interval_cases i <;> first | rfl | (cases hb : w.getLsbD 25 <;> cases hc : w.getLsbD 26 <;> simp_all)

theorem encCsr_fields (w : Word32) (f3 : BitVec 3) (h12 : w.extractLsb' 12 3 = f3) (h0 : w.extractLsb' 0 7 = 0b1110011#7) :
    encCsr f3 (rdOf w) (csrOf w) (rs1Of w) = w := by
  subst h12
  unfold encCsr
  rw [← h0]
  apply BitVec.eq_of_getLsbD_eq
  intro i hi
  simp only [regBits, rdOf, rs1Of, csrOf, BitVec.ofFin_toFin, BitVec.getLsbD_append, BitVec.getLsbD_extractLsb']
  (repeat' split) <;> first | omega | (simp (disch := omega) only [decide_eq_true, Bool.true_and]; congr 1; omega)

theorem encCsrI_fields (w : Word32) (f3 : BitVec 3) (h12 : w.extractLsb' 12 3 = f3) (h0 : w.extractLsb' 0 7 = 0b1110011#7) :
    encCsrI f3 (rdOf w) (csrOf w) (uimmOf w) = w := by
  subst h12
  unfold encCsrI
  rw [← h0]
  apply BitVec.eq_of_getLsbD_eq
  intro i hi
  simp only [regBits, rdOf, uimmOf, csrOf, BitVec.ofFin_toFin, BitVec.getLsbD_append, BitVec.getLsbD_extractLsb']
  (repeat' split) <;> first | omega | (simp (disch := omega) only [decide_eq_true, Bool.true_and]; congr 1; omega)

theorem encFence_fields (w : Word32) (h12 : w.extractLsb' 12 3 = 0b000#3) (h0 : w.extractLsb' 0 7 = 0b0001111#7) :
    encFence (fmOf w) (predOf w) (succOf w) (rs1Of w) (rdOf w) = w := by
  unfold encFence
  rw [← h12]
  rw [← h0]
  apply BitVec.eq_of_getLsbD_eq
  intro i hi
  simp only [regBits, rdOf, rs1Of, fmOf, predOf, succOf, BitVec.ofFin_toFin, BitVec.getLsbD_append, BitVec.getLsbD_extractLsb']
  (repeat' split) <;> first | omega | (simp (disch := omega) only [decide_eq_true, Bool.true_and]; congr 1; omega)

theorem encSfence_fields (w : Word32) (h25 : w.extractLsb' 25 7 = 0b0001001#7) (h12 : w.extractLsb' 12 3 = 0b000#3) (h7 : w.extractLsb' 7 5 = 0b00000#5) (h0 : w.extractLsb' 0 7 = 0b1110011#7) :
    encSfence (rs1Of w) (rs2Of w) = w := by
  unfold encSfence
  rw [← h25]
  rw [← h12]
  rw [← h7]
  rw [← h0]
  apply BitVec.eq_of_getLsbD_eq
  intro i hi
  simp only [regBits, rs1Of, rs2Of, BitVec.ofFin_toFin, BitVec.getLsbD_append, BitVec.getLsbD_extractLsb']
  (repeat' split) <;> first | omega | (simp (disch := omega) only [decide_eq_true, Bool.true_and]; congr 1; omega)

/-! ## The fixed bits of an encoded word -/

theorem encR_fixed (f7 : BitVec 7) (f3 : BitVec 3) (op : BitVec 7) (rd rs1 rs2 : Reg) :
    encR f7 f3 op rd rs1 rs2 &&& 0xFE00707F#32 = f7 ++ 0#10 ++ f3 ++ 0#5 ++ op := by
  rw [BitVec.and_comm]
  apply BitVec.eq_of_getLsbD_eq
  intro i hi
  simp only [encR, BitVec.getLsbD_and, BitVec.getLsbD_append]
  interval_cases i <;> rfl

theorem encI_fixed (f3 : BitVec 3) (op : BitVec 7) (rd rs1 : Reg) (imm : BitVec 12) :
    encI f3 op rd rs1 imm &&& 0x0000707F#32 = 0#17 ++ f3 ++ 0#5 ++ op := by
  rw [BitVec.and_comm]
  apply BitVec.eq_of_getLsbD_eq
  intro i hi
  simp only [encI, BitVec.getLsbD_and, BitVec.getLsbD_append]
  interval_cases i <;> rfl

theorem encS_fixed (f3 : BitVec 3) (op : BitVec 7) (rs1 rs2 : Reg) (imm : BitVec 12) :
    encS f3 op rs1 rs2 imm &&& 0x0000707F#32 = 0#17 ++ f3 ++ 0#5 ++ op := by
  rw [BitVec.and_comm]
  apply BitVec.eq_of_getLsbD_eq
  intro i hi
  simp only [encS, BitVec.getLsbD_and, BitVec.getLsbD_append]
  interval_cases i <;> rfl

theorem encB_fixed (f3 : BitVec 3) (op : BitVec 7) (rs1 rs2 : Reg) (imm : BitVec 13) :
    encB f3 op rs1 rs2 imm &&& 0x0000707F#32 = 0#17 ++ f3 ++ 0#5 ++ op := by
  rw [BitVec.and_comm]
  apply BitVec.eq_of_getLsbD_eq
  intro i hi
  simp only [encB, BitVec.getLsbD_and, BitVec.getLsbD_append]
  interval_cases i <;> rfl

theorem encU_fixed (op : BitVec 7) (rd : Reg) (imm : BitVec 20) :
    encU op rd imm &&& 0x0000007F#32 = 0#25 ++ op := by
  rw [BitVec.and_comm]
  apply BitVec.eq_of_getLsbD_eq
  intro i hi
  simp only [encU, BitVec.getLsbD_and, BitVec.getLsbD_append]
  interval_cases i <;> rfl

theorem encJ_fixed (op : BitVec 7) (rd : Reg) (imm : BitVec 21) :
    encJ op rd imm &&& 0x0000007F#32 = 0#25 ++ op := by
  rw [BitVec.and_comm]
  apply BitVec.eq_of_getLsbD_eq
  intro i hi
  simp only [encJ, BitVec.getLsbD_and, BitVec.getLsbD_append]
  interval_cases i <;> rfl

theorem encShift64_fixed (f6 : BitVec 6) (f3 : BitVec 3) (op : BitVec 7) (rd rs1 : Reg) (shamt : BitVec 6) :
    encShift64 f6 f3 op rd rs1 shamt &&& 0xFC00707F#32 = f6 ++ 0#11 ++ f3 ++ 0#5 ++ op := by
  rw [BitVec.and_comm]
  apply BitVec.eq_of_getLsbD_eq
  intro i hi
  simp only [encShift64, BitVec.getLsbD_and, BitVec.getLsbD_append]
  interval_cases i <;> rfl

theorem encShift32_fixed (f7 : BitVec 7) (f3 : BitVec 3) (op : BitVec 7) (rd rs1 : Reg) (shamt : BitVec 5) :
    encShift32 f7 f3 op rd rs1 shamt &&& 0xFE00707F#32 = f7 ++ 0#10 ++ f3 ++ 0#5 ++ op := by
  rw [BitVec.and_comm]
  apply BitVec.eq_of_getLsbD_eq
  intro i hi
  simp only [encShift32, BitVec.getLsbD_and, BitVec.getLsbD_append]
  interval_cases i <;> rfl

theorem encAmo_fixed (f5 : BitVec 5) (f3 : BitVec 3) (aq rl : Bool) (rd rs1 rs2 : Reg) :
    encAmo f5 f3 aq rl rd rs1 rs2 &&& 0xF800707F#32 = f5 ++ 0#12 ++ f3 ++ 0#5 ++ 0b0101111#7 := by
  rw [BitVec.and_comm]
  apply BitVec.eq_of_getLsbD_eq
  intro i hi
  simp only [encAmo, BitVec.getLsbD_and, BitVec.getLsbD_append]
  interval_cases i <;> rfl

theorem encCsr_fixed (f3 : BitVec 3) (rd : Reg) (csr : CsrNum) (rs1 : Reg) :
    encCsr f3 rd csr rs1 &&& 0x0000707F#32 = 0#17 ++ f3 ++ 0#5 ++ 0b1110011#7 := by
  rw [BitVec.and_comm]
  apply BitVec.eq_of_getLsbD_eq
  intro i hi
  simp only [encCsr, BitVec.getLsbD_and, BitVec.getLsbD_append]
  interval_cases i <;> rfl

theorem encCsrI_fixed (f3 : BitVec 3) (rd : Reg) (csr : CsrNum) (uimm : BitVec 5) :
    encCsrI f3 rd csr uimm &&& 0x0000707F#32 = 0#17 ++ f3 ++ 0#5 ++ 0b1110011#7 := by
  rw [BitVec.and_comm]
  apply BitVec.eq_of_getLsbD_eq
  intro i hi
  simp only [encCsrI, BitVec.getLsbD_and, BitVec.getLsbD_append]
  interval_cases i <;> rfl

theorem encFence_fixed (fm pred succ : BitVec 4) (rs1 rd : Reg) :
    encFence fm pred succ rs1 rd &&& 0x0000707F#32 = 0#17 ++ 0b000#3 ++ 0#5 ++ 0b0001111#7 := by
  rw [BitVec.and_comm]
  apply BitVec.eq_of_getLsbD_eq
  intro i hi
  simp only [encFence, BitVec.getLsbD_and, BitVec.getLsbD_append]
  interval_cases i <;> rfl

theorem encSfence_fixed (rs1 rs2 : Reg) :
    encSfence rs1 rs2 &&& 0xFE007FFF#32 = 0b0001001#7 ++ 0#10 ++ 0b000#3 ++ 0b00000#5 ++ 0b1110011#7 := by
  rw [BitVec.and_comm]
  apply BitVec.eq_of_getLsbD_eq
  intro i hi
  simp only [encSfence, BitVec.getLsbD_and, BitVec.getLsbD_append]
  interval_cases i <;> rfl

end Sys2Proof
end

