-- ==== Sys2Proof/Laws/Trap.lean ====
section
/-! SUPPORT. What taking a trap and returning from one leave: the entry to each mode whole, and the fields no trap touches. -/

namespace Sys2Proof.Machine

/-! ## mstatus -/

theorem statusAfterSTrap_bits (md : Mode) (v : Word) : STrapStatus md v (statusAfterSTrap md v) := by
  intro n hn
  unfold statusAfterSTrap
  rw [getLsbD_setBit _ _ _ _ hn, getLsbD_setBit _ _ _ _ hn, getLsbD_setBit _ _ _ _ hn]
  simp only [bitSPP, bitSIE, bitSPIE]
  by_cases h8 : n = 8
  · subst h8; cases md <;> rfl
  · simp [h8]

theorem statusAfterMTrap_bits (v : Word) : MTrapStatus v (statusAfterMTrap v) := by
  intro n hn
  unfold statusAfterMTrap clearMpp
  rw [getLsbD_setBit _ _ _ _ hn, getLsbD_setBit _ _ _ _ hn, getLsbD_setBit _ _ _ _ hn, getLsbD_setBit _ _ _ _ hn]
  simp only [bitMIE, bitMPIE]
  by_cases h12 : n = 12
  · subst h12; rfl
  · by_cases h11 : n = 11
    · subst h11; rfl
    · simp [h12, h11]

theorem getLsbD_statusAfterSret (v : Word) (n : Nat) (hn : n < 64) :
    (statusAfterSret v).getLsbD n = if n = 1 then v.getLsbD 5 else if n = 5 then true else v.getLsbD n := by
  unfold statusAfterSret
  rw [getLsbD_setBit _ _ _ _ hn, getLsbD_setBit _ _ _ _ hn]
  simp only [bitSIE, bitSPIE]
  by_cases h5 : n = 5
  · subst h5; rfl
  · simp [h5]

theorem getLsbD_statusAfterMret (v : Word) (n : Nat) (hn : n < 64) :
    (statusAfterMret v).getLsbD n =
      if n = 3 then v.getLsbD 7 else if n = 7 then true else if n = 11 ∨ n = 12 then false else v.getLsbD n := by
  unfold statusAfterMret clearMpp
  rw [getLsbD_setBit _ _ _ _ hn, getLsbD_setBit _ _ _ _ hn, getLsbD_setBit _ _ _ _ hn, getLsbD_setBit _ _ _ _ hn]
  simp only [bitMIE, bitMPIE]
  by_cases h12 : n = 12
  · subst h12; rfl
  · by_cases h11 : n = 11
    · subst h11; rfl
    · by_cases h7 : n = 7
      · subst h7; rfl
      · simp [h12, h11, h7]

/-! ## Entry -/

theorem trapTarget_eq (vec : Word) (t : Trap) : trapTarget vec t = VectorTarget vec t.cause t.isInterrupt := by
  unfold trapTarget VectorTarget
  simp only [Bool.and_eq_true]

/-- Delegation in the rules' terms (R441). -/
theorem delegated_iff (s : State) (t : Trap) : delegated s t = true ↔ GoesToS t.cause t.isInterrupt s := by
  unfold delegated GoesToS delegationCsr
  simp only [Bool.and_eq_true, bne_iff_ne, beq_iff_eq]

/-- Everything entry to S-mode does (R440, R443). -/
theorem enterS_entry (t : Trap) (epc : Word) (s : State) : SEntry t.cause t.isInterrupt epc s (enterS t epc s) where
  rest := rfl
  pc := trapTarget_eq _ _
  sepc := by
    unfold enterS
    rw [csr_setCsr_ne _ _ (by decide), csr_setCsr_ne _ _ (by decide), csr_setCsr_ne _ _ (by decide), csr_setCsr_self]
  scause := by
    unfold enterS
    rw [csr_setCsr_ne _ _ (by decide), csr_setCsr_ne _ _ (by decide), csr_setCsr_self]
  stval := by
    unfold enterS
    rw [csr_setCsr_ne _ _ (by decide), csr_setCsr_self]
  mstatus := by
    unfold enterS
    rw [csr_setCsr_self]
    exact statusAfterSTrap_bits _ _
  others := by
    intro a ha
    simp only [List.mem_cons, List.not_mem_nil, or_false, not_or] at ha
    unfold enterS
    rw [csr_setCsr_ne _ _ ha.2.2.2, csr_setCsr_ne _ _ ha.2.2.1, csr_setCsr_ne _ _ ha.2.1, csr_setCsr_ne _ _ ha.1]
    rfl

/-- Everything entry to M-mode does (R440, R444). -/
theorem enterM_entry (t : Trap) (epc : Word) (s : State) : MEntry t.cause t.isInterrupt epc s (enterM t epc s) where
  rest := rfl
  pc := trapTarget_eq _ _
  mepc := by
    unfold enterM
    rw [csr_setCsr_ne _ _ (by decide), csr_setCsr_ne _ _ (by decide), csr_setCsr_ne _ _ (by decide), csr_setCsr_self]
  mcause := by
    unfold enterM
    rw [csr_setCsr_ne _ _ (by decide), csr_setCsr_ne _ _ (by decide), csr_setCsr_self]
  mtval := by
    unfold enterM
    rw [csr_setCsr_ne _ _ (by decide), csr_setCsr_self]
  mstatus := by
    unfold enterM
    rw [csr_setCsr_self]
    exact statusAfterMTrap_bits _
  others := by
    intro a ha
    simp only [List.mem_cons, List.not_mem_nil, or_false, not_or] at ha
    unfold enterM
    rw [csr_setCsr_ne _ _ ha.2.2.2, csr_setCsr_ne _ _ ha.2.2.1, csr_setCsr_ne _ _ ha.2.1, csr_setCsr_ne _ _ ha.1]
    rfl

/-- A trap entry is one of the two. -/
theorem takeTrap_cases (t : Trap) (epc : Word) (s : State) :
    (delegated s t = true ∧ takeTrap t epc s = enterS t epc s) ∨
      (delegated s t = false ∧ takeTrap t epc s = enterM t epc s) := by
  unfold takeTrap
  cases delegated s t
  · exact .inr ⟨rfl, rfl⟩
  · exact .inl ⟨rfl, rfl⟩

/-- No trap entry changes a CSR but the target mode's trap CSRs and mstatus. -/
theorem csr_takeTrap_ne (t : Trap) (epc : Word) (s : State) (a : CsrNum)
    (h : a ∉ [csrSepc, csrScause, csrStval, csrMepc, csrMcause, csrMtval, csrMstatus]) :
    (takeTrap t epc s).csr a = s.csr a := by
  simp only [List.mem_cons, List.not_mem_nil, or_false, not_or] at h
  obtain ⟨_, e⟩ | ⟨_, e⟩ := takeTrap_cases t epc s
  · rw [e]; exact (enterS_entry t epc s).others a (by simp [h])
  · rw [e]; exact (enterM_entry t epc s).others a (by simp [h])

@[simp] theorem takeTrap_cfg (t : Trap) (epc : Word) (s : State) : (takeTrap t epc s).cfg = s.cfg := by
  unfold takeTrap; split <;> rfl
@[simp] theorem takeTrap_regs (t : Trap) (epc : Word) (s : State) : (takeTrap t epc s).regs = s.regs := by
  unfold takeTrap; split <;> rfl
@[simp] theorem takeTrap_pagingOn (t : Trap) (epc : Word) (s : State) : (takeTrap t epc s).pagingOn = s.pagingOn := by
  unfold takeTrap; split <;> rfl
@[simp] theorem takeTrap_ptRoot (t : Trap) (epc : Word) (s : State) : (takeTrap t epc s).ptRoot = s.ptRoot := by
  unfold takeTrap; split <;> rfl
@[simp] theorem takeTrap_mem (t : Trap) (epc : Word) (s : State) : (takeTrap t epc s).mem = s.mem := by
  unfold takeTrap; split <;> rfl
@[simp] theorem takeTrap_clint (t : Trap) (epc : Word) (s : State) : (takeTrap t epc s).clint = s.clint := by
  unfold takeTrap; split <;> rfl
@[simp] theorem takeTrap_plic (t : Trap) (epc : Word) (s : State) : (takeTrap t epc s).plic = s.plic := by
  unfold takeTrap; split <;> rfl
@[simp] theorem takeTrap_uart (t : Trap) (epc : Word) (s : State) : (takeTrap t epc s).uart = s.uart := by
  unfold takeTrap; split <;> rfl
@[simp] theorem takeTrap_disk (t : Trap) (epc : Word) (s : State) : (takeTrap t epc s).disk = s.disk := by
  unfold takeTrap; split <;> rfl
@[simp] theorem takeTrap_diskBacking (t : Trap) (epc : Word) (s : State) : (takeTrap t epc s).diskBacking = s.diskBacking := by
  unfold takeTrap; split <;> rfl
@[simp] theorem takeTrap_kbdQueue (t : Trap) (epc : Word) (s : State) : (takeTrap t epc s).kbdQueue = s.kbdQueue := by
  unfold takeTrap; split <;> rfl
@[simp] theorem takeTrap_uartOut (t : Trap) (epc : Word) (s : State) : (takeTrap t epc s).uartOut = s.uartOut := by
  unfold takeTrap; split <;> rfl
@[simp] theorem takeTrap_status (t : Trap) (epc : Word) (s : State) : (takeTrap t epc s).status = s.status := by
  unfold takeTrap; split <;> rfl
@[simp] theorem takeTrap_hostSchedule (t : Trap) (epc : Word) (s : State) : (takeTrap t epc s).hostSchedule = s.hostSchedule := by
  unfold takeTrap; split <;> rfl

@[simp] theorem reg_takeTrap (t : Trap) (epc : Word) (s : State) (q : Reg) : (takeTrap t epc s).reg q = s.reg q :=
  reg_congr (takeTrap_regs t epc s) q

/-! ## Exceptions -/

@[simp] theorem raiseAt_cfg (e : Exception) (epc : Word) (s : State) : (raiseAt e epc s).cfg = s.cfg := by
  unfold raiseAt; split <;> simp
@[simp] theorem raiseAt_regs (e : Exception) (epc : Word) (s : State) : (raiseAt e epc s).regs = s.regs := by
  unfold raiseAt; split <;> simp
@[simp] theorem raiseAt_pagingOn (e : Exception) (epc : Word) (s : State) : (raiseAt e epc s).pagingOn = s.pagingOn := by
  unfold raiseAt; split <;> simp
@[simp] theorem raiseAt_ptRoot (e : Exception) (epc : Word) (s : State) : (raiseAt e epc s).ptRoot = s.ptRoot := by
  unfold raiseAt; split <;> simp
@[simp] theorem raiseAt_mem (e : Exception) (epc : Word) (s : State) : (raiseAt e epc s).mem = s.mem := by
  unfold raiseAt; split <;> simp
@[simp] theorem raiseAt_clint (e : Exception) (epc : Word) (s : State) : (raiseAt e epc s).clint = s.clint := by
  unfold raiseAt; split <;> simp
@[simp] theorem raiseAt_plic (e : Exception) (epc : Word) (s : State) : (raiseAt e epc s).plic = s.plic := by
  unfold raiseAt; split <;> simp
@[simp] theorem raiseAt_uart (e : Exception) (epc : Word) (s : State) : (raiseAt e epc s).uart = s.uart := by
  unfold raiseAt; split <;> simp
@[simp] theorem raiseAt_disk (e : Exception) (epc : Word) (s : State) : (raiseAt e epc s).disk = s.disk := by
  unfold raiseAt; split <;> simp
@[simp] theorem raiseAt_diskBacking (e : Exception) (epc : Word) (s : State) : (raiseAt e epc s).diskBacking = s.diskBacking := by
  unfold raiseAt; split <;> simp
@[simp] theorem raiseAt_kbdQueue (e : Exception) (epc : Word) (s : State) : (raiseAt e epc s).kbdQueue = s.kbdQueue := by
  unfold raiseAt; split <;> simp
@[simp] theorem raiseAt_uartOut (e : Exception) (epc : Word) (s : State) : (raiseAt e epc s).uartOut = s.uartOut := by
  unfold raiseAt; split <;> simp
@[simp] theorem raiseAt_hostSchedule (e : Exception) (epc : Word) (s : State) : (raiseAt e epc s).hostSchedule = s.hostSchedule := by
  unfold raiseAt; split <;> simp

/-- The status after an exception: halted for a fatal one, else as before (R415, R416). -/
theorem raiseAt_status (e : Exception) (epc : Word) (s : State) :
    (raiseAt e epc s).status = if e.fatal then .halted e else s.status := by
  unfold raiseAt; split <;> simp

theorem csr_raiseAt (e : Exception) (epc : Word) (s : State) (a : CsrNum) :
    (raiseAt e epc s).csr a = (takeTrap (.exception e) epc s).csr a := by
  unfold raiseAt; split <;> simp

/-- No exception changes a CSR but the target mode's trap CSRs and mstatus. -/
theorem csr_raiseAt_ne (e : Exception) (epc : Word) (s : State) (a : CsrNum)
    (h : a ∉ [csrSepc, csrScause, csrStval, csrMepc, csrMcause, csrMtval, csrMstatus]) :
    (raiseAt e epc s).csr a = s.csr a := by
  rw [csr_raiseAt, csr_takeTrap_ne _ _ _ _ h]

@[simp] theorem reg_raiseAt (e : Exception) (epc : Word) (s : State) (q : Reg) : (raiseAt e epc s).reg q = s.reg q :=
  reg_congr (raiseAt_regs e epc s) q

@[simp] theorem raise_cfg (e : Exception) (s : State) : (raise e s).cfg = s.cfg := raiseAt_cfg e _ s
@[simp] theorem raise_regs (e : Exception) (s : State) : (raise e s).regs = s.regs := raiseAt_regs e _ s
@[simp] theorem raise_pagingOn (e : Exception) (s : State) : (raise e s).pagingOn = s.pagingOn := raiseAt_pagingOn e _ s
@[simp] theorem raise_ptRoot (e : Exception) (s : State) : (raise e s).ptRoot = s.ptRoot := raiseAt_ptRoot e _ s
@[simp] theorem raise_mem (e : Exception) (s : State) : (raise e s).mem = s.mem := raiseAt_mem e _ s
@[simp] theorem raise_clint (e : Exception) (s : State) : (raise e s).clint = s.clint := raiseAt_clint e _ s
@[simp] theorem raise_plic (e : Exception) (s : State) : (raise e s).plic = s.plic := raiseAt_plic e _ s
@[simp] theorem raise_uart (e : Exception) (s : State) : (raise e s).uart = s.uart := raiseAt_uart e _ s
@[simp] theorem raise_disk (e : Exception) (s : State) : (raise e s).disk = s.disk := raiseAt_disk e _ s
@[simp] theorem raise_diskBacking (e : Exception) (s : State) : (raise e s).diskBacking = s.diskBacking := raiseAt_diskBacking e _ s
@[simp] theorem raise_kbdQueue (e : Exception) (s : State) : (raise e s).kbdQueue = s.kbdQueue := raiseAt_kbdQueue e _ s
@[simp] theorem raise_uartOut (e : Exception) (s : State) : (raise e s).uartOut = s.uartOut := raiseAt_uartOut e _ s
@[simp] theorem raise_hostSchedule (e : Exception) (s : State) : (raise e s).hostSchedule = s.hostSchedule := raiseAt_hostSchedule e _ s

theorem raise_status (e : Exception) (s : State) : (raise e s).status = if e.fatal then .halted e else s.status :=
  raiseAt_status e _ s

theorem csr_raise_ne (e : Exception) (s : State) (a : CsrNum)
    (h : a ∉ [csrSepc, csrScause, csrStval, csrMepc, csrMcause, csrMtval, csrMstatus]) : (raise e s).csr a = s.csr a :=
  csr_raiseAt_ne e _ s a h

@[simp] theorem reg_raise (e : Exception) (s : State) (q : Reg) : (raise e s).reg q = s.reg q := reg_raiseAt e _ s q

/-! ## Returns -/

/-- Everything SRET's return does to the CSR file (R384). -/
theorem csr_returnS (s : State) (a : CsrNum) :
    (returnS s).csr a = if a = csrMstatus then statusAfterSret (s.csr csrMstatus) else s.csr a := by
  unfold returnS; rw [csr_setCsr]; rfl

/-- MRET's return is a refusal or a return to the mode MPP names (R385, R386). -/
theorem returnM_cases (s : State) :
    (mpp (s.csr csrMstatus) = 2 ∧ returnM s = s.setStatus (.refused .mretReservedMode)) ∨
    (∃ md, modeOfMpp (mpp (s.csr csrMstatus)) = some md ∧ mpp (s.csr csrMstatus) ≠ 2 ∧
      returnM s = ((s.setPc (s.csr csrMepc)).setMode md).setCsr csrMstatus (statusAfterMret (s.csr csrMstatus))) := by
  unfold returnM
  have h : ∀ b : BitVec 2, b = 0 ∨ b = 1 ∨ b = 2 ∨ b = 3 := by decide
  obtain h | h | h | h := h (mpp (s.csr csrMstatus)) <;> rw [h]
  · exact .inr ⟨.u, rfl, by decide, rfl⟩
  · exact .inr ⟨.s, rfl, by decide, rfl⟩
  · exact .inl ⟨rfl, rfl⟩
  · exact .inr ⟨.m, rfl, by decide, rfl⟩

end Sys2Proof.Machine
end

