-- ==== Sys2Proof/Laws/Translation.lean ====
section
/-! SUPPORT. What translation depends on, what the virtual-memory primitives answer, and what a load, a store and an AMO do. -/

namespace Sys2Proof.Machine

/-! ## Page-table reads -/

/-- A page-table read depends on RAM, the CLINT and the parameters. -/
theorem readPte_congr {s t : State} (hm : t.mem = s.mem) (hc : t.clint = s.clint) (hp : t.cfg = s.cfg) (a : Word) :
    readPte a t = readPte a s := by
  unfold readPte busLoad
  rw [hp]
  cases hr : regionOf s.cfg a.toNat with
  | none => rfl
  | some r =>
    cases r with
    | ram => simp only [hm]; cases inRam a.toNat .double <;> rfl
    | device d =>
      generalize a.toNat - d.base s.cfg = off
      cases d <;> simp [Device.naturalWidth, deviceLoad, clintLoad, hc, hp]

/-- Where two states read the same page tables, a walk answers the same address. -/
theorem walk_congr {s t : State} (hm : t.mem = s.mem) (hc : t.clint = s.clint) (hp : t.cfg = s.cfg) (va : Word)
    (kind : Access) (level : Nat) (a : Word) : walk t va kind level a = walk s va kind level a := by
  induction level generalizing a with
  | zero => unfold walk; rw [readPte_congr hm hc hp]
  | succ n ih => unfold walk; rw [readPte_congr hm hc hp]; simp only [ih]

theorem translate_congr {s t : State} (hm : t.mem = s.mem) (hc : t.clint = s.clint) (hp : t.cfg = s.cfg)
    (hg : t.pagingOn = s.pagingOn) (hr : t.ptRoot = s.ptRoot) (va : Word) (kind : Access) :
    translate va kind t = translate va kind s := by
  unfold translate; rw [hg, hr, walk_congr hm hc hp]

/-- A walk's address does not depend on the kind of access. -/
theorem walk_ok_kind {s : State} {va : Word} {kind : Access} (kind' : Access) {level : Nat} {a pa : Word}
    (h : walk s va kind level a = .ok pa) : walk s va kind' level a = .ok pa := by
  induction level generalizing a with
  | zero =>
    unfold walk at h ⊢
    split at h
    · cases h
    · split at h
      · cases h
      · split at h
        · rw [if_neg ‹_›, if_pos ‹_›]; exact h
        · cases h
  | succ n ih =>
    unfold walk at h ⊢
    split at h
    · cases h
    · split at h
      · cases h
      · split at h
        · rw [if_neg ‹_›, if_pos ‹_›]; exact h
        · rw [if_neg ‹_›, if_neg ‹_›]; exact ih h

theorem translate_ok_kind {s : State} {va : Word} {kind : Access} (kind' : Access) {pa : Word}
    (h : translate va kind s = .ok pa) : translate va kind' s = .ok pa := by
  unfold translate at h ⊢
  split at h
  · rw [if_pos ‹_›]; exact walk_ok_kind kind' h
  · rw [if_neg ‹_›]; exact h

/-- A walk raises the kind's page fault or its access fault (R150). -/
theorem walk_error {s : State} {va : Word} {kind : Access} {level : Nat} {a : Word} {e : Exception}
    (h : walk s va kind level a = .error e) : e = kind.accessFault ∨ e = kind.pageFault := by
  induction level generalizing a with
  | zero =>
    unfold walk at h
    split at h
    · cases h; exact .inl rfl
    · split at h
      · cases h; exact .inr rfl
      · split at h
        · cases h
        · cases h; exact .inr rfl
  | succ n ih =>
    unfold walk at h
    split at h
    · cases h; exact .inl rfl
    · split at h
      · cases h; exact .inr rfl
      · split at h
        · cases h
        · exact ih h

theorem translate_error {s : State} {va : Word} {kind : Access} {e : Exception}
    (h : translate va kind s = .error e) : e = kind.accessFault ∨ e = kind.pageFault := by
  unfold translate at h
  split at h
  · exact walk_error h
  · cases h

/-! ## MemRead and MemWrite (R160) -/

theorem memRead_cases (va : Word) (w : Width) (kind : Access) (s : State) :
    (∃ e, translate va kind s = .error e ∧ memRead va w kind s = .error e) ∨
    (∃ pa, translate va kind s = .ok pa ∧ busLoad pa w s = none ∧ memRead va w kind s = .error kind.accessFault) ∨
    (∃ pa v t, translate va kind s = .ok pa ∧ busLoad pa w s = some (v, t) ∧ memRead va w kind s = .ok (v, t)) := by
  unfold memRead
  cases h : translate va kind s with
  | error e => exact .inl ⟨e, rfl, rfl⟩
  | ok pa =>
    cases hb : busLoad pa w s with
    | none => exact .inr (.inl ⟨pa, rfl, hb, by simp only [hb]⟩)
    | some r => exact .inr (.inr ⟨pa, r.1, r.2, rfl, hb, by simp only [hb]⟩)

theorem memWrite_cases (va : Word) (w : Width) (v : Word) (s : State) :
    (∃ e, translate va .store s = .error e ∧ memWrite va w v s = .error e) ∨
    (∃ pa, translate va .store s = .ok pa ∧ busStore pa w v s = none ∧
      memWrite va w v s = .error .storeAmoAccessFault) ∨
    (∃ pa t, translate va .store s = .ok pa ∧ busStore pa w v s = some t ∧ memWrite va w v s = .ok t) := by
  unfold memWrite
  cases h : translate va .store s with
  | error e => exact .inl ⟨e, rfl, rfl⟩
  | ok pa =>
    cases hb : busStore pa w v s with
    | none => exact .inr (.inl ⟨pa, rfl, hb, by simp only [hb]⟩)
    | some t => exact .inr (.inr ⟨pa, t, rfl, hb, by simp only [hb]⟩)

/-! ## Loads, stores and AMOs -/

/-- Everything a load can do (R210). -/
theorem loadTo_cases (w : Width) (ext : Word → Word) (rd rs1 : Reg) (imm : BitVec 12) (s : State) :
    (∃ e, translate (effectiveAddress s rs1 imm) .load s = .error e ∧ loadTo w ext rd rs1 imm s = raise e s) ∨
    (∃ pa, translate (effectiveAddress s rs1 imm) .load s = .ok pa ∧ busLoad pa w s = none ∧
      loadTo w ext rd rs1 imm s = raise .loadAccessFault s) ∨
    (∃ pa v t, translate (effectiveAddress s rs1 imm) .load s = .ok pa ∧ busLoad pa w s = some (v, t) ∧
      loadTo w ext rd rs1 imm s = t.setReg rd (ext v)) := by
  unfold loadTo
  obtain ⟨e, h, hm⟩ | ⟨pa, h, hb, hm⟩ | ⟨pa, v, t, h, hb, hm⟩ :=
    memRead_cases (effectiveAddress s rs1 imm) w .load s <;> rw [hm]
  · exact .inl ⟨e, h, rfl⟩
  · exact .inr (.inl ⟨pa, h, hb, rfl⟩)
  · exact .inr (.inr ⟨pa, v, t, h, hb, rfl⟩)

/-- Everything a store can do (R218). -/
theorem storeFrom_cases (w : Width) (rs1 rs2 : Reg) (imm : BitVec 12) (s : State) :
    (∃ e, translate (effectiveAddress s rs1 imm) .store s = .error e ∧ storeFrom w rs1 rs2 imm s = raise e s) ∨
    (∃ pa, translate (effectiveAddress s rs1 imm) .store s = .ok pa ∧ busStore pa w (s.reg rs2) s = none ∧
      storeFrom w rs1 rs2 imm s = raise .storeAmoAccessFault s) ∨
    (∃ pa t, translate (effectiveAddress s rs1 imm) .store s = .ok pa ∧ busStore pa w (s.reg rs2) s = some t ∧
      storeFrom w rs1 rs2 imm s = t) := by
  unfold storeFrom
  obtain ⟨e, h, hm⟩ | ⟨pa, h, hb, hm⟩ | ⟨pa, t, h, hb, hm⟩ :=
    memWrite_cases (effectiveAddress s rs1 imm) w (s.reg rs2) s <;> rw [hm]
  · exact .inl ⟨e, h, rfl⟩
  · exact .inr (.inl ⟨pa, h, hb, rfl⟩)
  · exact .inr (.inr ⟨pa, t, h, hb, rfl⟩)

/-- What a load leaves of what translation depends on. -/
theorem translate_after_busLoad {s t : State} {pa v : Word} {w : Width} (h : busLoad pa w s = some (v, t))
    (va : Word) (kind : Access) : translate va kind t = translate va kind s := by
  have hr := busLoad_rest h
  exact translate_congr (by rw [hr]) (by rw [hr]) (by rw [hr]) (by rw [hr]) (by rw [hr]) va kind

/-- Everything an AMO can do (R300): after a read half that succeeds, the write half does too. -/
theorem amo_cases (w : Width) (new ret : Word → Word) (rd rs1 : Reg) (s : State) :
    ((s.reg rs1).toNat % w.bytes ≠ 0 ∧ amo w new ret rd rs1 s = raise .loadAddressMisaligned s) ∨
    ((s.reg rs1).toNat % w.bytes = 0 ∧
      ((∃ e, translate (s.reg rs1) .load s = .error e ∧ amo w new ret rd rs1 s = raise e s) ∨
      (∃ pa, translate (s.reg rs1) .load s = .ok pa ∧ busLoad pa w s = none ∧
        amo w new ret rd rs1 s = raise .loadAccessFault s) ∨
      (∃ pa a t u, translate (s.reg rs1) .load s = .ok pa ∧ busLoad pa w s = some (a, t) ∧
        busStore pa w (new a) t = some u ∧ amo w new ret rd rs1 s = u.setReg rd (ret a)))) := by
  unfold amo
  by_cases hal : (s.reg rs1).toNat % w.bytes = 0
  · rw [if_neg (by simpa using hal)]
    refine .inr ⟨hal, ?_⟩
    obtain ⟨e, h, hm⟩ | ⟨pa, h, hb, hm⟩ | ⟨pa, a, t, h, hb, hm⟩ := memRead_cases (s.reg rs1) w .load s <;> rw [hm]
    · exact .inl ⟨e, h, rfl⟩
    · exact .inr (.inl ⟨pa, h, hb, rfl⟩)
    · refine .inr (.inr ?_)
      obtain ⟨u, hu⟩ := busStore_of_busLoad (v' := new a) hb
      refine ⟨pa, a, t, u, h, hb, hu, ?_⟩
      have hw : memWrite (s.reg rs1) w (new a) t = .ok u := by
        unfold memWrite
        rw [translate_after_busLoad hb, translate_ok_kind .store h]
        simp only [hu]
      simp only [hw]
  · rw [if_pos hal]; exact .inl ⟨hal, rfl⟩

end Sys2Proof.Machine
end

