-- ==== Sys2Proof/Laws/Poll.lean ====
section
/-! SUPPORT. The end of a step: what host moves, the disk transfer, and the poll leave unchanged and what they do. -/

namespace Sys2Proof.Machine

/-! ## Host moves -/

/-- A host move changes the UART or the keyboard queue (R484). -/
theorem hostMove_rest {m : HostMove} {s t : State} (h : hostMove m s = some t) :
    t = { s with uart := t.uart, kbdQueue := t.kbdQueue } := by
  cases m with
  | uartByte b =>
    simp only [hostMove] at h
    split at h <;> cases h
    rfl
  | scancode v => cases h; rfl
  | ramPointer => cases h; rfl

/-- A host move that is not enabled is a byte while LSR.RX is set (R126). -/
theorem hostMove_none {m : HostMove} {s : State} (h : hostMove m s = none) : s.uartRx = true ∧ ∃ b, m = .uartByte b := by
  cases m with
  | uartByte b =>
    simp only [hostMove] at h
    split at h
    · exact ⟨‹_›, b, rfl⟩
    · cases h
  | scancode v => cases h
  | ramPointer => cases h

/-- Letting host moves in changes the UART and the keyboard queue. -/
theorem letIn_rest (ms : List HostMove) (s : State) :
    (letIn ms s).1 = { s with uart := (letIn ms s).1.uart, kbdQueue := (letIn ms s).1.kbdQueue } := by
  induction ms generalizing s with
  | nil => rfl
  | cons m ms ih =>
    unfold letIn
    split
    · rename_i t ht
      have h1 := ih t
      have h2 := hostMove_rest ht
      generalize (letIn ms t).1 = u at *
      rw [h1, h2]
    · exact ih s

/-- A point of R171 is nothing, or the schedule's next moves let in. -/
theorem letHostIn_cases (s : State) :
    letHostIn s = s ∨ ∃ ms points, s.status = .running ∧ s.hostSchedule = ms :: points ∧
      letHostIn s = { (letIn ms s).1 with hostSchedule := carryOver (letIn ms s).2 points } := by
  unfold letHostIn
  split
  · split
    · exact .inl rfl
    · exact .inr ⟨_, _, ‹_›, ‹_›, rfl⟩
  · exact .inl rfl

theorem letHostIn_rest (s : State) :
    letHostIn s = { s with
      uart := (letHostIn s).uart, kbdQueue := (letHostIn s).kbdQueue, hostSchedule := (letHostIn s).hostSchedule } := by
  obtain e | ⟨ms, points, _, _, e⟩ := letHostIn_cases s
  · rw [e]
  · have h := letIn_rest ms s
    rw [e]
    generalize (letIn ms s).1 = t at *
    rw [h]

@[simp] theorem letHostIn_cfg (s : State) : (letHostIn s).cfg = s.cfg := by rw [letHostIn_rest]
@[simp] theorem letHostIn_regs (s : State) : (letHostIn s).regs = s.regs := by rw [letHostIn_rest]
@[simp] theorem letHostIn_pc (s : State) : (letHostIn s).pc = s.pc := by rw [letHostIn_rest]
@[simp] theorem letHostIn_mode (s : State) : (letHostIn s).mode = s.mode := by rw [letHostIn_rest]
@[simp] theorem letHostIn_pagingOn (s : State) : (letHostIn s).pagingOn = s.pagingOn := by rw [letHostIn_rest]
@[simp] theorem letHostIn_ptRoot (s : State) : (letHostIn s).ptRoot = s.ptRoot := by rw [letHostIn_rest]
@[simp] theorem letHostIn_csrs (s : State) : (letHostIn s).csrs = s.csrs := by rw [letHostIn_rest]
@[simp] theorem letHostIn_mem (s : State) : (letHostIn s).mem = s.mem := by rw [letHostIn_rest]
@[simp] theorem letHostIn_clint (s : State) : (letHostIn s).clint = s.clint := by rw [letHostIn_rest]
@[simp] theorem letHostIn_plic (s : State) : (letHostIn s).plic = s.plic := by rw [letHostIn_rest]
@[simp] theorem letHostIn_disk (s : State) : (letHostIn s).disk = s.disk := by rw [letHostIn_rest]
@[simp] theorem letHostIn_diskBacking (s : State) : (letHostIn s).diskBacking = s.diskBacking := by rw [letHostIn_rest]
@[simp] theorem letHostIn_uartOut (s : State) : (letHostIn s).uartOut = s.uartOut := by rw [letHostIn_rest]
@[simp] theorem letHostIn_status (s : State) : (letHostIn s).status = s.status := by rw [letHostIn_rest]

theorem csr_letHostIn (s : State) (a : CsrNum) : (letHostIn s).csr a = s.csr a := csr_congr (letHostIn_csrs s) a

/-! ## The disk transfer (R433) -/

/-- A transfer to RAM changes what a store can, the disk's registers, and perhaps the status. -/
theorem dmaToRam_rest (bs : List Byte) (addr : Word) (s : State) :
    dmaToRam bs addr s = { s with
      mem := (dmaToRam bs addr s).mem, clint := (dmaToRam bs addr s).clint,
      plic := (dmaToRam bs addr s).plic, uart := { s.uart with bytes := (dmaToRam bs addr s).uart.bytes },
      disk := (dmaToRam bs addr s).disk, uartOut := (dmaToRam bs addr s).uartOut,
      status := (dmaToRam bs addr s).status } := by
  induction bs generalizing addr s with
  | nil => rfl
  | cons b bs ih =>
    unfold dmaToRam
    split
    · rfl
    · rename_i t ht
      have h1 := ih (addr + 1) t
      have h2 := busStore_rest ht
      generalize dmaToRam bs (addr + 1) t = u at *
      rw [h1, h2]

/-- A transfer to the disk changes the UART registers or the keyboard queue, the image, `done`, and perhaps the status. -/
theorem dmaToDisk_rest (n i : Nat) (addr : Word) (s : State) :
    dmaToDisk n i addr s = { s with
      uart := { s.uart with bytes := (dmaToDisk n i addr s).uart.bytes },
      kbdQueue := (dmaToDisk n i addr s).kbdQueue, disk := (dmaToDisk n i addr s).disk,
      diskBacking := (dmaToDisk n i addr s).diskBacking, status := (dmaToDisk n i addr s).status } := by
  induction n generalizing i addr s with
  | zero => rfl
  | succ n ih =>
    unfold dmaToDisk
    split
    · rfl
    · rename_i v t ht
      have h1 := ih (i + 1) (addr + 1) (t.setBacking i (v.setWidth 8))
      have h2 := busLoad_rest ht
      generalize dmaToDisk n (i + 1) (addr + 1) (t.setBacking i (v.setWidth 8)) = u at *
      rw [h1, h2]
      rfl

/-- What a transfer leaves unchanged, whatever it does. -/
theorem dma_rest (s : State) :
    dma s = { s with
      mem := (dma s).mem, clint := (dma s).clint, plic := (dma s).plic,
      uart := { s.uart with bytes := (dma s).uart.bytes }, kbdQueue := (dma s).kbdQueue, disk := (dma s).disk,
      diskBacking := (dma s).diskBacking, uartOut := (dma s).uartOut, status := (dma s).status } := by
  unfold dma dmaCopy
  (repeat' split)
  · rfl
  · rfl
  · rw [dmaToDisk_rest]
  · rw [dmaToRam_rest]

@[simp] theorem dma_cfg (s : State) : (dma s).cfg = s.cfg := by rw [dma_rest]
@[simp] theorem dma_regs (s : State) : (dma s).regs = s.regs := by rw [dma_rest]
@[simp] theorem dma_pc (s : State) : (dma s).pc = s.pc := by rw [dma_rest]
@[simp] theorem dma_mode (s : State) : (dma s).mode = s.mode := by rw [dma_rest]
@[simp] theorem dma_pagingOn (s : State) : (dma s).pagingOn = s.pagingOn := by rw [dma_rest]
@[simp] theorem dma_ptRoot (s : State) : (dma s).ptRoot = s.ptRoot := by rw [dma_rest]
@[simp] theorem dma_csrs (s : State) : (dma s).csrs = s.csrs := by rw [dma_rest]
@[simp] theorem dma_hostSchedule (s : State) : (dma s).hostSchedule = s.hostSchedule := by rw [dma_rest]

theorem toNat_add_one {a : Word} (h : a.toNat + 1 < 2 ^ 64) : (a + 1).toNat = a.toNat + 1 := by
  rw [BitVec.toNat_add]; exact Nat.mod_eq_of_lt h

/-- Two 32-bit halves as one number (R133). -/
theorem toNat_append32 (a b : Word32) : (a ++ b : Word).toNat = a.toNat * 2 ^ 32 + b.toNat := by
  rw [BitVec.toNat_append, ← Nat.shiftLeft_add_eq_or_of_lt b.isLt, Nat.shiftLeft_eq]

/-- A transfer from RAM puts every byte of its range in the image and changes nothing else of it. -/
theorem dmaToDisk_ram (n i : Nat) (addr : Word) (s : State) (img : List Byte) (hi : s.diskBacking = some img)
    (h1 : 0x80000000 ≤ addr.toNat) (h2 : addr.toNat + n ≤ 0x80800000) (h3 : i + n ≤ img.length) :
    ∃ img', dmaToDisk n i addr s = dmaDone { s with diskBacking := some img' } ∧ img'.length = img.length ∧
      (∀ k < n, img'.getD (i + k) 0 = Cells.read s.mem (addr.toNat + k)) ∧
      ∀ j, (j < i ∨ i + n ≤ j) → img'.getD j 0 = img.getD j 0 := by
  induction n generalizing i addr s img with
  | zero => exact ⟨img, by unfold dmaToDisk; rw [← hi], rfl, fun k hk => by omega, fun _ _ => rfl⟩
  | succ n ih =>
    have ha : (addr + 1).toNat = addr.toNat + 1 := toNat_add_one (by omega)
    have hr : inRam addr.toNat .byte = true := (inRam_iff _ _).2 ⟨h1, by simp only [Width.bytes]; omega⟩
    have hv : (Memory.readBytes s.mem addr.toNat Width.byte.bytes).setWidth 8 = Cells.read s.mem addr.toNat := by
      simp only [Width.bytes, Memory.readBytes]; simp
    unfold dmaToDisk
    rw [busLoad_ram _ _ _ hr]
    simp only
    rw [hv]
    obtain ⟨img', he, hl, hk, hj⟩ := ih (i + 1) (addr + 1) (s.setBacking i (Cells.read s.mem addr.toNat))
      (img.set i (Cells.read s.mem addr.toNat)) (by unfold State.setBacking; rw [hi]; rfl) (by omega) (by omega)
      (by rw [List.length_set]; omega)
    refine ⟨img', he.trans rfl, by rw [hl, List.length_set], ?_, ?_⟩
    · intro k hk'
      cases k with
      | zero =>
        rw [Nat.add_zero, hj i (by omega)]
        simp [List.getD_eq_getElem?_getD, show i < img.length by omega]
      | succ k =>
        have := hk k (by omega)
        rw [ha] at this
        rw [show i + (k + 1) = i + 1 + k by omega, show addr.toNat + (k + 1) = addr.toNat + 1 + k by omega]
        exact this
    · intro j hj'
      rw [hj j (by omega)]
      simp [List.getD_eq_getElem?_getD, show ¬ i = j by omega]

/-- A transfer whose range is RAM copies every byte of the list. -/
theorem dmaToRam_ram (bs : List Byte) (addr : Word) (s : State) (h1 : 0x80000000 ≤ addr.toNat)
    (h2 : addr.toNat + bs.length ≤ 0x80800000) :
    dmaToRam bs addr s = dmaDone { s with mem := Memory.load s.mem addr.toNat bs } := by
  induction bs generalizing addr s with
  | nil => rfl
  | cons b bs ih =>
    have hl : (b :: bs).length = bs.length + 1 := rfl
    rw [hl] at h2
    have ha : (addr + 1).toNat = addr.toNat + 1 := toNat_add_one (by omega)
    have hr : inRam addr.toNat .byte = true := (inRam_iff _ _).2 ⟨h1, by simp only [Width.bytes]; omega⟩
    unfold dmaToRam
    rw [busStore_ram _ _ _ _ hr]
    simp only
    rw [ih _ _ (by omega) (by omega), ha]
    simp only [Width.bytes, Memory.writeBytes, Memory.load]
    rw [show (BitVec.setWidth 64 b).setWidth 8 = b by simp]

/-- The bytes a load of a list puts in memory. -/
theorem Memory.read_load (bs : List Byte) (m : Memory) (a c : Nat) :
    Cells.read (Memory.load m a bs) c = if a ≤ c ∧ c < a + bs.length then bs.getD (c - a) 0 else Cells.read m c := by
  induction bs generalizing m a with
  | nil => simp [Memory.load, show ¬ (a ≤ c ∧ c < a) by omega]
  | cons b bs ih =>
    unfold Memory.load
    rw [ih, Cells.read_write]
    have hl : (b :: bs).length = bs.length + 1 := rfl
    rw [hl]
    by_cases h : c = a
    · subst h
      rw [if_neg (by omega), if_pos rfl, if_pos (by omega), Nat.sub_self]; rfl
    · by_cases h2 : a + 1 ≤ c ∧ c < a + 1 + bs.length
      · rw [if_pos h2, if_pos (by omega), show c - a = (c - (a + 1)) + 1 by omega]; rfl
      · rw [if_neg h2, if_neg h, if_neg (by omega)]

/-! ## The poll -/

theorem timerCompare_rest (s : State) : timerCompare s = { s with csrs := (timerCompare s).csrs } := by
  unfold timerCompare; split <;> rfl

theorem deviceQuery_rest (s : State) :
    deviceQuery s = { s with
      csrs := (deviceQuery s).csrs, mem := (deviceQuery s).mem, clint := (deviceQuery s).clint,
      plic := (deviceQuery s).plic, uart := (deviceQuery s).uart, kbdQueue := (deviceQuery s).kbdQueue,
      disk := (deviceQuery s).disk, diskBacking := (deviceQuery s).diskBacking, uartOut := (deviceQuery s).uartOut,
      status := (deviceQuery s).status } := by
  have h := dma_rest s
  unfold deviceQuery
  split
  · rfl
  · split
    · simp only
      split
      · generalize dma s = t at *; rw [h]; rfl
      · generalize dma s = t at *; rw [h]
    · rfl

/-- Delivery is nothing, or a trap entry after one mip bit was cleared. -/
theorem deliver_cases (s : State) :
    (pickInterrupt (s.csr csrMie &&& s.csr csrMip) = none ∧ deliver s = s) ∨
    ∃ i, pickInterrupt (s.csr csrMie &&& s.csr csrMip) = some i ∧
      deliver s = takeTrap (.interrupt i) (interruptEpc s) (s.setCsr csrMip (setBit (s.csr csrMip) i.code false)) := by
  unfold deliver
  split
  · exact .inl ⟨‹_›, rfl⟩
  · exact .inr ⟨_, ‹_›, rfl⟩

@[simp] theorem deliver_cfg (s : State) : (deliver s).cfg = s.cfg := by
  obtain ⟨_, h⟩ | ⟨_, _, h⟩ := deliver_cases s <;> rw [h]; simp
@[simp] theorem deliver_regs (s : State) : (deliver s).regs = s.regs := by
  obtain ⟨_, h⟩ | ⟨_, _, h⟩ := deliver_cases s <;> rw [h]; simp
@[simp] theorem deliver_pagingOn (s : State) : (deliver s).pagingOn = s.pagingOn := by
  obtain ⟨_, h⟩ | ⟨_, _, h⟩ := deliver_cases s <;> rw [h]; simp
@[simp] theorem deliver_ptRoot (s : State) : (deliver s).ptRoot = s.ptRoot := by
  obtain ⟨_, h⟩ | ⟨_, _, h⟩ := deliver_cases s <;> rw [h]; simp
@[simp] theorem deliver_mem (s : State) : (deliver s).mem = s.mem := by
  obtain ⟨_, h⟩ | ⟨_, _, h⟩ := deliver_cases s <;> rw [h]; simp
@[simp] theorem deliver_clint (s : State) : (deliver s).clint = s.clint := by
  obtain ⟨_, h⟩ | ⟨_, _, h⟩ := deliver_cases s <;> rw [h]; simp
@[simp] theorem deliver_plic (s : State) : (deliver s).plic = s.plic := by
  obtain ⟨_, h⟩ | ⟨_, _, h⟩ := deliver_cases s <;> rw [h]; simp
@[simp] theorem deliver_uart (s : State) : (deliver s).uart = s.uart := by
  obtain ⟨_, h⟩ | ⟨_, _, h⟩ := deliver_cases s <;> rw [h]; simp
@[simp] theorem deliver_disk (s : State) : (deliver s).disk = s.disk := by
  obtain ⟨_, h⟩ | ⟨_, _, h⟩ := deliver_cases s <;> rw [h]; simp
@[simp] theorem deliver_diskBacking (s : State) : (deliver s).diskBacking = s.diskBacking := by
  obtain ⟨_, h⟩ | ⟨_, _, h⟩ := deliver_cases s <;> rw [h]; simp
@[simp] theorem deliver_kbdQueue (s : State) : (deliver s).kbdQueue = s.kbdQueue := by
  obtain ⟨_, h⟩ | ⟨_, _, h⟩ := deliver_cases s <;> rw [h]; simp
@[simp] theorem deliver_uartOut (s : State) : (deliver s).uartOut = s.uartOut := by
  obtain ⟨_, h⟩ | ⟨_, _, h⟩ := deliver_cases s <;> rw [h]; simp
@[simp] theorem deliver_status (s : State) : (deliver s).status = s.status := by
  obtain ⟨_, h⟩ | ⟨_, _, h⟩ := deliver_cases s <;> rw [h]; simp
@[simp] theorem deliver_hostSchedule (s : State) : (deliver s).hostSchedule = s.hostSchedule := by
  obtain ⟨_, h⟩ | ⟨_, _, h⟩ := deliver_cases s <;> rw [h]; simp
@[simp] theorem poll_cfg (s : State) : (poll s).cfg = s.cfg := by
  have h1 := congrArg State.cfg (timerCompare_rest s)
  have h2 := congrArg State.cfg (deviceQuery_rest (timerCompare s))
  unfold poll
  simp only
  split
  · exact h1
  · unfold pollEnabled
    simp only
    split
    · rw [deliver_cfg, h2]; exact h1
    · rw [h2]; exact h1
@[simp] theorem poll_regs (s : State) : (poll s).regs = s.regs := by
  have h1 := congrArg State.regs (timerCompare_rest s)
  have h2 := congrArg State.regs (deviceQuery_rest (timerCompare s))
  unfold poll
  simp only
  split
  · exact h1
  · unfold pollEnabled
    simp only
    split
    · rw [deliver_regs, h2]; exact h1
    · rw [h2]; exact h1
@[simp] theorem poll_pagingOn (s : State) : (poll s).pagingOn = s.pagingOn := by
  have h1 := congrArg State.pagingOn (timerCompare_rest s)
  have h2 := congrArg State.pagingOn (deviceQuery_rest (timerCompare s))
  unfold poll
  simp only
  split
  · exact h1
  · unfold pollEnabled
    simp only
    split
    · rw [deliver_pagingOn, h2]; exact h1
    · rw [h2]; exact h1
@[simp] theorem poll_ptRoot (s : State) : (poll s).ptRoot = s.ptRoot := by
  have h1 := congrArg State.ptRoot (timerCompare_rest s)
  have h2 := congrArg State.ptRoot (deviceQuery_rest (timerCompare s))
  unfold poll
  simp only
  split
  · exact h1
  · unfold pollEnabled
    simp only
    split
    · rw [deliver_ptRoot, h2]; exact h1
    · rw [h2]; exact h1
@[simp] theorem poll_hostSchedule (s : State) : (poll s).hostSchedule = s.hostSchedule := by
  have h1 := congrArg State.hostSchedule (timerCompare_rest s)
  have h2 := congrArg State.hostSchedule (deviceQuery_rest (timerCompare s))
  unfold poll
  simp only
  split
  · exact h1
  · unfold pollEnabled
    simp only
    split
    · rw [deliver_hostSchedule, h2]; exact h1
    · rw [h2]; exact h1

/-- The end of a step is the poll between its two points, or nothing. -/
theorem endOfStep_cases (s : State) :
    (s.status = .running ∧ endOfStep s = letHostIn (poll (letHostIn s))) ∨ (s.status ≠ .running ∧ endOfStep s = s) := by
  unfold endOfStep
  split
  · exact .inl ⟨‹_›, rfl⟩
  · exact .inr ⟨‹_›, rfl⟩

end Sys2Proof.Machine
end

