-- ==== Sys2Proof/Laws/Shapes.lean ====
section
/-! SUPPORT. From an instruction's meaning as a shared operation to the shape its claim has: a register written, a load, a store, an AMO. -/

namespace Sys2Proof.Machine

/-- Writing a register is what a claim about a destination register says (R41, R43). -/
theorem writesReg_setReg (s : State) (rd : Reg) (v : Word) : WritesReg rd v s (s.setReg rd v) := by
  refine ⟨?_, fun q => ?_⟩
  · unfold State.setReg; split <;> rfl
  · rw [reg_setReg]
    by_cases hq : q = 0
    · subst hq; by_cases hr : rd = 0
      · simp [hr]
      · simp [Ne.symm hr]
    · by_cases hr : q = rd
      · subst hr; simp [hq]
      · simp [hq, hr]

theorem computes_of {i : Instr} {rd : Reg} {v : Word} {s : State} (h : exec i s = .next (s.setReg rd v)) :
    Computes i rd v s := ⟨_, h, writesReg_setReg _ _ _⟩

theorem loadsAs_of {i : Instr} {w : Width} {ext ext' : Word → Word} {rd rs1 : Reg} {imm : BitVec 12} {s : State}
    (h : exec i s = .next (loadTo w ext' rd rs1 imm s)) (he : ∀ v, ext' v = ext v) :
    LoadsAs i w ext rd rs1 imm s := by
  obtain ⟨e, ht, hl⟩ | ⟨pa, ht, hb, hl⟩ | ⟨pa, v, t, ht, hb, hl⟩ := loadTo_cases w ext' rd rs1 imm s <;> rw [hl] at h
  · have ht2 : translate (s.reg rs1 + imm.signExtend 64) .load s = .error e := ht
    refine ⟨fun _ _ _ h1 => ?_, fun _ h1 => ?_, fun e' h1 => ?_⟩ <;> rw [ht2] at h1 <;> cases h1; exact ⟨translate_error ht2, h⟩
  · have ht2 : translate (s.reg rs1 + imm.signExtend 64) .load s = .ok pa := ht
    refine ⟨fun _ _ _ h1 h2 => ?_, fun _ h1 h2 => h, fun e' h1 => ?_⟩ <;> rw [ht2] at h1 <;> cases h1; rw [hb] at h2; cases h2
  · have ht2 : translate (s.reg rs1 + imm.signExtend 64) .load s = .ok pa := ht
    refine ⟨fun _ _ _ h1 h2 => ?_, fun _ h1 h2 => ?_, fun e' h1 => ?_⟩ <;> rw [ht2] at h1 <;> cases h1
    · rw [hb] at h2; cases h2; refine ⟨_, h, ?_⟩; rw [he]; exact writesReg_setReg _ _ _
    · rw [hb] at h2; cases h2

theorem storesAs_of {i : Instr} {w : Width} {rs1 rs2 : Reg} {imm : BitVec 12} {s : State}
    (h : exec i s = .next (storeFrom w rs1 rs2 imm s)) : StoresAs i w rs1 rs2 imm s := by
  obtain ⟨e, ht, hl⟩ | ⟨pa, ht, hb, hl⟩ | ⟨pa, t, ht, hb, hl⟩ := storeFrom_cases w rs1 rs2 imm s <;> rw [hl] at h
  · refine ⟨fun _ h1 => ?_, fun _ _ h1 => ?_, fun _ h1 => ?_, fun e' h1 => ?_⟩ <;> rw [ht] at h1 <;> cases h1; exact ⟨translate_error ht, h⟩
  · refine ⟨fun _ h1 h2 => ?_, fun _ _ h1 h2 => ?_, fun _ h1 h2 => h, fun e' h1 => ?_⟩ <;> rw [ht] at h1 <;> cases h1
    · rw [busStore_ram _ _ _ _ h2] at hb; cases hb
    · rw [hb] at h2; cases h2
  · refine ⟨fun _ h1 h2 => ?_, fun _ _ h1 h2 => ?_, fun _ h1 h2 => ?_, fun e' h1 => ?_⟩ <;> rw [ht] at h1 <;> cases h1
    · rw [busStore_ram _ _ _ _ h2] at hb
      obtain rfl := Option.some.inj hb
      refine ⟨_, h, rfl, ?_, ?_⟩
      · intro k hk
        show Cells.read (Memory.writeBytes _ _ _ _) _ = _
        rw [Memory.read_writeBytes_inside _ _ _ _ _ hk]
        apply BitVec.eq_of_toNat_eq
        simp [Nat.shiftRight_eq_div_pow, Nat.pow_mul]
      · intro a ha; exact Memory.read_writeBytes_outside _ _ _ _ _ ha
    · rw [hb] at h2; cases h2; exact h
    · rw [hb] at h2; cases h2

theorem amoAs_of {i : Instr} {w : Width} {new new' ret ret' : Word → Word} {rd rs1 : Reg} {s : State}
    (h : exec i s = .next (amo w new' ret' rd rs1 s)) (hn : ∀ v, new' v = new v) (hr : ∀ v, ret' v = ret v) :
    AmoAs i w new ret rd rs1 s := by
  obtain rfl : new' = new := funext hn
  obtain rfl : ret' = ret := funext hr
  obtain ⟨ha, hl⟩ | ⟨ha, ⟨e, ht, hl⟩ | ⟨pa, ht, hb, hl⟩ | ⟨pa, a, t, u, ht, hb, hs, hl⟩⟩ := amo_cases w new' ret' rd rs1 s <;> rw [hl] at h
  · exact ⟨fun _ => h, fun h0 => absurd h0 ha⟩
  · refine ⟨fun h0 => absurd ha h0, fun _ => ⟨fun _ _ _ h1 => ?_, fun _ h1 => ?_, fun _ h1 => ?_⟩⟩ <;> rw [ht] at h1 <;> cases h1; exact ⟨translate_error ht, h⟩
  · refine ⟨fun h0 => absurd ha h0, fun _ => ⟨fun _ _ _ h1 h2 => ?_, fun _ h1 _ => h, fun _ h1 => ?_⟩⟩ <;> rw [ht] at h1 <;> cases h1; rw [hb] at h2; cases h2
  · refine ⟨fun h0 => absurd ha h0, fun _ => ⟨fun _ _ _ h1 h2 => ?_, fun _ h1 h2 => ?_, fun _ h1 => ?_⟩⟩ <;> rw [ht] at h1 <;> cases h1
    · rw [hb] at h2; cases h2; exact ⟨_, _, hs, h, writesReg_setReg _ _ _⟩
    · rw [hb] at h2; cases h2

end Sys2Proof.Machine
end

