-- ==== Sys2Proof/Laws/Exec.lean ====
section
/-! SUPPORT. Everything an instruction can do to the state, said once: `exec_does` names the few forms a next state has, and claims about all
instructions go by cases on them. -/

namespace Sys2Proof.Machine

/-- The exceptions an instruction's own execution can raise. -/
def raisable : List Exception :=
  [.breakpoint, .loadAddressMisaligned, .loadAccessFault, .storeAmoAccessFault, .envCallFromUMode, .envCallFromSMode,
    .envCallFromMMode, .loadPageFault, .storeAmoPageFault]

/-- The next states instruction `i` can give from `s`. -/
inductive Does (i : Instr) (s : State) : State → Prop where
  /-- A value to rd. -/
  | writes (rd : Reg) (v : Word) : destReg i = some rd → csrOperand i = none → Does i s (s.setReg rd v)
  /-- A value to rd and a jump. -/
  | jumps (rd : Reg) (v p : Word) : destReg i = some rd → csrOperand i = none → Does i s ((s.setReg rd v).setPc p)
  /-- Only the pc, or nothing. -/
  | goes (p : Word) : destReg i = none → csrOperand i = none → Does i s (s.setPc p)
  /-- A load's bus access, then a value to rd. -/
  | loads (rd : Reg) (v : Word) (pa : Word) (w : Width) (a : Word) (t : State) : destReg i = some rd →
      csrOperand i = none → busLoad pa w s = some (a, t) → Does i s (t.setReg rd v)
  /-- A store at the instruction's target. -/
  | stores (va : Word) (w : Width) (pa v : Word) (t : State) : storeTarget s i = some (va, w) → csrOperand i = none →
      translate va .store s = .ok pa → busStore pa w v s = some t → Does i s t
  /-- A load and a store at the instruction's target, then a value to rd. -/
  | amos (rd : Reg) (v : Word) (va : Word) (w : Width) (pa a b : Word) (t u : State) : destReg i = some rd →
      storeTarget s i = some (va, w) → csrOperand i = none → translate va .store s = .ok pa →
      busLoad pa w s = some (a, t) → busStore pa w b t = some u → Does i s (u.setReg rd v)
  /-- An exception, nothing else done. -/
  | raises (e : Exception) : e ∈ raisable → csrOperand i = none → Does i s (raise e s)
  /-- A CSR write, then the old value to rd. -/
  | csrs (rd : Reg) (a : CsrNum) (v : Word) : destReg i = some rd → csrOperand i = some a →
      Does i s ((csrWrite s a v).setReg rd (csrRead s a))
  /-- The return of SRET. -/
  | sret : i = .sret → Does i s (returnS s)
  /-- The return of MRET. -/
  | mret : i = .mret → Does i s (returnM s)

theorem translate_load_raisable {s : State} {va : Word} {e : Exception} (h : translate va .load s = .error e) :
    e ∈ raisable := by
  obtain rfl | rfl := translate_error h <;> decide

theorem translate_store_raisable {s : State} {va : Word} {e : Exception} (h : translate va .store s = .error e) :
    e ∈ raisable := by
  obtain rfl | rfl := translate_error h <;> decide

theorem does_load {i : Instr} {s : State} {w : Width} {ext : Word → Word} {rd rs1 : Reg} {imm : BitVec 12}
    (hd : destReg i = some rd) (hc : csrOperand i = none) : Does i s (loadTo w ext rd rs1 imm s) := by
  obtain ⟨e, h, hl⟩ | ⟨pa, _, _, hl⟩ | ⟨pa, v, t, _, hb, hl⟩ := loadTo_cases w ext rd rs1 imm s <;> rw [hl]
  · exact .raises e (translate_load_raisable h) hc
  · exact .raises _ (by decide) hc
  · exact .loads rd _ pa w v t hd hc hb

theorem does_store {i : Instr} {s : State} {w : Width} {rs1 rs2 : Reg} {imm : BitVec 12}
    (ht : storeTarget s i = some (effectiveAddress s rs1 imm, w)) (hc : csrOperand i = none) :
    Does i s (storeFrom w rs1 rs2 imm s) := by
  obtain ⟨e, h, hl⟩ | ⟨pa, _, _, hl⟩ | ⟨pa, t, h, hb, hl⟩ := storeFrom_cases w rs1 rs2 imm s <;> rw [hl]
  · exact .raises e (translate_store_raisable h) hc
  · exact .raises _ (by decide) hc
  · exact .stores _ w pa _ t ht hc h hb

theorem does_amo {i : Instr} {s : State} {w : Width} {new ret : Word → Word} {rd rs1 : Reg}
    (hd : destReg i = some rd) (ht : storeTarget s i = some (s.reg rs1, w)) (hc : csrOperand i = none) :
    Does i s (amo w new ret rd rs1 s) := by
  obtain ⟨_, hl⟩ | ⟨_, ⟨e, h, hl⟩ | ⟨pa, _, _, hl⟩ | ⟨pa, a, t, u, h, hb, hs, hl⟩⟩ := amo_cases w new ret rd rs1 s <;> rw [hl]
  · exact .raises _ (by decide) hc
  · exact .raises e (translate_load_raisable h) hc
  · exact .raises _ (by decide) hc
  · exact .amos rd _ _ w pa a _ t u hd ht hc (translate_ok_kind .store h) hb hs

theorem does_branch {i : Instr} {s : State} {c : Word → Word → Bool} {rs1 rs2 : Reg} {imm : BitVec 13}
    (hd : destReg i = none) (hc : csrOperand i = none) : Does i s (branch c rs1 rs2 imm s) := by
  unfold branch
  split
  · exact .goes _ hd hc
  · exact .goes s.pc hd hc

/-- Every instruction answers a next state, of one of the forms of `Does`. -/
theorem exec_does (i : Instr) (s : State) : ∃ t, exec i s = .next t ∧ Does i s t := by
  cases i with
  | lui => exact ⟨_, rfl, .writes _ _ rfl rfl⟩
  | auipc => exact ⟨_, rfl, .writes _ _ rfl rfl⟩
  | jal => exact ⟨_, rfl, .jumps _ _ _ rfl rfl⟩
  | jalr => exact ⟨_, rfl, .jumps _ _ _ rfl rfl⟩
  | beq => exact ⟨_, rfl, does_branch rfl rfl⟩
  | bne => exact ⟨_, rfl, does_branch rfl rfl⟩
  | blt => exact ⟨_, rfl, does_branch rfl rfl⟩
  | bge => exact ⟨_, rfl, does_branch rfl rfl⟩
  | bltu => exact ⟨_, rfl, does_branch rfl rfl⟩
  | bgeu => exact ⟨_, rfl, does_branch rfl rfl⟩
  | lb => exact ⟨_, rfl, does_load rfl rfl⟩
  | lh => exact ⟨_, rfl, does_load rfl rfl⟩
  | lw => exact ⟨_, rfl, does_load rfl rfl⟩
  | ld => exact ⟨_, rfl, does_load rfl rfl⟩
  | lbu => exact ⟨_, rfl, does_load rfl rfl⟩
  | lhu => exact ⟨_, rfl, does_load rfl rfl⟩
  | lwu => exact ⟨_, rfl, does_load rfl rfl⟩
  | sb => exact ⟨_, rfl, does_store rfl rfl⟩
  | sh => exact ⟨_, rfl, does_store rfl rfl⟩
  | sw => exact ⟨_, rfl, does_store rfl rfl⟩
  | sd => exact ⟨_, rfl, does_store rfl rfl⟩
  | addi => exact ⟨_, rfl, .writes _ _ rfl rfl⟩
  | slti => exact ⟨_, rfl, .writes _ _ rfl rfl⟩
  | sltiu => exact ⟨_, rfl, .writes _ _ rfl rfl⟩
  | xori => exact ⟨_, rfl, .writes _ _ rfl rfl⟩
  | ori => exact ⟨_, rfl, .writes _ _ rfl rfl⟩
  | andi => exact ⟨_, rfl, .writes _ _ rfl rfl⟩
  | slli => exact ⟨_, rfl, .writes _ _ rfl rfl⟩
  | srli => exact ⟨_, rfl, .writes _ _ rfl rfl⟩
  | srai => exact ⟨_, rfl, .writes _ _ rfl rfl⟩
  | add => exact ⟨_, rfl, .writes _ _ rfl rfl⟩
  | sub => exact ⟨_, rfl, .writes _ _ rfl rfl⟩
  | sll => exact ⟨_, rfl, .writes _ _ rfl rfl⟩
  | slt => exact ⟨_, rfl, .writes _ _ rfl rfl⟩
  | sltu => exact ⟨_, rfl, .writes _ _ rfl rfl⟩
  | xor => exact ⟨_, rfl, .writes _ _ rfl rfl⟩
  | srl => exact ⟨_, rfl, .writes _ _ rfl rfl⟩
  | sra => exact ⟨_, rfl, .writes _ _ rfl rfl⟩
  | or => exact ⟨_, rfl, .writes _ _ rfl rfl⟩
  | and => exact ⟨_, rfl, .writes _ _ rfl rfl⟩
  | addiw => exact ⟨_, rfl, .writes _ _ rfl rfl⟩
  | slliw => exact ⟨_, rfl, .writes _ _ rfl rfl⟩
  | srliw => exact ⟨_, rfl, .writes _ _ rfl rfl⟩
  | sraiw => exact ⟨_, rfl, .writes _ _ rfl rfl⟩
  | addw => exact ⟨_, rfl, .writes _ _ rfl rfl⟩
  | subw => exact ⟨_, rfl, .writes _ _ rfl rfl⟩
  | sllw => exact ⟨_, rfl, .writes _ _ rfl rfl⟩
  | srlw => exact ⟨_, rfl, .writes _ _ rfl rfl⟩
  | sraw => exact ⟨_, rfl, .writes _ _ rfl rfl⟩
  | mul => exact ⟨_, rfl, .writes _ _ rfl rfl⟩
  | mulh => exact ⟨_, rfl, .writes _ _ rfl rfl⟩
  | mulhsu => exact ⟨_, rfl, .writes _ _ rfl rfl⟩
  | mulhu => exact ⟨_, rfl, .writes _ _ rfl rfl⟩
  | div => exact ⟨_, rfl, .writes _ _ rfl rfl⟩
  | divu => exact ⟨_, rfl, .writes _ _ rfl rfl⟩
  | rem => exact ⟨_, rfl, .writes _ _ rfl rfl⟩
  | remu => exact ⟨_, rfl, .writes _ _ rfl rfl⟩
  | mulw => exact ⟨_, rfl, .writes _ _ rfl rfl⟩
  | divw => exact ⟨_, rfl, .writes _ _ rfl rfl⟩
  | divuw => exact ⟨_, rfl, .writes _ _ rfl rfl⟩
  | remw => exact ⟨_, rfl, .writes _ _ rfl rfl⟩
  | remuw => exact ⟨_, rfl, .writes _ _ rfl rfl⟩
  | amoswapW => exact ⟨_, rfl, does_amo rfl rfl rfl⟩
  | amoaddW => exact ⟨_, rfl, does_amo rfl rfl rfl⟩
  | amoxorW => exact ⟨_, rfl, does_amo rfl rfl rfl⟩
  | amoandW => exact ⟨_, rfl, does_amo rfl rfl rfl⟩
  | amoorW => exact ⟨_, rfl, does_amo rfl rfl rfl⟩
  | amominW => exact ⟨_, rfl, does_amo rfl rfl rfl⟩
  | amomaxW => exact ⟨_, rfl, does_amo rfl rfl rfl⟩
  | amominuW => exact ⟨_, rfl, does_amo rfl rfl rfl⟩
  | amomaxuW => exact ⟨_, rfl, does_amo rfl rfl rfl⟩
  | amoswapD => exact ⟨_, rfl, does_amo rfl rfl rfl⟩
  | amoaddD => exact ⟨_, rfl, does_amo rfl rfl rfl⟩
  | amoxorD => exact ⟨_, rfl, does_amo rfl rfl rfl⟩
  | amoandD => exact ⟨_, rfl, does_amo rfl rfl rfl⟩
  | amoorD => exact ⟨_, rfl, does_amo rfl rfl rfl⟩
  | amominD => exact ⟨_, rfl, does_amo rfl rfl rfl⟩
  | amomaxD => exact ⟨_, rfl, does_amo rfl rfl rfl⟩
  | amominuD => exact ⟨_, rfl, does_amo rfl rfl rfl⟩
  | amomaxuD => exact ⟨_, rfl, does_amo rfl rfl rfl⟩
  | fence => exact ⟨_, rfl, .goes s.pc rfl rfl⟩
  | ecall => exact ⟨_, rfl, .raises _ (by cases s.mode <;> decide) rfl⟩
  | ebreak => exact ⟨_, rfl, .raises _ (by decide) rfl⟩
  | sret => exact ⟨_, rfl, .sret rfl⟩
  | mret => exact ⟨_, rfl, .mret rfl⟩
  | sfenceVma => exact ⟨_, rfl, .goes s.pc rfl rfl⟩
  | csrrw => exact ⟨_, rfl, .csrs _ _ _ rfl rfl⟩
  | csrrs => exact ⟨_, rfl, .csrs _ _ _ rfl rfl⟩
  | csrrc => exact ⟨_, rfl, .csrs _ _ _ rfl rfl⟩
  | csrrwi => exact ⟨_, rfl, .csrs _ _ _ rfl rfl⟩
  | csrrsi => exact ⟨_, rfl, .csrs _ _ _ rfl rfl⟩
  | csrrci => exact ⟨_, rfl, .csrs _ _ _ rfl rfl⟩

/-- What `exec` answers is one of the forms. -/
theorem does_of_exec {i : Instr} {s t : State} (h : exec i s = .next t) : Does i s t := by
  obtain ⟨u, hu, hd⟩ := exec_does i s
  rw [h] at hu
  cases hu
  exact hd

end Sys2Proof.Machine
end

