-- ==== Sys2Proof/Laws/Invariant.lean ====
section
/-! SUPPORT. Every operation keeps the invariant of Safety.lean. -/

namespace Sys2Proof.Machine

/-- The invariant looks at the registers, RAM, the CSR file, the UART window and the paging cache only. -/
theorem State.Inv.congr {s t : State} (h : s.Inv) (hr : t.regs = s.regs) (hm : t.mem = s.mem) (hc : t.csrs = s.csrs)
    (hu : t.uart.bytes = s.uart.bytes) (hg : t.pagingOn = s.pagingOn) (hp : t.ptRoot = s.ptRoot) : t.Inv where
  x0 := by rw [hr]; exact h.x0
  memWf := by rw [hm]; exact h.memWf
  memInRam := by rw [hm]; exact h.memInRam
  csrsWf := by rw [hc]; exact h.csrsWf
  csrsIn := by rw [hc]; exact h.csrsIn
  views := by simp only [csr_congr hc]; exact h.views
  uartWf := by rw [hu]; exact h.uartWf
  uartIn := by rw [hu]; exact h.uartIn
  paging := by rw [hg, hp, csr_congr hc]; exact h.paging

theorem inv_setPc {s : State} (h : s.Inv) (v : Word) : (s.setPc v).Inv := h.congr rfl rfl rfl rfl rfl rfl

theorem inv_setStatus {s : State} (h : s.Inv) (st : Status) : (s.setStatus st).Inv := h.congr rfl rfl rfl rfl rfl rfl

theorem inv_setReg {s : State} (h : s.Inv) (r : Reg) (v : Word) : (s.setReg r v).Inv := by
  unfold State.setReg
  split
  · exact h
  · rename_i hr
    refine ⟨?_, h.memWf, h.memInRam, h.csrsWf, h.csrsIn, h.views, h.uartWf, h.uartIn, h.paging⟩
    have hx := h.x0
    have hv : r.val ≠ 0 := fun e => hr (Fin.ext e)
    have hz : ((0 : Fin 32) : Nat) = 0 := rfl
    rw [Vector.get_eq_getElem] at hx ⊢
    rw [Vector.getElem_set_ne _ _ (by omega)]
    exact hx

/-- A CSR slot other than the views' raw slots and satp may take any value. -/
theorem inv_setCsr {s : State} (h : s.Inv) (a : CsrNum) (v : Word)
    (ha : a ∉ [csrSstatus, csrSie, csrSip, csrSatp]) : (s.setCsr a v).Inv := by
  simp only [List.mem_cons, List.not_mem_nil, or_false, not_or] at ha
  refine ⟨h.x0, h.memWf, h.memInRam, Cells.wf_write _ _ h.csrsWf, ?_, ?_, h.uartWf, h.uartIn, ?_⟩
  · intro c hc
    obtain rfl | hc := Cells.mem_write hc
    · exact a.isLt
    · exact h.csrsIn c hc
  · rw [csr_setCsr_ne _ _ (Ne.symm ha.1), csr_setCsr_ne _ _ (Ne.symm ha.2.1), csr_setCsr_ne _ _ (Ne.symm ha.2.2.1)]
    exact h.views
  · rw [csr_setCsr_ne _ _ (Ne.symm ha.2.2.2)]
    exact h.paging

theorem inv_csrWrite {s : State} (h : s.Inv) (a : CsrNum) (v : Word) : (csrWrite s a v).Inv := by
  unfold csrWrite
  split
  · exact inv_setCsr h _ _ (by decide)
  · split
    · exact inv_setCsr h _ _ (by decide)
    · split
      · exact inv_setCsr h _ _ (by decide)
      · split
        · refine ⟨h.x0, h.memWf, h.memInRam, Cells.wf_write _ _ h.csrsWf, ?_, ?_, h.uartWf, h.uartIn, ?_⟩
          · intro c hc
            obtain rfl | hc := Cells.mem_write hc
            · exact BitVec.isLt _
            · exact h.csrsIn c hc
          · rw [csr_refreshPaging, csr_refreshPaging, csr_refreshPaging, csr_setCsr_ne _ _ (by decide),
              csr_setCsr_ne _ _ (by decide), csr_setCsr_ne _ _ (by decide)]
            exact h.views
          · rw [csr_refreshPaging, csr_setCsr_self]
            exact ⟨rfl, rfl⟩
        · exact inv_setCsr h _ _ (by simp_all)

theorem inv_takeTrap {s : State} (h : s.Inv) (t : Trap) (epc : Word) : (takeTrap t epc s).Inv := by
  have base : ∀ (md : Mode) (p : Word), ((s.setMode md).setPc p).Inv := fun _ _ => h.congr rfl rfl rfl rfl rfl rfl
  obtain ⟨_, e⟩ | ⟨_, e⟩ := takeTrap_cases t epc s <;> rw [e]
  · unfold enterS
    exact inv_setCsr (inv_setCsr (inv_setCsr (inv_setCsr (base _ _) _ _ (by decide)) _ _ (by decide)) _ _
      (by decide)) _ _ (by decide)
  · unfold enterM
    exact inv_setCsr (inv_setCsr (inv_setCsr (inv_setCsr (base _ _) _ _ (by decide)) _ _ (by decide)) _ _
      (by decide)) _ _ (by decide)

theorem inv_raiseAt {s : State} (h : s.Inv) (e : Exception) (epc : Word) : (raiseAt e epc s).Inv := by
  unfold raiseAt
  split
  · exact inv_setStatus (inv_takeTrap h _ _) _
  · exact inv_takeTrap h _ _

theorem inv_returnS {s : State} (h : s.Inv) : (returnS s).Inv := by
  have hb : ((s.setPc (s.csr csrSepc)).setMode (if (s.csr csrMstatus).getLsbD bitSPP then .s else .u)).Inv :=
    h.congr rfl rfl rfl rfl rfl rfl
  exact inv_setCsr hb _ _ (by decide)

theorem inv_returnM {s : State} (h : s.Inv) : (returnM s).Inv := by
  obtain ⟨_, e⟩ | ⟨md, _, _, e⟩ := returnM_cases s <;> rw [e]
  · exact inv_setStatus h _
  · have hb : ((s.setPc (s.csr csrMepc)).setMode md).Inv := h.congr rfl rfl rfl rfl rfl rfl
    exact inv_setCsr hb _ _ (by decide)

/-! ## The bus -/

theorem inv_setUartByte {s : State} (h : s.Inv) (off : Nat) (b : Byte) (ho : off < 256) : (s.setUartByte off b).Inv := by
  refine ⟨h.x0, h.memWf, h.memInRam, h.csrsWf, h.csrsIn, h.views, Cells.wf_write _ _ h.uartWf, ?_, h.paging⟩
  intro c hc
  obtain rfl | hc := Cells.mem_write hc
  · exact ho
  · exact h.uartIn c hc

theorem inv_busLoad {s t : State} {pa v : Word} {w : Width} (h : s.Inv) (hb : busLoad pa w s = some (v, t)) : t.Inv := by
  obtain ⟨_, _, rfl⟩ | ⟨d, _, _, hd⟩ := busLoad_cases hb
  · exact h
  · generalize pa.toNat - d.base s.cfg = off at hd
    cases d <;> simp only [deviceLoad, Prod.mk.injEq] at hd <;> obtain ⟨-, rfl⟩ := hd
    · exact h
    · exact h
    · unfold uartLoad
      split
      · exact inv_setUartByte h _ _ (by decide)
      · exact h
    · exact h
    · unfold kbdLoad
      split
      · split
        · exact h
        · exact h.congr rfl rfl rfl rfl rfl rfl
      · exact h

theorem inv_busStore {s t : State} {pa v : Word} {w : Width} (h : s.Inv) (hb : busStore pa w v s = some t) : t.Inv := by
  obtain ⟨hi, rfl⟩ | ⟨d, hr, _, hd⟩ := busStore_cases hb
  · refine ⟨h.x0, Memory.wf_writeBytes _ _ _ _ h.memWf, ?_, h.csrsWf, h.csrsIn, h.views, h.uartWf, h.uartIn, h.paging⟩
    intro c hc
    obtain ⟨h1, h2⟩ := (inRam_iff _ _).1 hi
    obtain hc | hc := Memory.mem_writeBytes _ _ _ _ _ hc
    · exact h.memInRam c hc
    · simp only [ramBase, ramSize]
      omega
  · have ho : d = .uart → pa.toNat - d.base s.cfg < 256 := by
      rintro rfl
      have := regionOf_inv hr
      simp only [Region.device.injEq, reduceCtorEq, false_and, false_or, or_false, true_and] at this
      simp only [Device.base, uartWindow]
      omega
    generalize pa.toNat - d.base s.cfg = off at hd ho
    subst hd
    cases d
    · simp only [deviceStore, clintStore]; (repeat' split) <;> exact h.congr rfl rfl rfl rfl rfl rfl
    · simp only [deviceStore, plicStore]; (repeat' split) <;> exact h.congr rfl rfl rfl rfl rfl rfl
    · simp only [deviceStore, uartStore]
      split
      · exact h.congr rfl rfl rfl rfl rfl rfl
      · exact inv_setUartByte h _ _ (ho rfl)
    · simp only [deviceStore, diskStore]; split <;> exact h.congr rfl rfl rfl rfl rfl rfl
    · exact h

/-! ## The end of a step -/

theorem inv_uartPushByte {s : State} (h : s.Inv) (b : Byte) : (uartPushByte b s).Inv :=
  (inv_setUartByte (inv_setUartByte h uartDataOffset b (by decide)) uartLsrOffset _ (by decide)).congr rfl rfl rfl rfl rfl
    rfl

theorem inv_hostMove {m : HostMove} {s t : State} (h : s.Inv) (hm : hostMove m s = some t) : t.Inv := by
  cases m with
  | uartByte b =>
    simp only [hostMove] at hm
    split at hm <;> cases hm
    exact inv_uartPushByte h b
  | scancode v => cases hm; exact h.congr rfl rfl rfl rfl rfl rfl
  | ramPointer => cases hm; exact h

theorem inv_letIn (ms : List HostMove) {s : State} (h : s.Inv) : (letIn ms s).1.Inv := by
  induction ms generalizing s with
  | nil => exact h
  | cons m ms ih =>
    unfold letIn
    split
    · exact ih (inv_hostMove h ‹_›)
    · exact ih h

theorem inv_letHostIn {s : State} (h : s.Inv) : (letHostIn s).Inv := by
  obtain e | ⟨ms, points, _, _, e⟩ := letHostIn_cases s <;> rw [e]
  · exact h
  · exact (inv_letIn ms h).congr rfl rfl rfl rfl rfl rfl

theorem inv_dmaToRam (bs : List Byte) (addr : Word) {s : State} (h : s.Inv) : (dmaToRam bs addr s).Inv := by
  induction bs generalizing addr s with
  | nil => exact h.congr rfl rfl rfl rfl rfl rfl
  | cons b bs ih =>
    unfold dmaToRam
    split
    · exact inv_setStatus h _
    · exact ih _ (inv_busStore h ‹_›)

theorem inv_dmaToDisk (n i : Nat) (addr : Word) {s : State} (h : s.Inv) : (dmaToDisk n i addr s).Inv := by
  induction n generalizing i addr s with
  | zero => exact h.congr rfl rfl rfl rfl rfl rfl
  | succ n ih =>
    unfold dmaToDisk
    split
    · exact inv_setStatus h _
    · rename_i v t ht
      have hb : (t.setBacking i (v.setWidth 8)).Inv := (inv_busLoad h ht).congr rfl rfl rfl rfl rfl rfl
      exact ih _ _ hb

theorem inv_dma {s : State} (h : s.Inv) : (dma s).Inv := by
  have h' : (State.Inv { s with disk := { s.disk with notify := notifyIdle } }) := h.congr rfl rfl rfl rfl rfl rfl
  unfold dma dmaCopy
  split
  · exact inv_setStatus h' _
  · split
    · exact inv_setStatus h' _
    · split
      · exact inv_dmaToDisk _ _ _ h'
      · exact inv_dmaToRam _ _ h'

theorem inv_fireIrq {s : State} (h : s.Inv) (irq : Word32) : (fireIrq irq s).Inv := by
  have hb : State.Inv { s with plic := { s.plic with sclaim := irq } } := h.congr rfl rfl rfl rfl rfl rfl
  exact inv_setCsr hb _ _ (by decide)

theorem inv_poll {s : State} (h : s.Inv) : (poll s).Inv := by
  have ht : (timerCompare s).Inv := by
    unfold timerCompare
    split
    · exact inv_setCsr h _ _ (by decide)
    · exact h
  have hq : ∀ {u : State}, u.Inv → (deviceQuery u).Inv := by
    intro u hu
    unfold deviceQuery
    split
    · have hb : State.Inv { u with uart := { u.uart with interrupting := false } } := hu.congr rfl rfl rfl rfl rfl rfl
      exact inv_fireIrq hb _
    · split
      · simp only
        split
        · exact inv_fireIrq (inv_dma hu) _
        · exact inv_dma hu
      · exact hu
  have hd : ∀ {u : State}, u.Inv → (deliver u).Inv := by
    intro u hu
    obtain ⟨_, e⟩ | ⟨i, _, e⟩ := deliver_cases u <;> rw [e]
    · exact hu
    · exact inv_takeTrap (inv_setCsr hu _ _ (by decide)) _ _
  unfold poll pollEnabled
  simp only
  split
  · exact ht
  · split
    · exact hd (hq ht)
    · exact hq ht

end Sys2Proof.Machine
end

