-- ==== Sys2Proof/Laws/Step.lean ====
section
/-! SUPPORT. What one step can do, said once: the fetch's outcomes, the step's, and the invariant and parameters over each part. -/

namespace Sys2Proof.Machine

/-- A fetch fails with an exception, or gives the word a bus load read. -/
theorem fetch_cases (s : State) :
    (∃ e, fetch s = .error e) ∨ ∃ w pa v t, fetch s = .ok (w, t) ∧ busLoad pa .word s = some (v, t) := by
  unfold fetch
  split
  · exact .inl ⟨_, rfl⟩
  · obtain ⟨e, _, hm⟩ | ⟨pa, _, _, hm⟩ | ⟨pa, v, u, _, hb, hm⟩ := memRead_cases s.pc .word .fetch s <;> rw [hm]
    · exact .inl ⟨_, rfl⟩
    · exact .inl ⟨_, rfl⟩
    · exact .inr ⟨_, pa, v, u, rfl, hb⟩

/-- Everything a step can do: nothing in a block that does not run; a fetch exception; an instruction; an illegal word. -/
theorem step_cases (s : State) :
    (s.status ≠ .running ∧ step s = .next s) ∨
    (s.status = .running ∧ ∃ e, fetch s = .error e ∧ step s = .next (endOfStep (raiseAt e s.pc s))) ∨
    (s.status = .running ∧ ∃ w pa v t, fetch s = .ok (w, t) ∧ busLoad pa .word s = some (v, t) ∧
      ((∃ i u, decodeWord w = .ok i ∧ Does i (t.setPc (t.pc + 4)) u ∧ step s = .next (endOfStep u)) ∨
        step s = .next (endOfStep (raise .illegalInstruction (t.setPc (t.pc + 4)))))) := by
  unfold step
  by_cases hs : s.status = .running
  · rw [if_pos hs]
    obtain ⟨e, he⟩ | ⟨w, pa, v, t, hf, hb⟩ := fetch_cases s
    · unfold execution
      rw [he]
      exact .inr (.inl ⟨hs, e, rfl, rfl⟩)
    · unfold execution
      rw [hf]
      refine .inr (.inr ⟨hs, w, pa, v, t, rfl, hb, ?_⟩)
      simp only [execWord]
      cases hd : decodeWord w with
      | ok i =>
        obtain ⟨u, hu, hdo⟩ := exec_does i (t.setPc (t.pc + 4))
        refine .inl ⟨i, u, rfl, hdo, ?_⟩
        simp only [hu, afterExec]
      | error e => exact .inr rfl
  · rw [if_neg hs]
    exact .inl ⟨hs, rfl⟩

/-- An instruction keeps the invariant. -/
theorem inv_does {i : Instr} {s t : State} (h : s.Inv) (hd : Does i s t) : t.Inv := by
  cases hd with
  | writes rd v _ _ => exact inv_setReg h _ _
  | jumps rd v p _ _ => exact inv_setPc (inv_setReg h _ _) _
  | goes p => exact inv_setPc h _
  | loads rd v pa w a t _ _ hb => exact inv_setReg (inv_busLoad h hb) _ _
  | stores va w pa v t _ _ _ hb => exact inv_busStore h hb
  | amos rd v va w pa a b t u _ _ _ _ hb hs => exact inv_setReg (inv_busStore (inv_busLoad h hb) hs) _ _
  | raises e _ _ => exact inv_raiseAt h _ _
  | csrs rd a v _ _ => exact inv_setReg (inv_csrWrite h _ _) _ _
  | sret _ => exact inv_returnS h
  | mret _ => exact inv_returnM h

/-- The end of a step keeps the invariant. -/
theorem inv_endOfStep {s : State} (h : s.Inv) : (endOfStep s).Inv := by
  obtain ⟨_, e⟩ | ⟨_, e⟩ := endOfStep_cases s <;> rw [e]
  · exact inv_letHostIn (inv_poll (inv_letHostIn h))
  · exact h

/-- An instruction keeps the parameters. -/
theorem does_cfg {i : Instr} {s t : State} (hd : Does i s t) : t.cfg = s.cfg := by
  cases hd with
  | writes rd v _ _ => simp
  | jumps rd v p _ _ => simp
  | goes p => simp
  | loads rd v pa w a t _ _ hb => rw [setReg_cfg, busLoad_rest hb]
  | stores va w pa v t _ _ _ hb => rw [busStore_rest hb]
  | amos rd v va w pa a b t u _ _ _ _ hb hs => rw [setReg_cfg, busStore_rest hs, busLoad_rest hb]
  | raises e _ _ => simp
  | csrs rd a v _ _ => rw [setReg_cfg, csrWrite_rest]
  | sret _ => rfl
  | mret _ => obtain ⟨_, e⟩ | ⟨_, _, _, e⟩ := returnM_cases s <;> rw [e] <;> rfl

/-- The end of a step keeps the parameters. -/
theorem endOfStep_cfg (s : State) : (endOfStep s).cfg = s.cfg := by
  obtain ⟨_, e⟩ | ⟨_, e⟩ := endOfStep_cases s <;> rw [e]
  simp

end Sys2Proof.Machine
end

