-- ==== Sys2Proof/Laws/Transfer.lean ====
section
/-! SUPPORT. A disk transfer, said once: the states it passes through, where it stops, and the RAMs the host sees of it. -/

namespace Sys2Proof.Machine

/-- The states a transfer passes through are determined by the first. -/
theorem Passes.agree {byte : Nat → State → Option State} {s : State} {r r' : Nat → State} {m m' : Nat}
    (h : Passes byte s r m) (h' : Passes byte s r' m') (k : Nat) (hk : k ≤ m) (hk' : k ≤ m') : r k = r' k := by
  induction k with
  | zero => rw [h.1, h'.1]
  | succ k ih =>
    have e := h.2 k hk
    rw [ih (Nat.le_of_succ_le hk) (Nat.le_of_succ_le hk'), h'.2 k hk'] at e
    exact (Option.some.inj e).symm

/-- So is the byte at which it fails. -/
theorem Passes.stop_le {byte : Nat → State → Option State} {s : State} {r r' : Nat → State} {m m' : Nat}
    (h : Passes byte s r m) (h' : Passes byte s r' m') (hf : byte m (r m) = none) : m' ≤ m := by
  by_contra hc
  have hlt : m < m' := Nat.lt_of_not_le hc
  rw [h.agree h' m (Nat.le_refl m) (Nat.le_of_lt hlt), h'.2 m hlt] at hf
  cases hf

/-- One byte put before the states of the transfer of the others. -/
theorem Passes.cons {byte byte' : Nat → State → Option State} {s t : State} {r : Nat → State} {m : Nat}
    (h0 : byte 0 s = some t) (hs : ∀ k u, byte (k + 1) u = byte' k u) (h : Passes byte' t r m) :
    Passes byte s (fun k => match k with | 0 => s | n + 1 => r n) (m + 1) := by
  refine ⟨rfl, fun k hk => ?_⟩
  cases k with
  | zero => rw [h0, ← h.1]
  | succ k => simp only [hs]; exact h.2 k (Nat.lt_of_succ_lt_succ hk)

theorem addr_succ (addr : Word) (k : Nat) : addr + BitVec.ofNat 64 (k + 1) = addr + 1 + BitVec.ofNat 64 k := by
  rw [Nat.add_comm, BitVec.ofNat_add, BitVec.add_assoc]; rfl

theorem transferStore_cons (b : Byte) (bs : List Byte) (addr : Word) (k : Nat) (u : State) :
    transferStore (b :: bs) 0 addr (k + 1) u = transferStore bs 0 (addr + 1) k u := by
  unfold transferStore
  rw [addr_succ, Nat.zero_add, Nat.zero_add, List.getD_cons_succ]

/-- A transfer to RAM stores its bytes in order and ends with `done` cleared, or at the first byte whose store fails. -/
theorem dmaToRam_spec (bs : List Byte) (addr : Word) (s : State) :
    ∃ r m, Passes (transferStore bs 0 addr) s r m ∧ dmaRamViews bs addr s = (List.range m).map (fun k => (r (k + 1)).mem) ∧
      ((m = bs.length ∧ dmaToRam bs addr s = dmaDone (r m)) ∨
        (m < bs.length ∧ transferStore bs 0 addr m (r m) = none ∧ dmaToRam bs addr s = hostError .busFailure (r m))) := by
  induction bs generalizing addr s with
  | nil => exact ⟨fun _ => s, 0, ⟨rfl, fun k hk => absurd hk (Nat.not_lt_zero k)⟩, rfl, .inl ⟨rfl, rfl⟩⟩
  | cons b bs ih =>
    have h0 : transferStore (b :: bs) 0 addr 0 s = busStore addr .byte (b.setWidth 64) s := by
      unfold transferStore; rw [BitVec.add_zero]; rfl
    unfold dmaToRam dmaRamViews
    cases hb : busStore addr .byte (b.setWidth 64) s with
    | none =>
      exact ⟨fun _ => s, 0, ⟨rfl, fun k hk => absurd hk (Nat.not_lt_zero k)⟩, rfl, .inr ⟨Nat.succ_pos _, h0.trans hb, rfl⟩⟩
    | some t =>
      obtain ⟨r, m, hp, hv, he⟩ := ih (addr + 1) t
      refine ⟨_, m + 1, hp.cons (h0.trans hb) (transferStore_cons b bs addr), ?_, ?_⟩
      · simp only [hv, List.range_succ_eq_map, List.map_cons, List.map_map, hp.1]; rfl
      · simp only [List.length_cons, Nat.add_right_cancel_iff, Nat.add_lt_add_iff_right, transferStore_cons]
        exact he

/-- A transfer to the disk loads its bytes in order and ends with `done` cleared, or at the first byte whose load fails. -/
theorem dmaToDisk_spec (n start : Nat) (addr : Word) (s : State) :
    ∃ r m, Passes (transferLoad start addr) s r m ∧
      ((m = n ∧ dmaToDisk n start addr s = dmaDone (r m)) ∨
        (m < n ∧ transferLoad start addr m (r m) = none ∧ dmaToDisk n start addr s = hostError .busFailure (r m))) := by
  induction n generalizing start addr s with
  | zero => exact ⟨fun _ => s, 0, ⟨rfl, fun k hk => absurd hk (Nat.not_lt_zero k)⟩, .inl ⟨rfl, rfl⟩⟩
  | succ n ih =>
    have h0 : transferLoad start addr 0 s =
        (busLoad addr .byte s).map (fun r => r.2.setBacking start (r.1.setWidth 8)) := by
      unfold transferLoad; rw [BitVec.add_zero]; rfl
    have hs (k : Nat) (u : State) : transferLoad start addr (k + 1) u = transferLoad (start + 1) (addr + 1) k u := by
      unfold transferLoad; rw [addr_succ, Nat.add_assoc, Nat.add_comm 1 k]
    unfold dmaToDisk
    cases hb : busLoad addr .byte s with
    | none =>
      rw [hb] at h0
      exact ⟨fun _ => s, 0, ⟨rfl, fun k hk => absurd hk (Nat.not_lt_zero k)⟩, .inr ⟨Nat.succ_pos _, h0, rfl⟩⟩
    | some x =>
      rw [hb] at h0
      obtain ⟨r, m, hp, he⟩ := ih (start + 1) (addr + 1) (x.2.setBacking start (x.1.setWidth 8))
      refine ⟨_, m + 1, hp.cons h0 hs, ?_⟩
      simp only [Nat.add_right_cancel_iff, Nat.add_lt_add_iff_right, hs]
      exact he

/-- Inside the image, the bytes of the sectors a transfer copies are the image's from its start. -/
theorem transferStore_image (img : List Byte) (start len k : Nat) (addr : Word) (u : State) (hk : k < len) :
    transferStore ((img.drop start).take len) 0 addr k u = transferStore img start addr k u := by
  unfold transferStore
  congr 2
  simp [List.getD_eq_getElem?_getD, hk]

/-- The same states, read from the image. -/
theorem Passes.image {img : List Byte} {start len m : Nat} {addr : Word} {s : State} {r : Nat → State} (hm : m ≤ len)
    (h : Passes (transferStore ((img.drop start).take len) 0 addr) s r m) : Passes (transferStore img start addr) s r m :=
  ⟨h.1, fun k hk => by rw [← transferStore_image img start len k addr (r k) (by omega)]; exact h.2 k hk⟩

/-! ## What a byte of a transfer leaves alone -/

/-- A byte store changes RAM, the UART's registers and the bytes sent: no other device is a byte wide. -/
theorem busStore_byte_rest {s t : State} {pa v : Word} (h : busStore pa .byte v s = some t) :
    t = { s with mem := t.mem, uart := { s.uart with bytes := t.uart.bytes }, uartOut := t.uartOut } := by
  obtain ⟨_, rfl⟩ | ⟨d, _, hw, h⟩ := busStore_cases h
  · rfl
  · generalize pa.toNat - d.base s.cfg = off at *
    cases d <;> first | (cases hw; done) | skip
    rw [h]
    unfold deviceStore uartStore
    simp only
    split <;> rfl

theorem transferStore_keeps {img : List Byte} {start k : Nat} {addr : Word} {u t : State}
    (h : transferStore img start addr k u = some t) : t.disk = u.disk ∧ t.csrs = u.csrs ∧ t.plic = u.plic := by
  rw [busStore_byte_rest h]; exact ⟨rfl, rfl, rfl⟩

theorem transferLoad_keeps {start k : Nat} {addr : Word} {u t : State} (h : transferLoad start addr k u = some t) :
    t.disk = u.disk ∧ t.csrs = u.csrs ∧ t.plic = u.plic := by
  obtain ⟨⟨v, r⟩, hr, rfl⟩ := Option.map_eq_some_iff.1 h
  rw [busLoad_rest hr]; exact ⟨rfl, rfl, rfl⟩

/-- Passing bytes leaves the disk's registers, the CSRs and the PLIC. -/
theorem Passes.keeps {byte : Nat → State → Option State} {s : State} {r : Nat → State} {m : Nat} (h : Passes byte s r m)
    (hb : ∀ k u t, byte k u = some t → t.disk = u.disk ∧ t.csrs = u.csrs ∧ t.plic = u.plic) :
    (r m).disk = s.disk ∧ (r m).csrs = s.csrs ∧ (r m).plic = s.plic := by
  induction m with
  | zero => rw [h.1]; exact ⟨rfl, rfl, rfl⟩
  | succ m ih =>
    obtain ⟨h1, h2, h3⟩ := hb m _ _ (h.2 m (Nat.lt_succ_self m))
    obtain ⟨i1, i2, i3⟩ := ih ⟨h.1, fun k hk => h.2 k (Nat.lt_succ_of_lt hk)⟩
    exact ⟨h1.trans i1, h2.trans i2, h3.trans i3⟩

/-! ## A transfer that runs past the end of RAM -/

/-- Past the end of RAM no byte access succeeds. -/
theorem past_ram_fails (s : State) (pa : Word) (h : 0x80800000 ≤ pa.toNat) :
    busLoad pa .byte s = none ∧ ∀ v, busStore pa .byte v s = none := by
  have hr := regionOf_ram s.cfg pa.toNat (by omega)
  have hi : inRam pa.toNat .byte = false := by
    rw [Bool.eq_false_iff]
    intro hh
    have := ((inRam_iff _ _).1 hh).2
    simp only [Width.bytes] at this
    omega
  exact ⟨(busLoad_none_iff _ _ _).2 (.inr (.inl ⟨hr, hi⟩)), fun v => (busStore_none_iff _ _ _ _).2 (.inr (.inl ⟨hr, hi⟩))⟩

/-- A transfer to RAM that runs past its end stores the bytes before the end and fails at the next. -/
theorem dmaToRam_overrun (bs : List Byte) (addr : Word) (s : State) (h1 : 0x80000000 ≤ addr.toNat)
    (h2 : addr.toNat ≤ 0x80800000) (h3 : 0x80800000 < addr.toNat + bs.length) :
    dmaToRam bs addr s =
      hostError .busFailure { s with mem := Memory.load s.mem addr.toNat (bs.take (0x80800000 - addr.toNat)) } := by
  induction bs generalizing addr s with
  | nil => exact absurd h3 (by simp only [List.length_nil]; omega)
  | cons b bs ih =>
    rw [List.length_cons] at h3
    unfold dmaToRam
    by_cases he : addr.toNat = 0x80800000
    · rw [(past_ram_fails s addr (by omega)).2, he]; rfl
    · have ha : (addr + 1).toNat = addr.toNat + 1 := toNat_add_one (by omega)
      rw [busStore_ram _ _ _ _ ((inRam_iff _ _).2 ⟨h1, by simp only [Width.bytes]; omega⟩)]
      simp only
      rw [ih _ _ (by omega) (by omega) (by omega), ha,
        show 0x80800000 - addr.toNat = (0x80800000 - (addr.toNat + 1)) + 1 by omega, List.take_succ_cons]
      simp only [Width.bytes, Memory.writeBytes, Memory.load]
      rw [show (BitVec.setWidth 64 b).setWidth 8 = b by simp]

/-- A transfer to the disk that runs past the end of RAM copies the bytes before the end and fails at the next. -/
theorem dmaToDisk_overrun (n i : Nat) (addr : Word) (s : State) (img : List Byte) (hi : s.diskBacking = some img)
    (h1 : 0x80000000 ≤ addr.toNat) (h2 : addr.toNat + n = 0x80800000) (len : Nat) (hl : n < len) (h3 : i + len ≤ img.length) :
    ∃ img', dmaToDisk len i addr s = hostError .busFailure { s with diskBacking := some img' } ∧ img'.length = img.length ∧
      (∀ k < n, img'.getD (i + k) 0 = Cells.read s.mem (addr.toNat + k)) ∧
      ∀ j, (j < i ∨ i + n ≤ j) → img'.getD j 0 = img.getD j 0 := by
  induction n generalizing i addr s img len with
  | zero =>
    obtain ⟨l, rfl⟩ : ∃ l, len = l + 1 := ⟨len - 1, by omega⟩
    refine ⟨img, ?_, rfl, fun k hk => by omega, fun _ _ => rfl⟩
    unfold dmaToDisk
    rw [(past_ram_fails s addr (by omega)).1, ← hi]
  | succ n ih =>
    obtain ⟨l, rfl⟩ : ∃ l, len = l + 1 := ⟨len - 1, by omega⟩
    have ha : (addr + 1).toNat = addr.toNat + 1 := toNat_add_one (by omega)
    have hr : inRam addr.toNat .byte = true := (inRam_iff _ _).2 ⟨h1, by simp only [Width.bytes]; omega⟩
    have hv : (Memory.readBytes s.mem addr.toNat Width.byte.bytes).setWidth 8 = Cells.read s.mem addr.toNat := by
      simp only [Width.bytes, Memory.readBytes]; simp
    unfold dmaToDisk
    rw [busLoad_ram _ _ _ hr]
    simp only
    rw [hv]
    obtain ⟨img', he, hl', hk, hj⟩ := ih (i + 1) (addr + 1) (s.setBacking i (Cells.read s.mem addr.toNat))
      (img.set i (Cells.read s.mem addr.toNat)) (by unfold State.setBacking; rw [hi]; rfl) (by omega) (by omega) l (by omega)
      (by rw [List.length_set]; omega)
    refine ⟨img', he.trans rfl, by rw [hl', List.length_set], ?_, ?_⟩
    · intro k hk'
      cases k with
      | zero =>
        rw [Nat.add_zero, hj i (by omega)]
        simp [List.getD_eq_getElem?_getD, show i < img.length by omega]
      | succ k =>
        have := hk k (by omega)
        rw [ha] at this
        rw [show i + (k + 1) = i + 1 + k by omega, show addr.toNat + (k + 1) = addr.toNat + 1 + k by omega]
        exact this
    · intro j hj'
      rw [hj j (by omega)]
      simp [List.getD_eq_getElem?_getD, show ¬ i = j by omega]

end Sys2Proof.Machine
end

