-- ==== Sys2Proof/Laws/HostAgent.lean ====
section
/-! SUPPORT. The host: what the moves of one point do, and the RAMs it can see during a step. -/

namespace Sys2Proof.Machine

/-- The last RAM of a transfer to RAM is the RAM it leaves. -/
theorem dmaRamViews_last (bs : List Byte) (addr : Word) (s : State) :
    (s.mem :: dmaRamViews bs addr s).getLast? = some (dmaToRam bs addr s).mem := by
  induction bs generalizing addr s with
  | nil => rfl
  | cons b bs ih =>
    unfold dmaRamViews dmaToRam
    cases busStore addr .byte (b.setWidth 64) s with
    | none => rfl
    | some t =>
      simp only [List.getLast?_cons_cons]
      exact ih _ _

/-! ## The moves of one point -/

/-- While LSR.RX is set every byte waits and every scancode goes in (R126, R138). -/
theorem letIn_blocked (ms : List HostMove) (s : State) (h : s.uartRx = true) :
    (letIn ms s).2 = (bytesOf ms).map .uartByte ∧ (letIn ms s).1 = { s with kbdQueue := s.kbdQueue ++ scancodesOf ms } := by
  induction ms generalizing s with
  | nil => exact ⟨rfl, by simp [letIn, scancodesOf]⟩
  | cons m ms ih =>
    cases m with
    | uartByte b =>
      have := ih s h
      simp only [letIn, hostMove, h, if_true]
      exact ⟨by rw [this.1]; rfl, this.2⟩
    | scancode v =>
      have := ih (kbdPushScancode v s) h
      simp only [letIn, hostMove]
      exact ⟨this.1, by rw [this.2]; simp [kbdPushScancode, scancodesOf]⟩
    | ramPointer => exact ih s h

/-- While LSR.RX is clear the first byte goes in and the others wait (R126). -/
theorem letIn_open (ms : List HostMove) (s : State) (h : s.uartRx = false) :
    (bytesOf ms = [] → (letIn ms s).2 = [] ∧ (letIn ms s).1 = { s with kbdQueue := s.kbdQueue ++ scancodesOf ms }) ∧
    ∀ b bs, bytesOf ms = b :: bs → (letIn ms s).2 = bs.map .uartByte ∧
      (letIn ms s).1 = { uartPushByte b s with kbdQueue := s.kbdQueue ++ scancodesOf ms } := by
  induction ms generalizing s with
  | nil => exact ⟨fun _ => ⟨rfl, by simp [letIn, scancodesOf]⟩, fun b bs h => by cases h⟩
  | cons m ms ih =>
    cases m with
    | uartByte b =>
      refine ⟨fun h => (by cases h), fun b' bs hb => ?_⟩
      have hb2 : b :: bytesOf ms = b' :: bs := hb
      cases hb2
      have hr : (uartPushByte b s).uartRx = true := by
        show ((State.setUartByte _ _ _).uartByte _).getLsbD 0 = true
        rw [uartByte_setUartByte]; simp
      have := letIn_blocked ms (uartPushByte b s) hr
      have e : letIn (.uartByte b :: ms) s = letIn ms (uartPushByte b s) := by simp [letIn, hostMove, h]
      rw [e]
      exact this
    | scancode v =>
      obtain ⟨h1, h2⟩ := ih (kbdPushScancode v s) h
      have e : letIn (.scancode v :: ms) s = letIn ms (kbdPushScancode v s) := rfl
      rw [e]
      refine ⟨fun hb => ⟨(h1 hb).1, ?_⟩, fun b bs hb => ⟨(h2 b bs hb).1, ?_⟩⟩
      · rw [(h1 hb).2]; simp [kbdPushScancode, scancodesOf]
      · rw [(h2 b bs hb).2]; simp [kbdPushScancode, scancodesOf, uartPushByte, State.setUartByte, State.uartByte]
    | ramPointer => exact ih s h

/-! ## A whole transfer, poll and execution -/

/-- The last RAM of a transfer is the one it leaves. -/
theorem dmaCopyViews_last (s : State) : (s.mem :: dmaCopyViews s).getLast? = some (dmaCopy s).mem := by
  unfold dmaCopyViews dmaCopy
  cases s.diskBacking with
  | none => rfl
  | some img =>
    simp only
    split
    · rfl
    · split
      · rw [dmaToDisk_rest]; rfl
      · exact dmaRamViews_last _ _ _

theorem dmaViews_last (s : State) : (s.mem :: dmaViews s).getLast? = some (dma s).mem :=
  dmaCopyViews_last { s with disk := { s.disk with notify := notifyIdle } }

/-- A poll that runs no transfer leaves RAM, one that runs it leaves the transfer's. -/
theorem poll_mem (s : State) :
    (poll s).mem = if pollBlocked (timerCompare s) || s.uart.interrupting || s.disk.notify == notifyIdle then s.mem
      else (dma (timerCompare s)).mem := by
  have hu : (timerCompare s).uart = s.uart := by rw [timerCompare_rest]
  have hd : (timerCompare s).disk = s.disk := by rw [timerCompare_rest]
  have hm : (timerCompare s).mem = s.mem := by rw [timerCompare_rest]
  unfold poll
  by_cases hb : pollBlocked (timerCompare s) = true
  · simp only [hb, if_true, Bool.true_or, hm]
  · have he : (pollEnabled (timerCompare s)).mem = (deviceQuery (timerCompare s)).mem := by
      unfold pollEnabled; simp only; split
      · exact deliver_mem _
      · rfl
    simp only [hb, Bool.false_eq_true, if_false, Bool.false_or, he, Bool.or_eq_true, beq_iff_eq]
    unfold deviceQuery
    rw [hu, hd]
    by_cases hi : s.uart.interrupting = true
    · rw [if_pos hi, if_pos (.inl hi)]; exact hm
    · rw [if_neg hi]
      by_cases hn : s.disk.notify = notifyIdle
      · rw [if_neg (not_not.2 hn), if_pos (.inr hn)]; exact hm
      · rw [if_pos hn, if_neg (not_or.2 ⟨hi, hn⟩)]; simp only; split <;> rfl

/-- The last RAM of a poll is the one it leaves. -/
theorem pollViews_last (s : State) : (s.mem :: pollViews s).getLast? = some (poll s).mem := by
  rw [poll_mem]
  unfold pollViews
  split
  · rfl
  · have hm : (timerCompare s).mem = s.mem := by rw [timerCompare_rest]
    rw [← hm]
    exact dmaViews_last _

/-- An execution changes no byte of RAM but those of the store target of the word it fetched. -/
theorem execution_mem {s u : State} (h : execution s = .next u) :
    u.mem = s.mem ∨ ∃ w f i va wd pa, fetch s = .ok (w, f) ∧ decodeWord w = .ok i ∧
      storeTarget (f.setPc (f.pc + 4)) i = some (va, wd) ∧ translate va .store (f.setPc (f.pc + 4)) = .ok pa ∧
      busLoad pa wd (f.setPc (f.pc + 4)) ≠ none ∧
      ∀ a, (a < pa.toNat ∨ pa.toNat + wd.bytes ≤ a) → Cells.read u.mem a = Cells.read s.mem a := by
  unfold execution at h
  obtain ⟨e, he⟩ | ⟨w, pa, v, t, hf, hb⟩ := fetch_cases s
  · rw [he] at h; cases h; left; simp
  · rw [hf] at h
    have hm : t.mem = s.mem := by rw [busLoad_rest hb]
    simp only [execWord] at h
    cases hd : decodeWord w with
    | error e => rw [hd] at h; cases h; left; simp [hm]
    | ok i =>
      rw [hd] at h
      have hdo := does_of_exec h
      rw [← hm]
      cases hdo with
      | writes rd v _ _ => left; simp
      | jumps rd v p _ _ => left; simp
      | goes p => left; rfl
      | loads rd v pa w a t' _ _ hb' => left; rw [setReg_mem, busLoad_rest hb']; rfl
      | stores va wd pa v t' hst _ ht hs =>
        refine .inr ⟨w, t, i, va, wd, pa, hf, hd, hst, ht, fun hn => ?_, fun a ha => busStore_mem hs a ha⟩
        rw [(busStore_none_iff _ _ _ _).2 ((busLoad_none_iff _ _ _).1 hn)] at hs
        cases hs
      | amos rd v va wd pa x b t' u' _ hst _ ht hb' hs =>
        refine .inr ⟨w, t, i, va, wd, pa, hf, hd, hst, ht, fun hn => (by rw [hn] at hb'; cases hb'), fun a ha => ?_⟩
        rw [setReg_mem, busStore_mem hs a ha, busLoad_rest hb']; rfl
      | raises e _ _ => left; simp
      | csrs rd a v _ _ => left; rw [setReg_mem, csrWrite_rest]; rfl
      | sret _ => left; rfl
      | mret _ => left; obtain ⟨_, e⟩ | ⟨_, _, _, e⟩ := returnM_cases (t.setPc (t.pc + 4)) <;> rw [e] <;> rfl

end Sys2Proof.Machine
end

