-- ==== Sys2Proof/Laws/PerInstr.lean ====
section
/-! SUPPORT. One lemma per instruction about its word: it fits a row of the opcode table, and the row gives the instruction back. -/

namespace Sys2Proof.Laws.EncodedWordFits

/-- The encoded word fits a row of the opcode table (R187, R188), and that row builds the instruction itself from it when its offset, if it
has one, is even. -/
def Statement (i : Instr) : Prop :=
  ∃ r ∈ rows, r.fits (encodeWord i) = true ∧ (i.wf = true → r.build (encodeWord i) = i)

/-- A row of the table, by its place. -/
theorem of_row {i : Instr} (k : Nat) (hk : k < rows.length) (hf : encodeWord i &&& rows[k].mask = rows[k].pattern)
    (hb : i.wf = true → rows[k].build (encodeWord i) = i) : Statement i :=
  ⟨rows[k], List.getElem_mem hk, by simp only [Row.fits, hf, beq_self_eq_true], hb⟩

theorem bit_of_not {b : Bool} (h : (!b) = true) : b = false := by cases b <;> simp_all

theorem lui (rd : Reg) (imm : BitVec 20) : Statement (.lui rd imm) :=
  of_row 0 (by decide) ((encU_fixed ..).trans (by decide))
    (fun _ => congr (congrArg Instr.lui (rdOf_encU ..)) (immUOf_encU ..))

theorem auipc (rd : Reg) (imm : BitVec 20) : Statement (.auipc rd imm) :=
  of_row 1 (by decide) ((encU_fixed ..).trans (by decide))
    (fun _ => congr (congrArg Instr.auipc (rdOf_encU ..)) (immUOf_encU ..))

theorem jal (rd : Reg) (imm : BitVec 21) : Statement (.jal rd imm) :=
  of_row 2 (by decide) ((encJ_fixed ..).trans (by decide))
    (fun h => congr (congrArg Instr.jal (rdOf_encJ ..)) (immJOf_encJ _ _ _ (bit_of_not h)))

theorem jalr (rd rs1 : Reg) (imm : BitVec 12) : Statement (.jalr rd rs1 imm) :=
  of_row 3 (by decide) ((encI_fixed ..).trans (by decide))
    (fun _ => congr (congr (congrArg Instr.jalr (rdOf_encI ..)) (rs1Of_encI ..)) (immIOf_encI ..))

theorem beq (rs1 rs2 : Reg) (imm : BitVec 13) : Statement (.beq rs1 rs2 imm) :=
  of_row 4 (by decide) ((encB_fixed ..).trans (by decide))
    (fun h => congr (congr (congrArg Instr.beq (rs1Of_encB ..)) (rs2Of_encB ..)) (immBOf_encB _ _ _ _ _ (bit_of_not h)))

theorem bne (rs1 rs2 : Reg) (imm : BitVec 13) : Statement (.bne rs1 rs2 imm) :=
  of_row 5 (by decide) ((encB_fixed ..).trans (by decide))
    (fun h => congr (congr (congrArg Instr.bne (rs1Of_encB ..)) (rs2Of_encB ..)) (immBOf_encB _ _ _ _ _ (bit_of_not h)))

theorem blt (rs1 rs2 : Reg) (imm : BitVec 13) : Statement (.blt rs1 rs2 imm) :=
  of_row 6 (by decide) ((encB_fixed ..).trans (by decide))
    (fun h => congr (congr (congrArg Instr.blt (rs1Of_encB ..)) (rs2Of_encB ..)) (immBOf_encB _ _ _ _ _ (bit_of_not h)))

theorem bge (rs1 rs2 : Reg) (imm : BitVec 13) : Statement (.bge rs1 rs2 imm) :=
  of_row 7 (by decide) ((encB_fixed ..).trans (by decide))
    (fun h => congr (congr (congrArg Instr.bge (rs1Of_encB ..)) (rs2Of_encB ..)) (immBOf_encB _ _ _ _ _ (bit_of_not h)))

theorem bltu (rs1 rs2 : Reg) (imm : BitVec 13) : Statement (.bltu rs1 rs2 imm) :=
  of_row 8 (by decide) ((encB_fixed ..).trans (by decide))
    (fun h => congr (congr (congrArg Instr.bltu (rs1Of_encB ..)) (rs2Of_encB ..)) (immBOf_encB _ _ _ _ _ (bit_of_not h)))

theorem bgeu (rs1 rs2 : Reg) (imm : BitVec 13) : Statement (.bgeu rs1 rs2 imm) :=
  of_row 9 (by decide) ((encB_fixed ..).trans (by decide))
    (fun h => congr (congr (congrArg Instr.bgeu (rs1Of_encB ..)) (rs2Of_encB ..)) (immBOf_encB _ _ _ _ _ (bit_of_not h)))

theorem lb (rd rs1 : Reg) (imm : BitVec 12) : Statement (.lb rd rs1 imm) :=
  of_row 10 (by decide) ((encI_fixed ..).trans (by decide))
    (fun _ => congr (congr (congrArg Instr.lb (rdOf_encI ..)) (rs1Of_encI ..)) (immIOf_encI ..))

theorem lh (rd rs1 : Reg) (imm : BitVec 12) : Statement (.lh rd rs1 imm) :=
  of_row 11 (by decide) ((encI_fixed ..).trans (by decide))
    (fun _ => congr (congr (congrArg Instr.lh (rdOf_encI ..)) (rs1Of_encI ..)) (immIOf_encI ..))

theorem lw (rd rs1 : Reg) (imm : BitVec 12) : Statement (.lw rd rs1 imm) :=
  of_row 12 (by decide) ((encI_fixed ..).trans (by decide))
    (fun _ => congr (congr (congrArg Instr.lw (rdOf_encI ..)) (rs1Of_encI ..)) (immIOf_encI ..))

theorem ld (rd rs1 : Reg) (imm : BitVec 12) : Statement (.ld rd rs1 imm) :=
  of_row 13 (by decide) ((encI_fixed ..).trans (by decide))
    (fun _ => congr (congr (congrArg Instr.ld (rdOf_encI ..)) (rs1Of_encI ..)) (immIOf_encI ..))

theorem lbu (rd rs1 : Reg) (imm : BitVec 12) : Statement (.lbu rd rs1 imm) :=
  of_row 14 (by decide) ((encI_fixed ..).trans (by decide))
    (fun _ => congr (congr (congrArg Instr.lbu (rdOf_encI ..)) (rs1Of_encI ..)) (immIOf_encI ..))

theorem lhu (rd rs1 : Reg) (imm : BitVec 12) : Statement (.lhu rd rs1 imm) :=
  of_row 15 (by decide) ((encI_fixed ..).trans (by decide))
    (fun _ => congr (congr (congrArg Instr.lhu (rdOf_encI ..)) (rs1Of_encI ..)) (immIOf_encI ..))

theorem lwu (rd rs1 : Reg) (imm : BitVec 12) : Statement (.lwu rd rs1 imm) :=
  of_row 16 (by decide) ((encI_fixed ..).trans (by decide))
    (fun _ => congr (congr (congrArg Instr.lwu (rdOf_encI ..)) (rs1Of_encI ..)) (immIOf_encI ..))

theorem sb (rs1 rs2 : Reg) (imm : BitVec 12) : Statement (.sb rs1 rs2 imm) :=
  of_row 17 (by decide) ((encS_fixed ..).trans (by decide))
    (fun _ => congr (congr (congrArg Instr.sb (rs1Of_encS ..)) (rs2Of_encS ..)) (immSOf_encS ..))

theorem sh (rs1 rs2 : Reg) (imm : BitVec 12) : Statement (.sh rs1 rs2 imm) :=
  of_row 18 (by decide) ((encS_fixed ..).trans (by decide))
    (fun _ => congr (congr (congrArg Instr.sh (rs1Of_encS ..)) (rs2Of_encS ..)) (immSOf_encS ..))

theorem sw (rs1 rs2 : Reg) (imm : BitVec 12) : Statement (.sw rs1 rs2 imm) :=
  of_row 19 (by decide) ((encS_fixed ..).trans (by decide))
    (fun _ => congr (congr (congrArg Instr.sw (rs1Of_encS ..)) (rs2Of_encS ..)) (immSOf_encS ..))

theorem sd (rs1 rs2 : Reg) (imm : BitVec 12) : Statement (.sd rs1 rs2 imm) :=
  of_row 20 (by decide) ((encS_fixed ..).trans (by decide))
    (fun _ => congr (congr (congrArg Instr.sd (rs1Of_encS ..)) (rs2Of_encS ..)) (immSOf_encS ..))

theorem addi (rd rs1 : Reg) (imm : BitVec 12) : Statement (.addi rd rs1 imm) :=
  of_row 21 (by decide) ((encI_fixed ..).trans (by decide))
    (fun _ => congr (congr (congrArg Instr.addi (rdOf_encI ..)) (rs1Of_encI ..)) (immIOf_encI ..))

theorem slti (rd rs1 : Reg) (imm : BitVec 12) : Statement (.slti rd rs1 imm) :=
  of_row 22 (by decide) ((encI_fixed ..).trans (by decide))
    (fun _ => congr (congr (congrArg Instr.slti (rdOf_encI ..)) (rs1Of_encI ..)) (immIOf_encI ..))

theorem sltiu (rd rs1 : Reg) (imm : BitVec 12) : Statement (.sltiu rd rs1 imm) :=
  of_row 23 (by decide) ((encI_fixed ..).trans (by decide))
    (fun _ => congr (congr (congrArg Instr.sltiu (rdOf_encI ..)) (rs1Of_encI ..)) (immIOf_encI ..))

theorem xori (rd rs1 : Reg) (imm : BitVec 12) : Statement (.xori rd rs1 imm) :=
  of_row 24 (by decide) ((encI_fixed ..).trans (by decide))
    (fun _ => congr (congr (congrArg Instr.xori (rdOf_encI ..)) (rs1Of_encI ..)) (immIOf_encI ..))

theorem ori (rd rs1 : Reg) (imm : BitVec 12) : Statement (.ori rd rs1 imm) :=
  of_row 25 (by decide) ((encI_fixed ..).trans (by decide))
    (fun _ => congr (congr (congrArg Instr.ori (rdOf_encI ..)) (rs1Of_encI ..)) (immIOf_encI ..))

theorem andi (rd rs1 : Reg) (imm : BitVec 12) : Statement (.andi rd rs1 imm) :=
  of_row 26 (by decide) ((encI_fixed ..).trans (by decide))
    (fun _ => congr (congr (congrArg Instr.andi (rdOf_encI ..)) (rs1Of_encI ..)) (immIOf_encI ..))

theorem slli (rd rs1 : Reg) (shamt : BitVec 6) : Statement (.slli rd rs1 shamt) :=
  of_row 27 (by decide) ((encShift64_fixed ..).trans (by decide))
    (fun _ => congr (congr (congrArg Instr.slli (rdOf_encShift64 ..)) (rs1Of_encShift64 ..)) (shamt6Of_encShift64 ..))

theorem srli (rd rs1 : Reg) (shamt : BitVec 6) : Statement (.srli rd rs1 shamt) :=
  of_row 28 (by decide) ((encShift64_fixed ..).trans (by decide))
    (fun _ => congr (congr (congrArg Instr.srli (rdOf_encShift64 ..)) (rs1Of_encShift64 ..)) (shamt6Of_encShift64 ..))

theorem srai (rd rs1 : Reg) (shamt : BitVec 6) : Statement (.srai rd rs1 shamt) :=
  of_row 29 (by decide) ((encShift64_fixed ..).trans (by decide))
    (fun _ => congr (congr (congrArg Instr.srai (rdOf_encShift64 ..)) (rs1Of_encShift64 ..)) (shamt6Of_encShift64 ..))

theorem add (rd rs1 rs2 : Reg) : Statement (.add rd rs1 rs2) :=
  of_row 30 (by decide) ((encR_fixed ..).trans (by decide))
    (fun _ => congr (congr (congrArg Instr.add (rdOf_encR ..)) (rs1Of_encR ..)) (rs2Of_encR ..))

theorem sub (rd rs1 rs2 : Reg) : Statement (.sub rd rs1 rs2) :=
  of_row 31 (by decide) ((encR_fixed ..).trans (by decide))
    (fun _ => congr (congr (congrArg Instr.sub (rdOf_encR ..)) (rs1Of_encR ..)) (rs2Of_encR ..))

theorem sll (rd rs1 rs2 : Reg) : Statement (.sll rd rs1 rs2) :=
  of_row 32 (by decide) ((encR_fixed ..).trans (by decide))
    (fun _ => congr (congr (congrArg Instr.sll (rdOf_encR ..)) (rs1Of_encR ..)) (rs2Of_encR ..))

theorem slt (rd rs1 rs2 : Reg) : Statement (.slt rd rs1 rs2) :=
  of_row 33 (by decide) ((encR_fixed ..).trans (by decide))
    (fun _ => congr (congr (congrArg Instr.slt (rdOf_encR ..)) (rs1Of_encR ..)) (rs2Of_encR ..))

theorem sltu (rd rs1 rs2 : Reg) : Statement (.sltu rd rs1 rs2) :=
  of_row 34 (by decide) ((encR_fixed ..).trans (by decide))
    (fun _ => congr (congr (congrArg Instr.sltu (rdOf_encR ..)) (rs1Of_encR ..)) (rs2Of_encR ..))

theorem xor (rd rs1 rs2 : Reg) : Statement (.xor rd rs1 rs2) :=
  of_row 35 (by decide) ((encR_fixed ..).trans (by decide))
    (fun _ => congr (congr (congrArg Instr.xor (rdOf_encR ..)) (rs1Of_encR ..)) (rs2Of_encR ..))

theorem srl (rd rs1 rs2 : Reg) : Statement (.srl rd rs1 rs2) :=
  of_row 36 (by decide) ((encR_fixed ..).trans (by decide))
    (fun _ => congr (congr (congrArg Instr.srl (rdOf_encR ..)) (rs1Of_encR ..)) (rs2Of_encR ..))

theorem sra (rd rs1 rs2 : Reg) : Statement (.sra rd rs1 rs2) :=
  of_row 37 (by decide) ((encR_fixed ..).trans (by decide))
    (fun _ => congr (congr (congrArg Instr.sra (rdOf_encR ..)) (rs1Of_encR ..)) (rs2Of_encR ..))

theorem or (rd rs1 rs2 : Reg) : Statement (.or rd rs1 rs2) :=
  of_row 38 (by decide) ((encR_fixed ..).trans (by decide))
    (fun _ => congr (congr (congrArg Instr.or (rdOf_encR ..)) (rs1Of_encR ..)) (rs2Of_encR ..))

theorem and (rd rs1 rs2 : Reg) : Statement (.and rd rs1 rs2) :=
  of_row 39 (by decide) ((encR_fixed ..).trans (by decide))
    (fun _ => congr (congr (congrArg Instr.and (rdOf_encR ..)) (rs1Of_encR ..)) (rs2Of_encR ..))

theorem addiw (rd rs1 : Reg) (imm : BitVec 12) : Statement (.addiw rd rs1 imm) :=
  of_row 40 (by decide) ((encI_fixed ..).trans (by decide))
    (fun _ => congr (congr (congrArg Instr.addiw (rdOf_encI ..)) (rs1Of_encI ..)) (immIOf_encI ..))

theorem slliw (rd rs1 : Reg) (shamt : BitVec 5) : Statement (.slliw rd rs1 shamt) :=
  of_row 41 (by decide) ((encShift32_fixed ..).trans (by decide))
    (fun _ => congr (congr (congrArg Instr.slliw (rdOf_encShift32 ..)) (rs1Of_encShift32 ..)) (shamt5Of_encShift32 ..))

theorem srliw (rd rs1 : Reg) (shamt : BitVec 5) : Statement (.srliw rd rs1 shamt) :=
  of_row 42 (by decide) ((encShift32_fixed ..).trans (by decide))
    (fun _ => congr (congr (congrArg Instr.srliw (rdOf_encShift32 ..)) (rs1Of_encShift32 ..)) (shamt5Of_encShift32 ..))

theorem sraiw (rd rs1 : Reg) (shamt : BitVec 5) : Statement (.sraiw rd rs1 shamt) :=
  of_row 43 (by decide) ((encShift32_fixed ..).trans (by decide))
    (fun _ => congr (congr (congrArg Instr.sraiw (rdOf_encShift32 ..)) (rs1Of_encShift32 ..)) (shamt5Of_encShift32 ..))

theorem addw (rd rs1 rs2 : Reg) : Statement (.addw rd rs1 rs2) :=
  of_row 44 (by decide) ((encR_fixed ..).trans (by decide))
    (fun _ => congr (congr (congrArg Instr.addw (rdOf_encR ..)) (rs1Of_encR ..)) (rs2Of_encR ..))

theorem subw (rd rs1 rs2 : Reg) : Statement (.subw rd rs1 rs2) :=
  of_row 45 (by decide) ((encR_fixed ..).trans (by decide))
    (fun _ => congr (congr (congrArg Instr.subw (rdOf_encR ..)) (rs1Of_encR ..)) (rs2Of_encR ..))

theorem sllw (rd rs1 rs2 : Reg) : Statement (.sllw rd rs1 rs2) :=
  of_row 46 (by decide) ((encR_fixed ..).trans (by decide))
    (fun _ => congr (congr (congrArg Instr.sllw (rdOf_encR ..)) (rs1Of_encR ..)) (rs2Of_encR ..))

theorem srlw (rd rs1 rs2 : Reg) : Statement (.srlw rd rs1 rs2) :=
  of_row 47 (by decide) ((encR_fixed ..).trans (by decide))
    (fun _ => congr (congr (congrArg Instr.srlw (rdOf_encR ..)) (rs1Of_encR ..)) (rs2Of_encR ..))

theorem sraw (rd rs1 rs2 : Reg) : Statement (.sraw rd rs1 rs2) :=
  of_row 48 (by decide) ((encR_fixed ..).trans (by decide))
    (fun _ => congr (congr (congrArg Instr.sraw (rdOf_encR ..)) (rs1Of_encR ..)) (rs2Of_encR ..))

theorem mul (rd rs1 rs2 : Reg) : Statement (.mul rd rs1 rs2) :=
  of_row 49 (by decide) ((encR_fixed ..).trans (by decide))
    (fun _ => congr (congr (congrArg Instr.mul (rdOf_encR ..)) (rs1Of_encR ..)) (rs2Of_encR ..))

theorem mulh (rd rs1 rs2 : Reg) : Statement (.mulh rd rs1 rs2) :=
  of_row 50 (by decide) ((encR_fixed ..).trans (by decide))
    (fun _ => congr (congr (congrArg Instr.mulh (rdOf_encR ..)) (rs1Of_encR ..)) (rs2Of_encR ..))

theorem mulhsu (rd rs1 rs2 : Reg) : Statement (.mulhsu rd rs1 rs2) :=
  of_row 51 (by decide) ((encR_fixed ..).trans (by decide))
    (fun _ => congr (congr (congrArg Instr.mulhsu (rdOf_encR ..)) (rs1Of_encR ..)) (rs2Of_encR ..))

theorem mulhu (rd rs1 rs2 : Reg) : Statement (.mulhu rd rs1 rs2) :=
  of_row 52 (by decide) ((encR_fixed ..).trans (by decide))
    (fun _ => congr (congr (congrArg Instr.mulhu (rdOf_encR ..)) (rs1Of_encR ..)) (rs2Of_encR ..))

theorem div (rd rs1 rs2 : Reg) : Statement (.div rd rs1 rs2) :=
  of_row 53 (by decide) ((encR_fixed ..).trans (by decide))
    (fun _ => congr (congr (congrArg Instr.div (rdOf_encR ..)) (rs1Of_encR ..)) (rs2Of_encR ..))

theorem divu (rd rs1 rs2 : Reg) : Statement (.divu rd rs1 rs2) :=
  of_row 54 (by decide) ((encR_fixed ..).trans (by decide))
    (fun _ => congr (congr (congrArg Instr.divu (rdOf_encR ..)) (rs1Of_encR ..)) (rs2Of_encR ..))

theorem rem (rd rs1 rs2 : Reg) : Statement (.rem rd rs1 rs2) :=
  of_row 55 (by decide) ((encR_fixed ..).trans (by decide))
    (fun _ => congr (congr (congrArg Instr.rem (rdOf_encR ..)) (rs1Of_encR ..)) (rs2Of_encR ..))

theorem remu (rd rs1 rs2 : Reg) : Statement (.remu rd rs1 rs2) :=
  of_row 56 (by decide) ((encR_fixed ..).trans (by decide))
    (fun _ => congr (congr (congrArg Instr.remu (rdOf_encR ..)) (rs1Of_encR ..)) (rs2Of_encR ..))

theorem mulw (rd rs1 rs2 : Reg) : Statement (.mulw rd rs1 rs2) :=
  of_row 57 (by decide) ((encR_fixed ..).trans (by decide))
    (fun _ => congr (congr (congrArg Instr.mulw (rdOf_encR ..)) (rs1Of_encR ..)) (rs2Of_encR ..))

theorem divw (rd rs1 rs2 : Reg) : Statement (.divw rd rs1 rs2) :=
  of_row 58 (by decide) ((encR_fixed ..).trans (by decide))
    (fun _ => congr (congr (congrArg Instr.divw (rdOf_encR ..)) (rs1Of_encR ..)) (rs2Of_encR ..))

theorem divuw (rd rs1 rs2 : Reg) : Statement (.divuw rd rs1 rs2) :=
  of_row 59 (by decide) ((encR_fixed ..).trans (by decide))
    (fun _ => congr (congr (congrArg Instr.divuw (rdOf_encR ..)) (rs1Of_encR ..)) (rs2Of_encR ..))

theorem remw (rd rs1 rs2 : Reg) : Statement (.remw rd rs1 rs2) :=
  of_row 60 (by decide) ((encR_fixed ..).trans (by decide))
    (fun _ => congr (congr (congrArg Instr.remw (rdOf_encR ..)) (rs1Of_encR ..)) (rs2Of_encR ..))

theorem remuw (rd rs1 rs2 : Reg) : Statement (.remuw rd rs1 rs2) :=
  of_row 61 (by decide) ((encR_fixed ..).trans (by decide))
    (fun _ => congr (congr (congrArg Instr.remuw (rdOf_encR ..)) (rs1Of_encR ..)) (rs2Of_encR ..))

theorem amoswapW (aq rl : Bool) (rd rs1 rs2 : Reg) : Statement (.amoswapW aq rl rd rs1 rs2) :=
  of_row 62 (by decide) ((encAmo_fixed ..).trans (by decide))
    (fun _ => congr (congr (congr (congr (congrArg Instr.amoswapW (aqOf_encAmo ..)) (rlOf_encAmo ..)) (rdOf_encAmo ..)) (rs1Of_encAmo ..)) (rs2Of_encAmo ..))

theorem amoaddW (aq rl : Bool) (rd rs1 rs2 : Reg) : Statement (.amoaddW aq rl rd rs1 rs2) :=
  of_row 63 (by decide) ((encAmo_fixed ..).trans (by decide))
    (fun _ => congr (congr (congr (congr (congrArg Instr.amoaddW (aqOf_encAmo ..)) (rlOf_encAmo ..)) (rdOf_encAmo ..)) (rs1Of_encAmo ..)) (rs2Of_encAmo ..))

theorem amoxorW (aq rl : Bool) (rd rs1 rs2 : Reg) : Statement (.amoxorW aq rl rd rs1 rs2) :=
  of_row 64 (by decide) ((encAmo_fixed ..).trans (by decide))
    (fun _ => congr (congr (congr (congr (congrArg Instr.amoxorW (aqOf_encAmo ..)) (rlOf_encAmo ..)) (rdOf_encAmo ..)) (rs1Of_encAmo ..)) (rs2Of_encAmo ..))

theorem amoandW (aq rl : Bool) (rd rs1 rs2 : Reg) : Statement (.amoandW aq rl rd rs1 rs2) :=
  of_row 65 (by decide) ((encAmo_fixed ..).trans (by decide))
    (fun _ => congr (congr (congr (congr (congrArg Instr.amoandW (aqOf_encAmo ..)) (rlOf_encAmo ..)) (rdOf_encAmo ..)) (rs1Of_encAmo ..)) (rs2Of_encAmo ..))

theorem amoorW (aq rl : Bool) (rd rs1 rs2 : Reg) : Statement (.amoorW aq rl rd rs1 rs2) :=
  of_row 66 (by decide) ((encAmo_fixed ..).trans (by decide))
    (fun _ => congr (congr (congr (congr (congrArg Instr.amoorW (aqOf_encAmo ..)) (rlOf_encAmo ..)) (rdOf_encAmo ..)) (rs1Of_encAmo ..)) (rs2Of_encAmo ..))

theorem amominW (aq rl : Bool) (rd rs1 rs2 : Reg) : Statement (.amominW aq rl rd rs1 rs2) :=
  of_row 67 (by decide) ((encAmo_fixed ..).trans (by decide))
    (fun _ => congr (congr (congr (congr (congrArg Instr.amominW (aqOf_encAmo ..)) (rlOf_encAmo ..)) (rdOf_encAmo ..)) (rs1Of_encAmo ..)) (rs2Of_encAmo ..))

theorem amomaxW (aq rl : Bool) (rd rs1 rs2 : Reg) : Statement (.amomaxW aq rl rd rs1 rs2) :=
  of_row 68 (by decide) ((encAmo_fixed ..).trans (by decide))
    (fun _ => congr (congr (congr (congr (congrArg Instr.amomaxW (aqOf_encAmo ..)) (rlOf_encAmo ..)) (rdOf_encAmo ..)) (rs1Of_encAmo ..)) (rs2Of_encAmo ..))

theorem amominuW (aq rl : Bool) (rd rs1 rs2 : Reg) : Statement (.amominuW aq rl rd rs1 rs2) :=
  of_row 69 (by decide) ((encAmo_fixed ..).trans (by decide))
    (fun _ => congr (congr (congr (congr (congrArg Instr.amominuW (aqOf_encAmo ..)) (rlOf_encAmo ..)) (rdOf_encAmo ..)) (rs1Of_encAmo ..)) (rs2Of_encAmo ..))

theorem amomaxuW (aq rl : Bool) (rd rs1 rs2 : Reg) : Statement (.amomaxuW aq rl rd rs1 rs2) :=
  of_row 70 (by decide) ((encAmo_fixed ..).trans (by decide))
    (fun _ => congr (congr (congr (congr (congrArg Instr.amomaxuW (aqOf_encAmo ..)) (rlOf_encAmo ..)) (rdOf_encAmo ..)) (rs1Of_encAmo ..)) (rs2Of_encAmo ..))

theorem amoswapD (aq rl : Bool) (rd rs1 rs2 : Reg) : Statement (.amoswapD aq rl rd rs1 rs2) :=
  of_row 71 (by decide) ((encAmo_fixed ..).trans (by decide))
    (fun _ => congr (congr (congr (congr (congrArg Instr.amoswapD (aqOf_encAmo ..)) (rlOf_encAmo ..)) (rdOf_encAmo ..)) (rs1Of_encAmo ..)) (rs2Of_encAmo ..))

theorem amoaddD (aq rl : Bool) (rd rs1 rs2 : Reg) : Statement (.amoaddD aq rl rd rs1 rs2) :=
  of_row 72 (by decide) ((encAmo_fixed ..).trans (by decide))
    (fun _ => congr (congr (congr (congr (congrArg Instr.amoaddD (aqOf_encAmo ..)) (rlOf_encAmo ..)) (rdOf_encAmo ..)) (rs1Of_encAmo ..)) (rs2Of_encAmo ..))

theorem amoxorD (aq rl : Bool) (rd rs1 rs2 : Reg) : Statement (.amoxorD aq rl rd rs1 rs2) :=
  of_row 73 (by decide) ((encAmo_fixed ..).trans (by decide))
    (fun _ => congr (congr (congr (congr (congrArg Instr.amoxorD (aqOf_encAmo ..)) (rlOf_encAmo ..)) (rdOf_encAmo ..)) (rs1Of_encAmo ..)) (rs2Of_encAmo ..))

theorem amoandD (aq rl : Bool) (rd rs1 rs2 : Reg) : Statement (.amoandD aq rl rd rs1 rs2) :=
  of_row 74 (by decide) ((encAmo_fixed ..).trans (by decide))
    (fun _ => congr (congr (congr (congr (congrArg Instr.amoandD (aqOf_encAmo ..)) (rlOf_encAmo ..)) (rdOf_encAmo ..)) (rs1Of_encAmo ..)) (rs2Of_encAmo ..))

theorem amoorD (aq rl : Bool) (rd rs1 rs2 : Reg) : Statement (.amoorD aq rl rd rs1 rs2) :=
  of_row 75 (by decide) ((encAmo_fixed ..).trans (by decide))
    (fun _ => congr (congr (congr (congr (congrArg Instr.amoorD (aqOf_encAmo ..)) (rlOf_encAmo ..)) (rdOf_encAmo ..)) (rs1Of_encAmo ..)) (rs2Of_encAmo ..))

theorem amominD (aq rl : Bool) (rd rs1 rs2 : Reg) : Statement (.amominD aq rl rd rs1 rs2) :=
  of_row 76 (by decide) ((encAmo_fixed ..).trans (by decide))
    (fun _ => congr (congr (congr (congr (congrArg Instr.amominD (aqOf_encAmo ..)) (rlOf_encAmo ..)) (rdOf_encAmo ..)) (rs1Of_encAmo ..)) (rs2Of_encAmo ..))

theorem amomaxD (aq rl : Bool) (rd rs1 rs2 : Reg) : Statement (.amomaxD aq rl rd rs1 rs2) :=
  of_row 77 (by decide) ((encAmo_fixed ..).trans (by decide))
    (fun _ => congr (congr (congr (congr (congrArg Instr.amomaxD (aqOf_encAmo ..)) (rlOf_encAmo ..)) (rdOf_encAmo ..)) (rs1Of_encAmo ..)) (rs2Of_encAmo ..))

theorem amominuD (aq rl : Bool) (rd rs1 rs2 : Reg) : Statement (.amominuD aq rl rd rs1 rs2) :=
  of_row 78 (by decide) ((encAmo_fixed ..).trans (by decide))
    (fun _ => congr (congr (congr (congr (congrArg Instr.amominuD (aqOf_encAmo ..)) (rlOf_encAmo ..)) (rdOf_encAmo ..)) (rs1Of_encAmo ..)) (rs2Of_encAmo ..))

theorem amomaxuD (aq rl : Bool) (rd rs1 rs2 : Reg) : Statement (.amomaxuD aq rl rd rs1 rs2) :=
  of_row 79 (by decide) ((encAmo_fixed ..).trans (by decide))
    (fun _ => congr (congr (congr (congr (congrArg Instr.amomaxuD (aqOf_encAmo ..)) (rlOf_encAmo ..)) (rdOf_encAmo ..)) (rs1Of_encAmo ..)) (rs2Of_encAmo ..))

theorem fence (fm pred succ : BitVec 4) (rs1 rd : Reg) : Statement (.fence fm pred succ rs1 rd) :=
  of_row 80 (by decide) ((encFence_fixed ..).trans (by decide))
    (fun _ => congr (congr (congr (congr (congrArg Instr.fence (fmOf_encFence ..)) (predOf_encFence ..)) (succOf_encFence ..)) (rs1Of_encFence ..)) (rdOf_encFence ..))

theorem ecall : Statement .ecall :=
  of_row 81 (by decide) (by decide) (fun _ => rfl)

theorem ebreak : Statement .ebreak :=
  of_row 82 (by decide) (by decide) (fun _ => rfl)

theorem sret : Statement .sret :=
  of_row 83 (by decide) (by decide) (fun _ => rfl)

theorem mret : Statement .mret :=
  of_row 84 (by decide) (by decide) (fun _ => rfl)

theorem sfenceVma (rs1 rs2 : Reg) : Statement (.sfenceVma rs1 rs2) :=
  of_row 85 (by decide) ((encSfence_fixed ..).trans (by decide))
    (fun _ => congr (congrArg Instr.sfenceVma (rs1Of_encSfence ..)) (rs2Of_encSfence ..))

theorem csrrw (rd : Reg) (csr : CsrNum) (rs1 : Reg) : Statement (.csrrw rd csr rs1) :=
  of_row 86 (by decide) ((encCsr_fixed ..).trans (by decide))
    (fun _ => congr (congr (congrArg Instr.csrrw (rdOf_encCsr ..)) (csrOf_encCsr ..)) (rs1Of_encCsr ..))

theorem csrrs (rd : Reg) (csr : CsrNum) (rs1 : Reg) : Statement (.csrrs rd csr rs1) :=
  of_row 87 (by decide) ((encCsr_fixed ..).trans (by decide))
    (fun _ => congr (congr (congrArg Instr.csrrs (rdOf_encCsr ..)) (csrOf_encCsr ..)) (rs1Of_encCsr ..))

theorem csrrc (rd : Reg) (csr : CsrNum) (rs1 : Reg) : Statement (.csrrc rd csr rs1) :=
  of_row 88 (by decide) ((encCsr_fixed ..).trans (by decide))
    (fun _ => congr (congr (congrArg Instr.csrrc (rdOf_encCsr ..)) (csrOf_encCsr ..)) (rs1Of_encCsr ..))

theorem csrrwi (rd : Reg) (csr : CsrNum) (uimm : BitVec 5) : Statement (.csrrwi rd csr uimm) :=
  of_row 89 (by decide) ((encCsrI_fixed ..).trans (by decide))
    (fun _ => congr (congr (congrArg Instr.csrrwi (rdOf_encCsrI ..)) (csrOf_encCsrI ..)) (uimmOf_encCsrI ..))

theorem csrrsi (rd : Reg) (csr : CsrNum) (uimm : BitVec 5) : Statement (.csrrsi rd csr uimm) :=
  of_row 90 (by decide) ((encCsrI_fixed ..).trans (by decide))
    (fun _ => congr (congr (congrArg Instr.csrrsi (rdOf_encCsrI ..)) (csrOf_encCsrI ..)) (uimmOf_encCsrI ..))

theorem csrrci (rd : Reg) (csr : CsrNum) (uimm : BitVec 5) : Statement (.csrrci rd csr uimm) :=
  of_row 91 (by decide) ((encCsrI_fixed ..).trans (by decide))
    (fun _ => congr (congr (congrArg Instr.csrrci (rdOf_encCsrI ..)) (csrOf_encCsrI ..)) (uimmOf_encCsrI ..))

end Sys2Proof.Laws.EncodedWordFits
end

