-- ==== Sys2Proof/Tests/Slice0.lean ====
section
/-! SUPPORT. The model's own tests: words written out from the spec's encodings, one-step vectors of 95_test_vectors.md, ill-formed
terms the check refuses, and for each statement of Obligations.lean with hypotheses a state and operands that meet them. -/

open Sys2Proof Sys2Proof.Machine

namespace Sys2Proof.Tests

set_option maxRecDepth 4000

/-! ## Helpers -/

/-- The state with registers, raw CSR slots and runs of bytes of RAM (address, count, value) put in. -/
def put (s : State) (xs : List (Reg × Word)) (cs : List (CsrNum × Word)) (ms : List (Nat × Nat × Word)) : State :=
  let t := ms.foldl (fun u m => { u with mem := Memory.writeBytes u.mem m.1 m.2.2 m.2.1 }) s
  let t := xs.foldl (fun u p => u.setReg p.1 p.2) t
  cs.foldl (fun u p => u.setCsr p.1 p.2) t

/-- The common start state of the vectors (V1), with what a vector adds. -/
def start (xs : List (Reg × Word)) (cs : List (CsrNum × Word)) (ms : List (Nat × Nat × Word)) : State := put State.reset xs cs ms

/-- The state after one step that fetches the word. -/
def after (w : Nat) (s : State) : State :=
  match step (s.withFetchWord 32 w) with
  | .next t => t
  | _ => s

/-- The step changes what is listed, the pc, the mode and the status, and nothing else of the whole state. -/
abbrev givesIn (md : Mode) (w : Nat) (s : State) (xs : List (Reg × Word)) (cs : List (CsrNum × Word)) (ms : List (Nat × Nat × Word))
    (pc : Word) (st : Status) : Prop :=
  after w s = { put (s.withFetchWord 32 w) xs cs ms with pc := pc, mode := md, status := st }

/-- The same in an unchanged mode. -/
abbrev gives (w : Nat) (s : State) (xs : List (Reg × Word)) (cs : List (CsrNum × Word)) (ms : List (Nat × Nat × Word))
    (pc : Word) (st : Status) : Prop := givesIn s.mode w s xs cs ms pc st

/-! ## Decoding: words written out from the formats (30_encoding.md) -/

theorem test_decode_loads_and_stores : ∀ p ∈ ([
    (0x00010183#32, .lb 3 2 0x0#12),
    (0x00110183#32, .lb 3 2 0x1#12),
    (0x00011183#32, .lh 3 2 0x0#12),
    (0x00111183#32, .lh 3 2 0x1#12),
    (0x00012183#32, .lw 3 2 0x0#12),
    (0xFFC12183#32, .lw 3 2 0xFFC#12),
    (0x00013183#32, .ld 3 2 0x0#12),
    (0x00313183#32, .ld 3 2 0x3#12),
    (0x00014183#32, .lbu 3 2 0x0#12),
    (0x00015183#32, .lhu 3 2 0x0#12),
    (0x00016183#32, .lwu 3 2 0x0#12),
    (0x00110023#32, .sb 2 1 0x0#12),
    (0x001110A3#32, .sh 2 1 0x1#12),
    (0x00112023#32, .sw 2 1 0x0#12),
    (0x00113023#32, .sd 2 1 0x0#12),
    (0xFE113C23#32, .sd 2 1 0xFF8#12)] : List (Word32 × Instr)), decodeWord p.1 = .ok p.2 := by decide

theorem test_decode_integer_alu : ∀ p ∈ ([
    (0xFFF08113#32, .addi 2 1 0xFFF#12),
    (0x7FF08113#32, .addi 2 1 0x7FF#12),
    (0x0000A113#32, .slti 2 1 0x0#12),
    (0xFFF0A113#32, .slti 2 1 0xFFF#12),
    (0xFFF0B113#32, .sltiu 2 1 0xFFF#12),
    (0x0010B113#32, .sltiu 2 1 0x1#12),
    (0xFFF0C113#32, .xori 2 1 0xFFF#12),
    (0x8000E113#32, .ori 2 1 0x800#12),
    (0x7F00F113#32, .andi 2 1 0x7F0#12),
    (0x03F09113#32, .slli 2 1 0x3F#6),
    (0x03F0D113#32, .srli 2 1 0x3F#6),
    (0x43F0D113#32, .srai 2 1 0x3F#6),
    (0x4040D113#32, .srai 2 1 0x4#6),
    (0x002081B3#32, .add 3 1 2),
    (0x402081B3#32, .sub 3 1 2),
    (0x002091B3#32, .sll 3 1 2),
    (0x0020A1B3#32, .slt 3 1 2),
    (0x0020B1B3#32, .sltu 3 1 2),
    (0x002031B3#32, .sltu 3 0 2),
    (0x0020C1B3#32, .xor 3 1 2),
    (0x0020D1B3#32, .srl 3 1 2),
    (0x4020D1B3#32, .sra 3 1 2),
    (0x0020E1B3#32, .or 3 1 2),
    (0x0020F1B3#32, .and 3 1 2)] : List (Word32 × Instr)), decodeWord p.1 = .ok p.2 := by decide

theorem test_decode_integer_alu_more : ∀ p ∈ ([
    (0x0010811B#32, .addiw 2 1 0x1#12),
    (0x0000811B#32, .addiw 2 1 0x0#12),
    (0x01F0911B#32, .slliw 2 1 0x1F#5),
    (0x0000D11B#32, .srliw 2 1 0x0#5),
    (0x0040D11B#32, .srliw 2 1 0x4#5),
    (0x4040D11B#32, .sraiw 2 1 0x4#5),
    (0x002081BB#32, .addw 3 1 2),
    (0x402081BB#32, .subw 3 1 2),
    (0x002091BB#32, .sllw 3 1 2),
    (0x0020D1BB#32, .srlw 3 1 2),
    (0x4020D1BB#32, .sraw 3 1 2)] : List (Word32 × Instr)), decodeWord p.1 = .ok p.2 := by decide

theorem test_decode_multiply_and_divide : ∀ p ∈ ([
    (0x022081B3#32, .mul 3 1 2),
    (0x022091B3#32, .mulh 3 1 2),
    (0x0220A1B3#32, .mulhsu 3 1 2),
    (0x0220B1B3#32, .mulhu 3 1 2),
    (0x0220C1B3#32, .div 3 1 2),
    (0x0220D1B3#32, .divu 3 1 2),
    (0x0220E1B3#32, .rem 3 1 2),
    (0x0220F1B3#32, .remu 3 1 2),
    (0x022081BB#32, .mulw 3 1 2),
    (0x0220C1BB#32, .divw 3 1 2),
    (0x0220D1BB#32, .divuw 3 1 2),
    (0x0220E1BB#32, .remw 3 1 2),
    (0x0220F1BB#32, .remuw 3 1 2)] : List (Word32 × Instr)), decodeWord p.1 = .ok p.2 := by decide

theorem test_decode_atomics : ∀ p ∈ ([
    (0x0820A1AF#32, .amoswapW false false 3 1 2),
    (0x0820A02F#32, .amoswapW false false 0 1 2),
    (0x0020A1AF#32, .amoaddW false false 3 1 2),
    (0x0010A0AF#32, .amoaddW false false 1 1 1),
    (0x2020A1AF#32, .amoxorW false false 3 1 2),
    (0x6020A1AF#32, .amoandW false false 3 1 2),
    (0x4020A1AF#32, .amoorW false false 3 1 2),
    (0x8020A1AF#32, .amominW false false 3 1 2),
    (0xA020A1AF#32, .amomaxW false false 3 1 2),
    (0xC020A1AF#32, .amominuW false false 3 1 2),
    (0xE020A1AF#32, .amomaxuW false false 3 1 2),
    (0x0820B1AF#32, .amoswapD false false 3 1 2),
    (0x0020B1AF#32, .amoaddD false false 3 1 2),
    (0x2020B1AF#32, .amoxorD false false 3 1 2),
    (0x6020B1AF#32, .amoandD false false 3 1 2),
    (0x4020B1AF#32, .amoorD false false 3 1 2),
    (0x8020B1AF#32, .amominD false false 3 1 2),
    (0xA020B1AF#32, .amomaxD false false 3 1 2),
    (0xC020B1AF#32, .amominuD false false 3 1 2),
    (0xE020B1AF#32, .amomaxuD false false 3 1 2),
    (0x0620A1AF#32, .amoaddW true true 3 1 2)] : List (Word32 × Instr)), decodeWord p.1 = .ok p.2 := by decide

theorem test_decode_control_transfer : ∀ p ∈ ([
    (0x00208463#32, .beq 1 2 0x8#13),
    (0x7E000FE3#32, .beq 0 0 0xFFE#13),
    (0xFE209EE3#32, .bne 1 2 0x1FFC#13),
    (0x0020C863#32, .blt 1 2 0x10#13),
    (0x0020D863#32, .bge 1 2 0x10#13),
    (0x0020E863#32, .bltu 1 2 0x10#13),
    (0x0020F863#32, .bgeu 1 2 0x10#13),
    (0x8020F063#32, .bgeu 1 2 0x1000#13),
    (0x100000EF#32, .jal 1 0x100#21),
    (0x8000006F#32, .jal 0 0x100000#21),
    (0x003280E7#32, .jalr 1 5 0x3#12),
    (0x000282E7#32, .jalr 5 5 0x0#12)] : List (Word32 × Instr)), decodeWord p.1 = .ok p.2 := by decide

theorem test_decode_upper_immediates : ∀ p ∈ ([
    (0xFFFFF2B7#32, .lui 5 0xFFFFF#20),
    (0x800002B7#32, .lui 5 0x80000#20),
    (0x00001317#32, .auipc 6 0x1#20),
    (0xFFFFF317#32, .auipc 6 0xFFFFF#20)] : List (Word32 × Instr)), decodeWord p.1 = .ok p.2 := by decide

theorem test_decode_csrs_and_fences : ∀ p ∈ ([
    (0x12000073#32, .sfenceVma 0 0),
    (0x12208073#32, .sfenceVma 1 2),
    (0x340292F3#32, .csrrw 5 0x340#12 5),
    (0x30509073#32, .csrrw 0 0x305#12 1),
    (0x3000A073#32, .csrrs 0 0x300#12 1),
    (0x100021F3#32, .csrrs 3 0x100#12 0),
    (0x3000B173#32, .csrrc 2 0x300#12 1),
    (0x18005073#32, .csrrwi 0 0x180#12 0x0#5),
    (0x10016073#32, .csrrsi 0 0x100#12 0x2#5),
    (0x30047273#32, .csrrci 4 0x300#12 0x8#5),
    (0x0FF0000F#32, .fence 0x0#4 0xF#4 0xF#4 0 0)] : List (Word32 × Instr)), decodeWord p.1 = .ok p.2 := by decide

theorem test_decode_system : ∀ p ∈ ([
    (0x00000073#32, .ecall),
    (0x00100073#32, .ebreak),
    (0x10200073#32, .sret),
    (0x30200073#32, .mret)] : List (Word32 × Instr)), decodeWord p.1 = .ok p.2 := by decide

/-- All zeros, all ones and the compressed word of R195 fit no row (V18 T3, T3b). -/
theorem test_rejected_words_without_a_row : ∀ w ∈ [0x00000000#32, 0xFFFFFFFF#32, 0x00004501#32],
    decodeWord w = .error (.unknownEncoding w) := by
  intro w hw
  simp only [List.mem_cons, List.not_mem_nil, or_false] at hw
  rcases hw with rfl | rfl | rfl <;> rfl

/-- WFI, LR.W, FENCE.I and SLLIW with bit 25 set fit no row (R195, R196, V18 T3b). -/
theorem test_rejected_words_near_a_row : ∀ w ∈ [0x10500073#32, 0x1000A1AF#32, 0x0000100F#32, 0x0200909B#32],
    decodeWord w = .error (.unknownEncoding w) := by
  intro w hw
  simp only [List.mem_cons, List.not_mem_nil, or_false] at hw
  rcases hw with rfl | rfl | rfl | rfl <;> rfl

/-- The host's entry to the decoder numbers bits as the table does. -/
theorem test_decode_table_word :
    decodeTableWord 32 0x02A00093 = some (.addi 1 0 42#12) ∧ decodeTableWord 32 0x10500073 = none := ⟨by decide, rfl⟩

/-! ## Ill-formed terms the check refuses: the branch and jump offsets must be even -/

theorem test_illformed_jal : (Instr.jal 1 3#21).wf = false := by decide
theorem test_illformed_beq : (Instr.beq 1 2 3#13).wf = false := by decide
theorem test_illformed_bne : (Instr.bne 1 2 3#13).wf = false := by decide
theorem test_illformed_blt : (Instr.blt 1 2 3#13).wf = false := by decide
theorem test_illformed_bge : (Instr.bge 1 2 3#13).wf = false := by decide
theorem test_illformed_bltu : (Instr.bltu 1 2 3#13).wf = false := by decide
theorem test_illformed_bgeu : (Instr.bgeu 1 2 3#13).wf = false := by decide

/-! ## One step: the vectors of 95_test_vectors.md, each the whole state after it -/

/-! ### Loads and stores (95_test_vectors.md section 2.1) -/

theorem test_lb : gives 0x00010183 (start [(2, 0x80001000#64)] [] [(0x80001000, 1, 0x80#64)])
    [(3, 0xFFFFFFFFFFFFFF80#64)] [] [] 0x80000004#64 .running ∧
  gives 0x00110183 (start [(2, 0x80001000#64)] [] [(0x80001000, 2, 0x7F00#64)])
    [(3, 0x7F#64)] [] [] 0x80000004#64 .running := by decide

theorem test_lh : gives 0x00011183 (start [(2, 0x80001000#64)] [] [(0x80001000, 2, 0x8001#64)])
    [(3, 0xFFFFFFFFFFFF8001#64)] [] [] 0x80000004#64 .running ∧
  gives 0x00111183 (start [(2, 0x80001000#64)] [] [(0x80001000, 4, 0xFFFF00#64)])
    [(3, 0xFFFFFFFFFFFFFFFF#64)] [] [] 0x80000004#64 .running := by decide

theorem test_lw : gives 0x00012183 (start [(2, 0x80001000#64)] [] [(0x80001000, 4, 0x80000000#64)])
    [(3, 0xFFFFFFFF80000000#64)] [] [] 0x80000004#64 .running ∧
  gives 0xFFC12183 (start [(2, 0x80001004#64)] [] [(0x80001000, 4, 0x12345678#64)])
    [(3, 0x12345678#64)] [] [] 0x80000004#64 .running := by decide

theorem test_ld : gives 0x00013183 (start [(2, 0x80001000#64)] [] [(0x80001000, 8, 0x8877665544332211#64)])
    [(3, 0x8877665544332211#64)] [] [] 0x80000004#64 .running ∧
  gives 0x00313183 (start [(2, 0x80001000#64)] [] [(0x80001000, 8, 0x8877665544332211#64)])
    [(3, 0x8877665544#64)] [] [] 0x80000004#64 .running := by decide

theorem test_lbu : gives 0x00014183 (start [(2, 0x80001000#64)] [] [(0x80001000, 1, 0x80#64)])
    [(3, 0x80#64)] [] [] 0x80000004#64 .running := by decide

theorem test_lhu : gives 0x00015183 (start [(2, 0x80001000#64)] [] [(0x80001000, 2, 0x8001#64)])
    [(3, 0x8001#64)] [] [] 0x80000004#64 .running := by decide

theorem test_lwu : gives 0x00016183 (start [(2, 0x80001000#64)] [] [(0x80001000, 4, 0x80000000#64)])
    [(3, 0x80000000#64)] [] [] 0x80000004#64 .running := by decide

theorem test_sb : gives 0x00110023 (start [(1, 0x1FF#64), (2, 0x80001000#64)] [] [(0x80001000, 4, 0x0#64)])
    [] [] [(0x80001000, 4, 0xFF#64)] 0x80000004#64 .running := by decide

theorem test_sh : gives 0x001110A3 (start [(1, 0xABCD#64), (2, 0x80001000#64)] [] [(0x80001000, 4, 0x0#64)])
    [] [] [(0x80001000, 4, 0xABCD00#64)] 0x80000004#64 .running := by decide

theorem test_sw : gives 0x00112023 (start [(1, 0x1122334455667788#64), (2, 0x80001000#64)] [] [(0x80001000, 8, 0x0#64)])
    [] [] [(0x80001000, 8, 0x55667788#64)] 0x80000004#64 .running ∧
  gives 0x00112023 (start [(1, 0x1#64), (2, 0x70000000#64)] [(0x305#12, 0x80000100#64)] [])
    [] [(0x341#12, 0x80000000#64), (0x342#12, 0x7#64)] [] 0x80000100#64 (.halted .storeAmoAccessFault) := by decide

theorem test_sd : gives 0x00113023 (start [(1, 0x102030405060708#64), (2, 0x80001000#64)] [] [(0x80001000, 8, 0x0#64)])
    [] [] [(0x80001000, 8, 0x102030405060708#64)] 0x80000004#64 .running ∧
  gives 0xFE113C23 (start [(1, 0xDEADBEEF#64), (2, 0x80001008#64)] [] [(0x80001000, 8, 0x0#64)])
    [] [] [(0x80001000, 8, 0xDEADBEEF#64)] 0x80000004#64 .running := by decide

/-! ### Integer ALU (95_test_vectors.md section 2.2) -/

theorem test_addi : gives 0xFFF08113 (start [(1, 0x0#64)] [] [])
    [(2, 0xFFFFFFFFFFFFFFFF#64)] [] [] 0x80000004#64 .running ∧
  gives 0x7FF08113 (start [(1, 0x7FFFFFFFFFFFFFFF#64)] [] [])
    [(2, 0x80000000000007FE#64)] [] [] 0x80000004#64 .running := by decide

theorem test_slti : gives 0x0000A113 (start [(1, 0xFFFFFFFFFFFFFFFF#64)] [] [])
    [(2, 0x1#64)] [] [] 0x80000004#64 .running ∧
  gives 0xFFF0A113 (start [(1, 0x0#64)] [] [])
    [(2, 0x0#64)] [] [] 0x80000004#64 .running := by decide

theorem test_sltiu : gives 0xFFF0B113 (start [(1, 0x7FFFFFFFFFFFFFFF#64)] [] [])
    [(2, 0x1#64)] [] [] 0x80000004#64 .running ∧
  gives 0x0010B113 (start [(1, 0x0#64)] [] [])
    [(2, 0x1#64)] [] [] 0x80000004#64 .running := by decide

theorem test_xori : gives 0xFFF0C113 (start [(1, 0xFF#64)] [] [])
    [(2, 0xFFFFFFFFFFFFFF00#64)] [] [] 0x80000004#64 .running := by decide

theorem test_ori : gives 0x8000E113 (start [(1, 0x1#64)] [] [])
    [(2, 0xFFFFFFFFFFFFF801#64)] [] [] 0x80000004#64 .running := by decide

theorem test_andi : gives 0x7F00F113 (start [(1, 0xFFFFFFFFFFFFFFFF#64)] [] [])
    [(2, 0x7F0#64)] [] [] 0x80000004#64 .running := by decide

theorem test_slli : gives 0x03F09113 (start [(1, 0x3#64)] [] [])
    [(2, 0x8000000000000000#64)] [] [] 0x80000004#64 .running := by decide

theorem test_srli : gives 0x03F0D113 (start [(1, 0xFFFFFFFFFFFFFFFF#64)] [] [])
    [(2, 0x1#64)] [] [] 0x80000004#64 .running := by decide

theorem test_srai : gives 0x43F0D113 (start [(1, 0x8000000000000000#64)] [] [])
    [(2, 0xFFFFFFFFFFFFFFFF#64)] [] [] 0x80000004#64 .running ∧
  gives 0x4040D113 (start [(1, 0xFFFFFFFFFFFFFF00#64)] [] [])
    [(2, 0xFFFFFFFFFFFFFFF0#64)] [] [] 0x80000004#64 .running := by decide

theorem test_add : gives 0x002081B3 (start [(1, 0xFFFFFFFFFFFFFFFF#64), (2, 0x1#64)] [] [])
    [(3, 0x0#64)] [] [] 0x80000004#64 .running := by decide

theorem test_sub : gives 0x402081B3 (start [(1, 0x0#64), (2, 0x1#64)] [] [])
    [(3, 0xFFFFFFFFFFFFFFFF#64)] [] [] 0x80000004#64 .running := by decide

theorem test_sll : gives 0x002091B3 (start [(1, 0x1#64), (2, 0x41#64)] [] [])
    [(3, 0x2#64)] [] [] 0x80000004#64 .running := by decide

theorem test_slt : gives 0x0020A1B3 (start [(1, 0x8000000000000000#64), (2, 0x7FFFFFFFFFFFFFFF#64)] [] [])
    [(3, 0x1#64)] [] [] 0x80000004#64 .running := by decide

theorem test_sltu : gives 0x0020B1B3 (start [(1, 0x8000000000000000#64), (2, 0x7FFFFFFFFFFFFFFF#64)] [] [])
    [(3, 0x0#64)] [] [] 0x80000004#64 .running ∧
  gives 0x002031B3 (start [(2, 0x5#64)] [] [])
    [(3, 0x1#64)] [] [] 0x80000004#64 .running := by decide

theorem test_xor : gives 0x0020C1B3 (start [(1, 0xF0F0#64), (2, 0xFF00#64)] [] [])
    [(3, 0xFF0#64)] [] [] 0x80000004#64 .running := by decide

theorem test_srl : gives 0x0020D1B3 (start [(1, 0x8000000000000000#64), (2, 0x3F#64)] [] [])
    [(3, 0x1#64)] [] [] 0x80000004#64 .running := by decide

theorem test_sra : gives 0x4020D1B3 (start [(1, 0x8000000000000000#64), (2, 0x7F#64)] [] [])
    [(3, 0xFFFFFFFFFFFFFFFF#64)] [] [] 0x80000004#64 .running := by decide

theorem test_or : gives 0x0020E1B3 (start [(1, 0xF0#64), (2, 0xF#64)] [] [])
    [(3, 0xFF#64)] [] [] 0x80000004#64 .running := by decide

theorem test_and : gives 0x0020F1B3 (start [(1, 0xF0#64), (2, 0x3C#64)] [] [])
    [(3, 0x30#64)] [] [] 0x80000004#64 .running := by decide

theorem test_addiw : gives 0x0010811B (start [(1, 0x7FFFFFFF#64)] [] [])
    [(2, 0xFFFFFFFF80000000#64)] [] [] 0x80000004#64 .running ∧
  gives 0x0000811B (start [(1, 0x123456789ABCDEF0#64)] [] [])
    [(2, 0xFFFFFFFF9ABCDEF0#64)] [] [] 0x80000004#64 .running := by decide

theorem test_slliw : gives 0x01F0911B (start [(1, 0x1#64)] [] [])
    [(2, 0xFFFFFFFF80000000#64)] [] [] 0x80000004#64 .running := by decide

theorem test_srliw : gives 0x0000D11B (start [(1, 0xFFFFFFFF80000000#64)] [] [])
    [(2, 0xFFFFFFFF80000000#64)] [] [] 0x80000004#64 .running ∧
  gives 0x0040D11B (start [(1, 0xFFFFFFFF80000000#64)] [] [])
    [(2, 0x8000000#64)] [] [] 0x80000004#64 .running := by decide

theorem test_sraiw : gives 0x4040D11B (start [(1, 0x80000000#64)] [] [])
    [(2, 0xFFFFFFFFF8000000#64)] [] [] 0x80000004#64 .running := by decide

theorem test_addw : gives 0x002081BB (start [(1, 0xFFFFFFFF#64), (2, 0x1#64)] [] [])
    [(3, 0x0#64)] [] [] 0x80000004#64 .running := by decide

theorem test_subw : gives 0x402081BB (start [(1, 0x80000000#64), (2, 0x1#64)] [] [])
    [(3, 0x7FFFFFFF#64)] [] [] 0x80000004#64 .running := by decide

theorem test_sllw : gives 0x002091BB (start [(1, 0x1#64), (2, 0x3F#64)] [] [])
    [(3, 0xFFFFFFFF80000000#64)] [] [] 0x80000004#64 .running := by decide

theorem test_srlw : gives 0x0020D1BB (start [(1, 0x80000000#64), (2, 0x21#64)] [] [])
    [(3, 0x40000000#64)] [] [] 0x80000004#64 .running := by decide

theorem test_sraw : gives 0x4020D1BB (start [(1, 0x80000000#64), (2, 0x21#64)] [] [])
    [(3, 0xFFFFFFFFC0000000#64)] [] [] 0x80000004#64 .running := by decide

/-! ### Multiply and divide (95_test_vectors.md section 2.3) -/

theorem test_mul : gives 0x022081B3 (start [(1, 0xFFFFFFFFFFFFFFFF#64), (2, 0xFFFFFFFFFFFFFFFF#64)] [] [])
    [(3, 0x1#64)] [] [] 0x80000004#64 .running ∧
  gives 0x022081B3 (start [(1, 0x100000000#64), (2, 0x100000000#64)] [] [])
    [(3, 0x0#64)] [] [] 0x80000004#64 .running := by decide

theorem test_mulh : gives 0x022091B3 (start [(1, 0xFFFFFFFFFFFFFFFF#64), (2, 0xFFFFFFFFFFFFFFFF#64)] [] [])
    [(3, 0x0#64)] [] [] 0x80000004#64 .running ∧
  gives 0x022091B3 (start [(1, 0x8000000000000000#64), (2, 0xFFFFFFFFFFFFFFFF#64)] [] [])
    [(3, 0x0#64)] [] [] 0x80000004#64 .running := by decide

theorem test_mulhsu : gives 0x0220A1B3 (start [(1, 0xFFFFFFFFFFFFFFFF#64), (2, 0xFFFFFFFFFFFFFFFF#64)] [] [])
    [(3, 0xFFFFFFFFFFFFFFFF#64)] [] [] 0x80000004#64 .running ∧
  gives 0x0220A1B3 (start [(1, 0x2#64), (2, 0xFFFFFFFFFFFFFFFF#64)] [] [])
    [(3, 0x1#64)] [] [] 0x80000004#64 .running := by decide

theorem test_mulhu : gives 0x0220B1B3 (start [(1, 0xFFFFFFFFFFFFFFFF#64), (2, 0xFFFFFFFFFFFFFFFF#64)] [] [])
    [(3, 0xFFFFFFFFFFFFFFFE#64)] [] [] 0x80000004#64 .running ∧
  gives 0x0220B1B3 (start [(1, 0x100000000#64), (2, 0x100000000#64)] [] [])
    [(3, 0x1#64)] [] [] 0x80000004#64 .running := by decide

theorem test_div : gives 0x0220C1B3 (start [(1, 0xFFFFFFFFFFFFFFF9#64), (2, 0x2#64)] [] [])
    [(3, 0xFFFFFFFFFFFFFFFD#64)] [] [] 0x80000004#64 .running ∧
  gives 0x0220C1B3 (start [(1, 0x5#64), (2, 0x0#64)] [] [])
    [(3, 0xFFFFFFFFFFFFFFFF#64)] [] [] 0x80000004#64 .running := by decide

theorem test_divu : gives 0x0220D1B3 (start [(1, 0xFFFFFFFFFFFFFFF9#64), (2, 0x2#64)] [] [])
    [(3, 0x7FFFFFFFFFFFFFFC#64)] [] [] 0x80000004#64 .running ∧
  gives 0x0220D1B3 (start [(1, 0x5#64), (2, 0x0#64)] [] [])
    [(3, 0xFFFFFFFFFFFFFFFF#64)] [] [] 0x80000004#64 .running := by decide

theorem test_rem : gives 0x0220E1B3 (start [(1, 0xFFFFFFFFFFFFFFF9#64), (2, 0x2#64)] [] [])
    [(3, 0xFFFFFFFFFFFFFFFF#64)] [] [] 0x80000004#64 .running ∧
  gives 0x0220E1B3 (start [(1, 0xFFFFFFFFFFFFFFF9#64), (2, 0x0#64)] [] [])
    [(3, 0xFFFFFFFFFFFFFFF9#64)] [] [] 0x80000004#64 .running := by decide

theorem test_remu : gives 0x0220F1B3 (start [(1, 0xFFFFFFFFFFFFFFF9#64), (2, 0x2#64)] [] [])
    [(3, 0x1#64)] [] [] 0x80000004#64 .running ∧
  gives 0x0220F1B3 (start [(1, 0xFFFFFFFFFFFFFFF9#64), (2, 0x0#64)] [] [])
    [(3, 0xFFFFFFFFFFFFFFF9#64)] [] [] 0x80000004#64 .running := by decide

theorem test_mulw : gives 0x022081BB (start [(1, 0x10000#64), (2, 0x8000#64)] [] [])
    [(3, 0xFFFFFFFF80000000#64)] [] [] 0x80000004#64 .running ∧
  gives 0x022081BB (start [(1, 0x1234500000003#64), (2, 0x7#64)] [] [])
    [(3, 0x15#64)] [] [] 0x80000004#64 .running := by decide

theorem test_divw : gives 0x0220C1BB (start [(1, 0x80000000#64), (2, 0xFFFFFFFFFFFFFFFF#64)] [] [])
    [(3, 0xFFFFFFFF80000000#64)] [] [] 0x80000004#64 .running ∧
  gives 0x0220C1BB (start [(1, 0xFFFFFFFFFFFFFFF9#64), (2, 0x0#64)] [] [])
    [(3, 0xFFFFFFFFFFFFFFFF#64)] [] [] 0x80000004#64 .running := by decide

theorem test_divuw : gives 0x0220D1BB (start [(1, 0xFFFFFFFF#64), (2, 0x2#64)] [] [])
    [(3, 0x7FFFFFFF#64)] [] [] 0x80000004#64 .running ∧
  gives 0x0220D1BB (start [(1, 0x5#64), (2, 0x100000000#64)] [] [])
    [(3, 0xFFFFFFFFFFFFFFFF#64)] [] [] 0x80000004#64 .running := by decide

theorem test_remw : gives 0x0220E1BB (start [(1, 0x80000000#64), (2, 0xFFFFFFFFFFFFFFFF#64)] [] [])
    [(3, 0x0#64)] [] [] 0x80000004#64 .running ∧
  gives 0x0220E1BB (start [(1, 0x180000000#64), (2, 0x0#64)] [] [])
    [(3, 0xFFFFFFFF80000000#64)] [] [] 0x80000004#64 .running := by decide

theorem test_remuw : gives 0x0220F1BB (start [(1, 0xFFFFFFFF#64), (2, 0x0#64)] [] [])
    [(3, 0xFFFFFFFFFFFFFFFF#64)] [] [] 0x80000004#64 .running ∧
  gives 0x0220F1BB (start [(1, 0x7#64), (2, 0x3#64)] [] [])
    [(3, 0x1#64)] [] [] 0x80000004#64 .running := by decide

/-! ### Atomics (95_test_vectors.md section 2.4) -/

theorem test_amoswapW : gives 0x0820A1AF (start [(1, 0x80002000#64), (2, 0x7#64)] [] [(0x80002000, 4, 0x5#64)])
    [(3, 0x5#64)] [] [(0x80002000, 4, 0x7#64)] 0x80000004#64 .running ∧
  gives 0x0820A1AF (start [(1, 0x80002000#64), (2, 0x1234567800000001#64)] [] [(0x80002000, 4, 0x80000000#64)])
    [(3, 0xFFFFFFFF80000000#64)] [] [(0x80002000, 4, 0x1#64)] 0x80000004#64 .running := by decide

theorem test_amoaddW : gives 0x0020A1AF (start [(1, 0x80002000#64), (2, 0x7#64)] [] [(0x80002000, 4, 0x5#64)])
    [(3, 0x5#64)] [] [(0x80002000, 4, 0xC#64)] 0x80000004#64 .running ∧
  gives 0x0020A1AF (start [(1, 0x80002000#64), (2, 0x1#64)] [] [(0x80002000, 4, 0x7FFFFFFF#64)])
    [(3, 0x7FFFFFFF#64)] [] [(0x80002000, 4, 0x80000000#64)] 0x80000004#64 .running := by decide

theorem test_amoxorW : gives 0x2020A1AF (start [(1, 0x80002000#64), (2, 0xFF#64)] [] [(0x80002000, 4, 0xF0#64)])
    [(3, 0xF0#64)] [] [(0x80002000, 4, 0xF#64)] 0x80000004#64 .running := by decide

theorem test_amoandW : gives 0x6020A1AF (start [(1, 0x80002000#64), (2, 0x3C#64)] [] [(0x80002000, 4, 0xF0#64)])
    [(3, 0xF0#64)] [] [(0x80002000, 4, 0x30#64)] 0x80000004#64 .running := by decide

theorem test_amoorW : gives 0x4020A1AF (start [(1, 0x80002000#64), (2, 0xF#64)] [] [(0x80002000, 4, 0xF0#64)])
    [(3, 0xF0#64)] [] [(0x80002000, 4, 0xFF#64)] 0x80000004#64 .running := by decide

theorem test_amominW : gives 0x8020A1AF (start [(1, 0x80002000#64), (2, 0x1#64)] [] [(0x80002000, 4, 0xFFFFFFFF#64)])
    [(3, 0xFFFFFFFFFFFFFFFF#64)] [] [] 0x80000004#64 .running := by decide

theorem test_amomaxW : gives 0xA020A1AF (start [(1, 0x80002000#64), (2, 0x1#64)] [] [(0x80002000, 4, 0xFFFFFFFF#64)])
    [(3, 0xFFFFFFFFFFFFFFFF#64)] [] [(0x80002000, 4, 0x1#64)] 0x80000004#64 .running := by decide

theorem test_amominuW : gives 0xC020A1AF (start [(1, 0x80002000#64), (2, 0x1#64)] [] [(0x80002000, 4, 0xFFFFFFFF#64)])
    [(3, 0xFFFFFFFFFFFFFFFF#64)] [] [(0x80002000, 4, 0x1#64)] 0x80000004#64 .running := by decide

theorem test_amomaxuW : gives 0xE020A1AF (start [(1, 0x80002000#64), (2, 0x1#64)] [] [(0x80002000, 4, 0xFFFFFFFF#64)])
    [(3, 0xFFFFFFFFFFFFFFFF#64)] [] [] 0x80000004#64 .running := by decide

theorem test_amoswapD : gives 0x0820B1AF (start [(1, 0x80002000#64), (2, 0x7#64)] [] [(0x80002000, 8, 0x5#64)])
    [(3, 0x5#64)] [] [(0x80002000, 8, 0x7#64)] 0x80000004#64 .running := by decide

theorem test_amoaddD : gives 0x0020B1AF (start [(1, 0x80002000#64), (2, 0x1#64)] [] [(0x80002000, 8, 0xFFFFFFFFFFFFFFFF#64)])
    [(3, 0xFFFFFFFFFFFFFFFF#64)] [] [(0x80002000, 8, 0x0#64)] 0x80000004#64 .running ∧
  gives 0x0020B1AF (start [(1, 0x80002004#64), (2, 0x1#64)] [(0x305#12, 0x80000100#64)] [(0x80002000, 8, 0x0#64)])
    [] [(0x341#12, 0x80000000#64), (0x342#12, 0x4#64)] [] 0x80000100#64 .running := by decide

theorem test_amoxorD : gives 0x2020B1AF (start [(1, 0x80002000#64), (2, 0xFF#64)] [] [(0x80002000, 8, 0xF0#64)])
    [(3, 0xF0#64)] [] [(0x80002000, 8, 0xF#64)] 0x80000004#64 .running := by decide

theorem test_amoandD : gives 0x6020B1AF (start [(1, 0x80002000#64), (2, 0x3C#64)] [] [(0x80002000, 8, 0xF0#64)])
    [(3, 0xF0#64)] [] [(0x80002000, 8, 0x30#64)] 0x80000004#64 .running := by decide

theorem test_amoorD : gives 0x4020B1AF (start [(1, 0x80002000#64), (2, 0xF#64)] [] [(0x80002000, 8, 0xF0#64)])
    [(3, 0xF0#64)] [] [(0x80002000, 8, 0xFF#64)] 0x80000004#64 .running := by decide

theorem test_amominD : gives 0x8020B1AF (start [(1, 0x80002000#64), (2, 0x1#64)] [] [(0x80002000, 8, 0x8000000000000000#64)])
    [(3, 0x8000000000000000#64)] [] [] 0x80000004#64 .running := by decide

theorem test_amomaxD : gives 0xA020B1AF (start [(1, 0x80002000#64), (2, 0x1#64)] [] [(0x80002000, 8, 0x8000000000000000#64)])
    [(3, 0x8000000000000000#64)] [] [(0x80002000, 8, 0x1#64)] 0x80000004#64 .running := by decide

theorem test_amominuD : gives 0xC020B1AF (start [(1, 0x80002000#64), (2, 0x1#64)] [] [(0x80002000, 8, 0x8000000000000000#64)])
    [(3, 0x8000000000000000#64)] [] [(0x80002000, 8, 0x1#64)] 0x80000004#64 .running := by decide

theorem test_amomaxuD : gives 0xE020B1AF (start [(1, 0x80002000#64), (2, 0x1#64)] [] [(0x80002000, 8, 0x8000000000000000#64)])
    [(3, 0x8000000000000000#64)] [] [] 0x80000004#64 .running := by decide

/-! ### Control transfer (95_test_vectors.md section 2.5) -/

theorem test_beq : gives 0x00208463 (start [(1, 0x3#64), (2, 0x3#64)] [] [])
    [] [] [] 0x80000008#64 .running ∧
  gives 0x00208463 (start [(1, 0x3#64), (2, 0x4#64)] [] [])
    [] [] [] 0x80000004#64 .running := by decide

theorem test_bne : gives 0xFE209EE3 ((start [(1, 0x3#64), (2, 0x4#64)] [] []).setPc 0x80000010#64)
    [] [] [] 0x8000000C#64 .running := by decide

theorem test_blt : gives 0x0020C863 (start [(1, 0xFFFFFFFFFFFFFFFF#64), (2, 0x0#64)] [] [])
    [] [] [] 0x80000010#64 .running ∧
  gives 0x0020C863 (start [(1, 0x0#64), (2, 0xFFFFFFFFFFFFFFFF#64)] [] [])
    [] [] [] 0x80000004#64 .running := by decide

theorem test_bge : gives 0x0020D863 (start [(1, 0x5#64), (2, 0x5#64)] [] [])
    [] [] [] 0x80000010#64 .running ∧
  gives 0x0020D863 (start [(1, 0xFFFFFFFFFFFFFFFF#64), (2, 0x0#64)] [] [])
    [] [] [] 0x80000004#64 .running := by decide

theorem test_bltu : gives 0x0020E863 (start [(1, 0x0#64), (2, 0xFFFFFFFFFFFFFFFF#64)] [] [])
    [] [] [] 0x80000010#64 .running := by decide

theorem test_bgeu : gives 0x0020F863 (start [(1, 0x0#64), (2, 0xFFFFFFFFFFFFFFFF#64)] [] [])
    [] [] [] 0x80000004#64 .running ∧
  gives 0x8020F063 ((start [(1, 0xFFFFFFFFFFFFFFFF#64), (2, 0x0#64)] [] []).setPc 0x80002000#64)
    [] [] [] 0x80001000#64 .running := by decide

theorem test_jal : gives 0x100000EF (start [] [] [])
    [(1, 0x80000004#64)] [] [] 0x80000100#64 .running ∧
  gives 0x8000006F ((start [] [] []).setPc 0x80100000#64)
    [] [] [] 0x80000000#64 .running := by decide

theorem test_jalr : gives 0x003280E7 (start [(5, 0x80001000#64)] [] [])
    [(1, 0x80000004#64)] [] [] 0x80001002#64 .running ∧
  gives 0x000282E7 (start [(5, 0x80001000#64)] [] [])
    [(5, 0x80000004#64)] [] [] 0x80001000#64 .running := by decide

/-! ### Upper immediates (95_test_vectors.md section 2.6) -/

theorem test_lui : gives 0xFFFFF2B7 (start [] [] [])
    [(5, 0xFFFFFFFFFFFFF000#64)] [] [] 0x80000004#64 .running ∧
  gives 0x800002B7 (start [] [] [])
    [(5, 0xFFFFFFFF80000000#64)] [] [] 0x80000004#64 .running := by decide

theorem test_auipc : gives 0x00001317 (start [] [] [])
    [(6, 0x80001000#64)] [] [] 0x80000004#64 .running ∧
  gives 0xFFFFF317 (start [] [] [])
    [(6, 0x7FFFF000#64)] [] [] 0x80000004#64 .running := by decide

/-! ### Fences and CSRs (95_test_vectors.md section 2.7) -/

theorem test_fence : gives 0x0000000F (start [] [] [])
    [] [] [] 0x80000004#64 .running := by decide

theorem test_sfenceVma : gives 0x12000073 (start [] [] [])
    [] [] [] 0x80000004#64 .running ∧
  gives 0x12208073 ((start [(1, 0x5#64), (2, 0x6#64)] [] []).setMode .u)
    [] [] [] 0x80000004#64 .running := by decide

theorem test_csrrw : gives 0x340292F3 (start [(5, 0x9#64)] [(0x340#12, 0x7#64)] [])
    [(5, 0x7#64)] [(0x340#12, 0x9#64)] [] 0x80000004#64 .running ∧
  gives 0x30509073 (start [(1, 0x80000101#64)] [] [])
    [] [(0x305#12, 0x80000101#64)] [] 0x80000004#64 .running := by decide

theorem test_csrrs : gives 0x3000A073 (start [(1, 0x8#64)] [] [])
    [] [(0x300#12, 0x8#64)] [] 0x80000004#64 .running ∧
  gives 0x100021F3 (start [] [(0x300#12, 0x8#64)] [])
    [(3, 0x0#64)] [] [] 0x80000004#64 .running := by decide

theorem test_csrrc : gives 0x3000B173 (start [(1, 0x8#64)] [(0x300#12, 0x88#64)] [])
    [(2, 0x88#64)] [(0x300#12, 0x80#64)] [] 0x80000004#64 .running := by decide

theorem test_csrrwi : gives 0x18005073 (start [] [(0x180#12, 0x9000000000080001#64)] [])
    [] [(0x180#12, 0x0#64)] [] 0x80000004#64 .running := by decide

theorem test_csrrsi : gives 0x10016073 (start [] [] [])
    [] [(0x300#12, 0x2#64)] [] 0x80000004#64 .running := by decide

theorem test_csrrci : gives 0x30047273 (start [] [(0x300#12, 0xA#64)] [])
    [(4, 0xA#64)] [(0x300#12, 0x2#64)] [] 0x80000004#64 .running := by decide

/-! ### System (95_test_vectors.md section 2.8) -/

theorem test_ecall : gives 0x00000073 (start [] [(0x305#12, 0x80000100#64)] [])
    [] [(0x341#12, 0x80000000#64), (0x342#12, 0xB#64)] [] 0x80000100#64 .running ∧
  givesIn .m 0x00000073 ((start [] [(0x305#12, 0x80000100#64)] []).setMode .s)
    [] [(0x341#12, 0x80000000#64), (0x342#12, 0x9#64)] [] 0x80000100#64 .running ∧
  givesIn .s 0x00000073 ((start [] [(0x302#12, 0x100#64), (0x105#12, 0x80003000#64)] []).setMode .u)
    [] [(0x141#12, 0x80000000#64), (0x142#12, 0x8#64)] [] 0x80003000#64 .running := by decide

theorem test_ebreak : gives 0x00100073 (start [] [(0x305#12, 0x80000100#64)] [])
    [] [(0x341#12, 0x80000000#64), (0x342#12, 0x3#64)] [] 0x80000100#64 .running ∧
  gives 0x00100073 (start [] [(0x305#12, 0x80000101#64)] [])
    [] [(0x341#12, 0x80000000#64), (0x342#12, 0x3#64)] [] 0x80000100#64 .running := by decide

theorem test_sret : gives 0x10200073 ((start [] [(0x141#12, 0x80002004#64), (0x300#12, 0x120#64)] []).setMode .s)
    [] [(0x300#12, 0x122#64)] [] 0x80002004#64 .running ∧
  givesIn .u 0x10200073 ((start [] [(0x141#12, 0x80002004#64), (0x300#12, 0x20#64)] []).setMode .s)
    [] [(0x300#12, 0x22#64)] [] 0x80002004#64 .running ∧
  givesIn .s 0x10200073 ((start [] [(0x141#12, 0x80002004#64), (0x300#12, 0x100#64)] []).setMode .u)
    [] [(0x300#12, 0x120#64)] [] 0x80002004#64 .running := by decide

theorem test_mret : givesIn .s 0x30200073 (start [] [(0x341#12, 0x80000400#64), (0x300#12, 0x880#64)] [])
    [] [(0x300#12, 0x88#64)] [] 0x80000400#64 .running ∧
  gives 0x30200073 (start [] [(0x341#12, 0x80000400#64), (0x300#12, 0x1800#64)] [])
    [] [(0x300#12, 0x80#64)] [] 0x80000400#64 .running ∧
  givesIn .u 0x30200073 ((start [] [(0x341#12, 0x80000400#64), (0x300#12, 0x80#64)] []).setMode .s)
    [] [(0x300#12, 0x88#64)] [] 0x80000400#64 .running := by decide

/-! ### More of section 2.7: writes of satp -/

theorem test_satp_turns_paging_on :
    after 0x18029073 (start [(5, 0x8000000000080001#64)] [] []) =
      { put ((start [(5, 0x8000000000080001#64)] [] []).withFetchWord 32 0x18029073) [] [(0x180#12, 0x8000000000080001#64)] [] with
        pc := 0x80000004#64, pagingOn := true, ptRoot := 0x80001000#64 } := by decide
theorem test_satp_mode_9_leaves_paging_off :
    (after 0x18029073 (start [(5, 0x9000000000080001#64)] [] [])).pagingOn = false := by decide

/-! ### Bus and devices (section 2.9) -/

/-- The start state of V15. -/
def bus (xs : List (Reg × Word)) : State := start xs [(0x305#12, 0x80000100#64)] []

/-- A halt of V15: an access fault taken to 0x8000_0100. -/
abbrev faults (w : Nat) (s : State) (cause : Word) (e : Exception) : Prop :=
  gives w s [] [(0x341#12, 0x80000000#64), (0x342#12, cause)] [] 0x80000100#64 (.halted e)

theorem test_clint_registers :
    after 0x00113023 (bus [(1, 0x1234#64), (2, 0x0200BFF8#64)]) =
      { (bus [(1, 0x1234#64), (2, 0x0200BFF8#64)]).withFetchWord 32 0x00113023 with
        pc := 0x80000004#64, clint := { mtime := 0x1234#64, mtimecmp := 0 } } ∧
    gives 0x00013183 { bus [(2, 0x02004000#64)] with clint := { mtime := 0, mtimecmp := 0x55#64 } }
      [(3, 0x55#64)] [] [] 0x80000004#64 .running ∧
    gives 0x00013183 (bus [(2, 0x02000000#64)]) [(3, 0#64)] [] [] 0x80000004#64 .running := by decide

theorem test_plic_registers :
    gives 0x00012183 { bus [(2, 0x0C201004#64)] with plic := { pending := 0, senable := 0, spriority := 0, sclaim := 10 } }
      [(3, 10#64)] [] [] 0x80000004#64 .running ∧
    gives 0x00012183 (bus [(2, 0x0C000000#64)]) [(3, 0#64)] [] [] 0x80000004#64 .running := by decide

theorem test_bus_failures :
    faults 0x00012183 (bus [(2, 0x0200BFF8#64)]) 5#64 .loadAccessFault ∧
    faults 0x00013183 (bus [(2, 0x0C201004#64)]) 5#64 .loadAccessFault ∧
    faults 0x00010183 (bus [(2, 0x10000100#64)]) 5#64 .loadAccessFault ∧
    faults 0x00010183 (bus [(2, 0x80800000#64)]) 5#64 .loadAccessFault ∧
    gives 0x00010183 (bus [(2, 0x807FFFFF#64)]) [(3, 0#64)] [] [] 0x80000004#64 .running := by decide

/-- A UART with a received byte waiting. -/
def received : Uart := { bytes := [(0, 0x41#8), (5, 0x21#8)], interrupting := false }

theorem test_uart_registers :
    after 0x00010183 { bus [(2, 0x10000000#64)] with uart := received } =
      { put ((bus [(2, 0x10000000#64)]).withFetchWord 32 0x00010183) [(3, 0x41#64)] [] [] with
        pc := 0x80000004#64, uart := { bytes := [(0, 0x41#8), (5, 0x20#8)], interrupting := false } } ∧
    after 0x00110023 (bus [(1, 0x48#64), (2, 0x10000000#64)]) =
      { (bus [(1, 0x48#64), (2, 0x10000000#64)]).withFetchWord 32 0x00110023 with pc := 0x80000004#64, uartOut := [0x48#8] } ∧
    after 0x00110023 (bus [(1, 0#64), (2, 0x10000005#64)]) =
      { (bus [(1, 0#64), (2, 0x10000005#64)]).withFetchWord 32 0x00110023 with
        pc := 0x80000004#64, uart := { bytes := [], interrupting := false } } := by decide

/-- A keyboard window below RAM that meets KBD_WINDOW's conditions. -/
def keys : KbdWindow := { window := { base := 0x10002000, size := 0x10 }, ok := by decide }

/-- R137: a 32-bit load of KBD_GET takes the queue's head; an empty queue reads 0. -/
theorem test_keyboard :
    (after 0x00012183 { bus [(2, 0x10002000#64)] with cfg := { kbdWindow := some keys }, kbdQueue := [0x1C#32, 0x9C#32] }).kbdQueue =
      [0x9C#32] ∧
    (after 0x00012183 { bus [(2, 0x10002000#64)] with cfg := { kbdWindow := some keys }, kbdQueue := [0x1C#32, 0x9C#32] }).reg 3 =
      0x1C#64 ∧
    (after 0x00012183 { bus [(2, 0x10002000#64)] with cfg := { kbdWindow := some keys } }).reg 3 = 0 := by decide

/-- R131: the hard-wired disk registers, at a layout R130 allows. -/
theorem test_disk_magic :
    (after 0x00012183 { bus [(2, 0x10001000#64)] with cfg := { diskLayout := some {} } }).reg 3 = 0x666F7864#64 ∧
    (after 0x00012183 { bus [(2, 0x10001004#64)] with cfg := { diskLayout := some {} } }).reg 3 = 1#64 := by decide

/-! ### Sv39 (section 2.10) -/

/-- The start state of V16 and V17: paging on with the root at 0x8000_2000. -/
def paged (xs : List (Reg × Word)) (ms : List (Nat × Nat × Word)) : State :=
  csrWrite (start xs [(0x305#12, 0x80000100#64)] ms) csrSatp 0x8000000000080002#64

/-- The one leaf of V16. -/
def leaf : List (Nat × Nat × Word) := [(0x80002010, 8, 0x2000000F#64)]

theorem test_page_faults :
    gives 0x00013183 (paged [(2, 0x40000000#64)] leaf) [] [(0x341#12, 0x80000000#64), (0x342#12, 0xD#64)] [] 0x80000100#64 .running ∧
    gives 0x00313023 (paged [(2, 0x40000000#64)] leaf) [] [(0x341#12, 0x80000000#64), (0x342#12, 0xF#64)] [] 0x80000100#64 .running ∧
    gives 0 ((paged [] leaf).setPc 0x40000000#64) [] [(0x341#12, 0x40000000#64), (0x342#12, 0xC#64)] [] 0x80000100#64 .running := by
  decide

theorem test_page_fault_of_an_amo :
    gives 0x0020A1AF (paged [(1, 0x40000000#64)] leaf) [] [(0x341#12, 0x80000000#64), (0x342#12, 0xD#64)] [] 0x80000100#64 .running := by
  decide

theorem test_write_without_read_is_invalid :
    gives 0x00013183 (paged [(2, 0x40000000#64)] ((0x80002008, 8, 0x20000005#64) :: leaf)) []
      [(0x341#12, 0x80000000#64), (0x342#12, 0xD#64)] [] 0x80000100#64 .running := by decide

/-- The tables of V17. -/
def tables : State := paged []
  [(0x80002010, 8, 0x20000C01#64), (0x80002018, 8, 0x2000000F#64), (0x80003000, 8, 0x20001001#64), (0x80003008, 8, 0x2008000F#64),
   (0x80004028, 8, 0x20001C03#64)]

/-- The translation's result as plain data. -/
def walked (s : State) (va : Word) (k : Access) : Option Word × Option Exception :=
  match translate va k s with
  | .ok pa => (some pa, none)
  | .error e => (none, some e)

theorem test_three_level_walk :
    walked tables 0x80005123#64 .load = (some 0x80007123#64, none) ∧
    walked tables 0x80212345#64 .load = (some 0x80212345#64, none) ∧
    walked tables 0xC0123456#64 .load = (some 0x80123456#64, none) := by decide

theorem test_three_level_faults :
    walked tables 0x80006000#64 .load = (none, some .loadPageFault) ∧
    walked tables 0xFFFFFFFF80005123#64 .load = (none, some .loadPageFault) ∧
    walked tables 0x80005123#64 .store = (some 0x80007123#64, none) := by decide

/-! ### Fetch and illegal instructions (section 2.11, V18) -/

theorem test_fetch_faults :
    gives 0 ((start [] [] []).setPc 0) [] [(0x342#12, 1#64)] [] 0#64 (.halted .instructionAccessFault) ∧
    gives 0x00000013 ((start [] [(0x305#12, 0x80000100#64)] []).setPc 0x80000002#64) []
      [(0x341#12, 0x80000002#64)] [] 0x80000100#64 (.halted .instructionAddressMisaligned) := by decide

theorem test_illegal_words :
    gives 0x00000000 (bus []) [] [(0x341#12, 0x80000000#64), (0x342#12, 2#64)] [] 0x80000100#64 .running ∧
    gives 0x10500073 (bus []) [] [(0x341#12, 0x80000000#64), (0x342#12, 2#64)] [] 0x80000100#64 .running ∧
    gives 0x0200909B (bus []) [] [(0x341#12, 0x80000000#64), (0x342#12, 2#64)] [] 0x80000100#64 .running := by decide

/-- MRET with MPP = 2 refuses and leaves everything else (R386). -/
theorem test_mret_reserved_mode :
    after 0x30200073 (start [] [(0x341#12, 0x80000400#64), (0x300#12, 0x1000#64)] []) =
      { (start [] [(0x341#12, 0x80000400#64), (0x300#12, 0x1000#64)] []).withFetchWord 32 0x30200073 with
        pc := 0x80000004#64, status := .refused .mretReservedMode } := by decide

/-! ### Interrupts (section 2.11, V19): one step of `addi x0, x0, 0` -/

/-- The start state of V19, in a mode. -/
def nop (md : Mode) (cs : List (CsrNum × Word)) : State := (start [] ((0x305#12, 0x80000100#64) :: cs) []).setMode md

theorem test_timer_interrupt_in_m :
    gives 0x13 (nop .m [(0x300#12, 8#64), (0x304#12, 0x80#64), (0x344#12, 0x80#64)]) []
      [(0x341#12, 0x80000004#64), (0x342#12, 0x8000000000000007#64), (0x300#12, 0x80#64), (0x344#12, 0#64)] [] 0x80000100#64 .running ∧
    gives 0x13 (start [] [(0x305#12, 0x80000101#64), (0x300#12, 8#64), (0x304#12, 0x80#64), (0x344#12, 0x80#64)] []) []
      [(0x341#12, 0x80000004#64), (0x342#12, 0x8000000000000007#64), (0x300#12, 0x80#64), (0x344#12, 0#64)] [] 0x8000011C#64 .running ∧
    gives 0x13 { nop .m [(0x300#12, 8#64), (0x304#12, 0x80#64), (0x344#12, 0x80#64)] with cfg := { intrEpc := .pcMinus4 } } []
      [(0x341#12, 0x80000000#64), (0x342#12, 0x8000000000000007#64), (0x300#12, 0x80#64), (0x344#12, 0#64)] [] 0x80000100#64 .running := by
  decide

theorem test_interrupt_enables :
    gives 0x13 (nop .m [(0x304#12, 0x80#64), (0x344#12, 0x80#64)]) [] [] [] 0x80000004#64 .running ∧
    gives 0x13 (nop .s [(0x304#12, 0x80#64), (0x344#12, 0x80#64)]) [] [] [] 0x80000004#64 .running ∧
    givesIn .m 0x13 (nop .u [(0x304#12, 0x80#64), (0x344#12, 0x80#64)]) []
      [(0x341#12, 0x80000004#64), (0x342#12, 0x8000000000000007#64), (0x344#12, 0#64)] [] 0x80000100#64 .running ∧
    givesIn .m 0x13 (nop .s [(0x300#12, 2#64), (0x304#12, 0x80#64), (0x344#12, 0x80#64)]) []
      [(0x341#12, 0x80000004#64), (0x342#12, 0x8000000000000007#64), (0x344#12, 0#64)] [] 0x80000100#64 .running := by decide

/-- T7 to T9: what is pending and enabled, the cause taken and mip after. -/
abbrev takes (pending cause mip : Word) : Prop :=
  gives 0x13 (nop .m [(0x300#12, 8#64), (0x302#12, 0x20#64), (0x304#12, pending), (0x344#12, pending)]) []
    [(0x341#12, 0x80000004#64), (0x342#12, cause), (0x300#12, 0x80#64), (0x344#12, mip)] [] 0x80000100#64 .running

theorem test_interrupt_priority :
    takes 0xAAA#64 0x800000000000000B#64 0x2AA#64 ∧ takes 0x2A2#64 0x8000000000000007#64 0x222#64 ∧
    takes 0x222#64 0x8000000000000009#64 0x22#64 ∧ takes 0x20#64 0x8000000000000005#64 0#64 := by decide

/-- V19's UART cases start with the flag set. -/
def ringing (md : Mode) (cs : List (CsrNum × Word)) : State :=
  { nop md cs with uart := { bytes := [(5, 0x20#8)], interrupting := true } }

/-- The PLIC after an IRQ. -/
def claimed (irq : Word32) : Plic := { pending := 0, senable := 0, spriority := 0, sclaim := irq }

theorem test_uart_interrupt :
    after 0x13 (ringing .u [(0x105#12, 0x80003000#64), (0x302#12, 0x200#64), (0x304#12, 0x200#64)]) =
      { put ((nop .u [(0x105#12, 0x80003000#64), (0x302#12, 0x200#64), (0x304#12, 0x200#64)]).withFetchWord 32 0x13) []
          [(0x141#12, 0x80000004#64), (0x142#12, 0x8000000000000009#64)] [] with
        pc := 0x80003000#64, mode := .s, plic := claimed 10 } ∧
    after 0x13 (ringing .u []) =
      { put ((nop .u []).withFetchWord 32 0x13) [] [(0x344#12, 0x200#64)] [] with pc := 0x80000004#64, plic := claimed 10 } ∧
    gives 0x13 (ringing .m []) [] [] [] 0x80000004#64 .running := by decide

theorem test_interrupt_delegation_csr :
    (after 0x13 { ringing .u [(0x105#12, 0x80003000#64), (0x302#12, 0x200#64), (0x304#12, 0x200#64)] with
      cfg := { intrDelegCsr := .mideleg } }).pc = 0x80000100#64 := by decide

/-- The clock of T11. -/
def timed (a b : Word) (cs : List (CsrNum × Word)) : State :=
  { nop .m cs with cfg := { timerCompare := true }, clint := { mtime := a, mtimecmp := b } }

theorem test_timer_compare :
    gives 0x13 (timed 10 10 [(0x300#12, 8#64), (0x304#12, 0x80#64)]) []
      [(0x341#12, 0x80000004#64), (0x342#12, 0x8000000000000007#64), (0x300#12, 0x80#64)] [] 0x80000100#64 .running ∧
    gives 0x13 (timed 9 10 [(0x344#12, 0x80#64)]) [] [(0x344#12, 0#64)] [] 0x80000004#64 .running := by decide

/-! ### The disk transfer (section 2.12, V20), from sector 0 of an image of six bytes -/

/-- An armed disk with a transfer of `len` bytes at 0x8000_1000. -/
def armed (dir len : Word32) (img : Option (List Byte)) : State :=
  { (start [] [] [(0x80001000, 8, 0x8877665544332211#64)]).setMode .u with
    diskBacking := img
    disk := { notify := 0, direction := dir, bufAddrHi := 0, bufAddrLo := 0x80001000#32, bufLenHi := 0, bufLenLo := len,
              sector := 0, done := 1 } }

/-- Six bytes of disk. -/
def image : List Byte := [0xD0#8, 0xD1#8, 0xD2#8, 0xD3#8, 0xD4#8, 0xD5#8]

/-- What every transfer that succeeds leaves beside its bytes. -/
def transferred (s : State) : State :=
  { s.setCsr csrMip 0x200#64 with pc := 0x80000004#64, plic := claimed 1, disk := { s.disk with notify := 0xFFFFFFFF#32, done := 0 } }

theorem test_disk_to_ram :
    after 0x13 (armed 0 4 (some image)) =
      put (transferred ((armed 0 4 (some image)).withFetchWord 32 0x13)) [] [] [(0x80001000, 4, 0xD3D2D1D0#64)] := by decide

theorem test_ram_to_disk :
    after 0x13 (armed 1 4 (some image)) =
      { transferred ((armed 1 4 (some image)).withFetchWord 32 0x13) with
        diskBacking := some [0x11#8, 0x22#8, 0x33#8, 0x44#8, 0xD4#8, 0xD5#8] } := by decide

theorem test_disk_errors :
    (after 0x13 (armed 0 7 (some image))).status = .hostError .sectorRange ∧
    (after 0x13 (armed 0 4 none)).status = .hostError .noDiskImage ∧
    (after 0x13 { armed 0 4 (some image) with
      disk := { (armed 0 4 none).disk with bufAddrLo := 0x807FFFFE#32 } }).status = .hostError .busFailure ∧
    (after 0x13 ((armed 0 4 (some image)).setMode .m)).disk.notify = 0 := by decide

/-! ### The host (sections 2.13 and R126, R138, R171) -/

/-- A step of `addi x0, x0, 0` with a schedule. -/
def visited (ps : List (List HostMove)) : State := after 0x13 { nop .m [] with hostSchedule := ps }

/-- The second byte waits, the scancode goes on, and the byte is still first at the next step's point. -/
theorem test_host_moves_inside_a_step :
    (visited [[.uartByte 0x41#8, .uartByte 0x42#8, .scancode 7#32], []]).hostSchedule = [[.uartByte 0x42#8]] ∧
    (visited [[.uartByte 0x41#8, .uartByte 0x42#8, .scancode 7#32], []]).kbdQueue = [7#32] ∧
    (visited [[.uartByte 0x41#8]]).uart = { bytes := [(0, 0x41#8), (5, 0x21#8)], interrupting := true } := by decide

/-- A byte let in inside a U-mode step is polled in that step, one let in after it is not. -/
theorem test_host_moves_at_the_two_points :
    (after 0x13 { nop .u [] with hostSchedule := [[.uartByte 0x41#8]] }).plic.sclaim = 10 ∧
    (after 0x13 { nop .u [] with hostSchedule := [[], [.uartByte 0x41#8]] }).plic.sclaim = 0 ∧
    (after 0x13 { nop .u [] with hostSchedule := [[], [.uartByte 0x41#8]] }).uart.interrupting = true := by decide

/-- R172: in the middle of a transfer of four bytes the host sees the first ones copied. -/
theorem test_host_sees_a_transfer :
    (ramViews ((armed 0 4 (some image)).withFetchWord 32 0x13)).map (fun m => m.readBytes 0x80001000 4) =
      [0x44332211#64, 0x44332211#64, 0x443322D0#64, 0x4433D1D0#64, 0x44D2D1D0#64, 0xD3D2D1D0#64] := by decide

theorem test_reset_of_a_kernel :
    newHart State.reset.cfg [0x93#8, 0x00#8, 0xA0#8, 0x02#8] none =
      { State.reset with mem := [(0x80000000, 0x93#8), (0x80000002, 0xA0#8), (0x80000003, 0x02#8)] } := by decide

/-! ## Witnesses: for each statement of Obligations.lean with hypotheses, states and operands that meet them, at the ends of their ranges.
A statement with no hypotheses has none. -/

/-- The fetch's word or its exception. -/
def fetched (s : State) : Option Word32 × Option Exception :=
  match fetch s with
  | .ok (w, _) => (some w, none)
  | .error e => (none, some e)

/-- A RAM state about to run ADD x3, x1, x2. -/
def adding : State := start [(1, 3#64), (2, 4#64)] [] [(0x80000000, 4, 0x002081B3#64)]

theorem witness_DecodeOfEncodeIsTheInstruction :
    (Instr.jal 31 0x1FFFFE#21).wf = true ∧ (Instr.bgeu 0 31 0x1000#13).wf = true ∧ (Instr.srai 1 2 63#6).wf = true := by decide

theorem witness_EncodeOfDecodeIsTheWord :
    decodeWord 0x0FF0000F#32 = .ok (.fence 0 15 15 0 0) ∧ decodeWord 0x8000006F#32 = .ok (.jal 0 0x100000#21) := by decide

theorem witness_StepRunsTheDecodedInstruction :
    adding.status = .running ∧ fetch adding = .ok (0x002081B3#32, adding) ∧ decodeWord 0x002081B3#32 = .ok (.add 3 1 2) :=
  ⟨by decide, rfl, by decide⟩

theorem witness_StepRunsTheDecodedInstruction_fetch :
    (adding.pagingOn = false ∧ adding.pc.toNat % 4 = 0 ∧ inRam adding.pc.toNat .word = true) ∧
    ((adding.setPc 0x807FFFFC#64).pagingOn = false ∧ (adding.setPc 0x807FFFFC#64).pc.toNat % 4 = 0 ∧
      inRam (adding.setPc 0x807FFFFC#64).pc.toNat .word = true) := by decide

theorem witness_UnknownWordTakesIllegalInstruction :
    State.reset.status = .running ∧ fetch State.reset = .ok (0#32, State.reset) ∧ ∀ r ∈ rows, 0#32 &&& r.mask ≠ r.pattern :=
  ⟨by decide, rfl, fun r hr => by
    have h : rows.all (fun q => 0#32 &&& q.mask != q.pattern) = true := rfl
    exact bne_iff_ne.mp (List.all_eq_true.mp h r hr)⟩

theorem witness_FetchFaultsAreTaken :
    (adding.setPc 0x80000002#64).status = .running ∧ (adding.setPc 0x80000002#64).pc.toNat % 4 ≠ 0 ∧
    ((paged [] []).setPc 0x40000000#64).pc.toNat % 4 = 0 ∧
    walked ((paged [] []).setPc 0x40000000#64) 0x40000000#64 .fetch = (none, some .instructionPageFault) ∧
    walked { paged [] [] with ptRoot := 0 } 0x40000000#64 .fetch = (none, some .instructionAccessFault) ∧
    walked (adding.setPc 0) 0 .fetch = (some 0, none) ∧ busLoad 0 .word (adding.setPc 0) = none := by decide

theorem witness_EveryStepAnswersANextState : ({ adding with status := .halted .loadAccessFault } : State).status ≠ .running := by decide

theorem witness_WritingTheValueReadChangesNothing : adding.Inv where
  x0 := rfl
  memWf := by decide
  memInRam := by decide
  csrsWf := by decide
  csrsIn := by decide
  views := by decide
  uartWf := by decide
  uartIn := by decide
  paging := by decide

theorem witness_StepKeepsTheInvariant : adding.Inv ∧ step adding = .next (after 0x002081B3 adding) :=
  ⟨witness_WritingTheValueReadChangesNothing, by rfl⟩

theorem witness_NewHartLoadsItsImages :
    (List.replicate 0x800000 (0x13#8 : Byte)).length ≤ 0x800000 ∧ 0x800000 < (List.replicate 0x800001 (0x13#8 : Byte)).length := by
  rw [List.length_replicate, List.length_replicate]; decide

/-- The state an instruction answers. -/
def ran (i : Instr) (s : State) : State :=
  match exec i s with
  | .next t => t
  | _ => s

/-- x1 names no region; MPP = 2. -/
def stuck : State := start [(1, 0x70000000#64)] [(0x300#12, 0x1000#64)] []

theorem witness_InstructionsStopOnlyForNamedReasons :
    exec (.add 3 1 2) adding = .next (ran (.add 3 1 2) adding) ∧ adding.status = .running ∧ (ran (.add 3 1 2) adding).status = .running ∧
    (ran (.lb 3 1 0) stuck).status = .halted .loadAccessFault ∧ (ran (.sb 1 3 0) stuck).status = .halted .storeAmoAccessFault ∧
    (ran .mret stuck).status = .refused .mretReservedMode := ⟨rfl, by decide⟩

/-- A U-mode state that delegates breakpoints and, under either choice, the timer interrupt. -/
def lent : State := nop .u [(0x302#12, 0x88#64), (0x303#12, 0x80#64), (0x105#12, 0x80003000#64)]

theorem witness_TrapEntryStatus :
    (takeTrap (.exception .breakpoint) 0x80000000#64 lent).mode = .s ∧
    (takeTrap (.exception .illegalInstruction) 0x80000000#64 lent).mode = .m := by decide

theorem witness_ReturnUndoesTheTrap :
    GoesToS (Trap.interrupt .mti).cause (Trap.interrupt .mti).isInterrupt lent ∧
    ¬ GoesToS (Trap.exception .illegalInstruction).cause (Trap.exception .illegalInstruction).isInterrupt lent := by
  unfold GoesToS; decide

theorem witness_MretReturns :
    (stuck.csr csrMstatus).extractLsb' 11 2 = 2#2 ∧ (adding.csr csrMstatus).extractLsb' 11 2 = 0#2 ∧
    ((nop .m [(0x300#12, 0x880#64)]).csr csrMstatus).extractLsb' 11 2 = 1#2 ∧
    ((nop .m [(0x300#12, 0x1800#64)]).csr csrMstatus).extractLsb' 11 2 = 3#2 := by decide

theorem witness_ViewsShowAndChangeTheirBits : 0 < 64 ∧ 63 < 64 := by decide

theorem witness_CsrWriteTouchesOneSlot :
    (0x340#12 ≠ csrSstatus ∧ 0x340#12 ≠ csrSie ∧ 0x340#12 ≠ csrSip ∧ 0x340#12 ≠ csrSatp ∧ 0x341#12 ≠ csrSlot 0x340#12) ∧
    csrMie ≠ csrSlot csrSstatus ∧ csrMip ≠ csrSlot csrSie ∧ csrMie ≠ csrSlot csrSip ∧ csrMepc ≠ csrSlot csrSatp := by decide

theorem witness_PagingCacheFollowsSatp :
    exec (.csrrw 0 0x340#12 1) adding = .next (ran (.csrrw 0 0x340#12 1) adding) ∧
    step adding = .next (after 0x002081B3 adding) ∧ fetch adding = .ok (0x002081B3#32, adding) ∧
    csrOperand (.csrrw 0 0x340#12 1) ≠ some csrSatp ∧ csrOperand (.add 3 1 2) ≠ some csrSatp ∧ 0x300#12 ≠ csrSatp :=
  ⟨rfl, rfl, rfl, by decide⟩

theorem witness_RamLoadIsLittleEndian :
    inRam (0x80000000#64).toNat .byte = true ∧ inRam (0x807FFFFF#64).toNat .byte = true ∧ inRam (0x807FFFFE#64).toNat .half = true ∧
    inRam (0x807FFFFC#64).toNat .word = true ∧ inRam (0x807FFFF8#64).toNat .double = true ∧ inRam (0x80000001#64).toNat .double = true := by
  decide

theorem witness_RamStoreWritesItsBytes : inRam (0x807FFFF8#64).toNat .double = true ∧ inRam (0x80000001#64).toNat .half = true := by decide

theorem witness_StoreThenLoadGivesTheValue :
    inRam (0x80000001#64).toNat .word = true ∧
    busStore 0x80000001#64 .word 0x99887766#64 State.reset = some { State.reset with
      mem := [(0x80000001, 0x66#8), (0x80000002, 0x77#8), (0x80000003, 0x88#8), (0x80000004, 0x99#8)] } := by decide

theorem witness_OnlyRhrAndKeyboardLoadsHaveEffects :
    (busLoad 0x80000000#64 .word adding).isSome = true ∧ (busLoad 0x10000000#64 .byte { adding with uart := received }).isSome = true ∧
    (busLoad 0x10002000#64 .word { adding with cfg := { kbdWindow := some keys }, kbdQueue := [7#32] }).isSome = true := by decide

theorem witness_UartLoads : (0 < 1 ∧ 1 < 256) ∧ 0 < 255 ∧ 255 < 256 := by decide

theorem witness_UartStores : (0 < 1 ∧ 1 < 256) ∧ 0 < 255 ∧ 255 < 256 := by decide

theorem witness_ClintPlicAndKeyboardRegisters :
    (0xBFF8 < 0x10000 ∧ 0xBFF8 = State.reset.cfg.clintLayout.mtime ∧ 0x4000 = State.reset.cfg.clintLayout.mtimecmp) ∧
    (0xFFFF < 0x10000 ∧ 0x3FFFFFF < 0x4000000 ∧ 0x201004 = State.reset.cfg.plicLayout.sclaim) ∧
    ({ adding with cfg := { kbdWindow := some keys } } : State).cfg.kbdWindow = some keys ∧ 0 < keys.window.size ∧
    0xF < keys.window.size := by decide

theorem witness_DiskLoads : (0 < 0x100 ∧ Width.byte ≠ .word) ∧ 0xFF < 0x100 ∧ Width.double ≠ .word := by decide

/-- A state with a known disk layout. -/
def laid : State := { adding with cfg := { diskLayout := some {} } }

/-- The offset past the layout's last register, and the last of the window, hold none. -/
theorem witness_DiskLoads_no_register :
    ∀ off ∈ [0x28, 0xFF], off < 0x100 ∧ off ∉ [laid.cfg.disk.magic, laid.cfg.disk.version, laid.cfg.disk.notify, laid.cfg.disk.direction,
      laid.cfg.disk.bufAddrHi, laid.cfg.disk.bufAddrLo, laid.cfg.disk.bufLenHi, laid.cfg.disk.bufLenLo, laid.cfg.disk.sector,
      laid.cfg.disk.done] := by decide

theorem witness_DiskStores : 0 < 0x100 ∧ 0xFF < 0x100 := by decide

theorem witness_TranslationFollowsTheTable :
    adding.pagingOn = false ∧ tables.pagingOn = true ∧
    (readPte (tables.ptRoot + BitVec.ofNat 64 ((0xC0123456#64).toNat / 2 ^ 30 % 512 * 8)) tables = some 0x2000000F#64 ∧
      (0x2000000F#64).getLsbD 0 = true ∧ ((0x2000000F#64).getLsbD 2 = true → (0x2000000F#64).getLsbD 1 = true) ∧
      ((0x2000000F#64).getLsbD 1 = true ∨ (0x2000000F#64).getLsbD 3 = true)) ∧
    (readPte (tables.ptRoot + BitVec.ofNat 64 ((0x80005123#64).toNat / 2 ^ 30 % 512 * 8)) tables = some 0x20000C01#64 ∧
      (0x20000C01#64).getLsbD 0 = true ∧ (0x20000C01#64).getLsbD 2 = false ∧ (0x20000C01#64).getLsbD 1 = false ∧
      (0x20000C01#64).getLsbD 3 = false) := by decide

theorem witness_TranslationFollowsTheTable_lower_levels :
    (readPte (BitVec.ofNat 64 ((0x20000C01#64).toNat / 2 ^ 10 % 2 ^ 44 * 4096 + (0x80212345#64).toNat / 2 ^ 21 % 512 * 8)) tables =
        some 0x2008000F#64 ∧ (0x2008000F#64).getLsbD 0 = true ∧ (0x2008000F#64).getLsbD 1 = true) ∧
    (readPte (BitVec.ofNat 64 ((0x20000C01#64).toNat / 2 ^ 10 % 2 ^ 44 * 4096 + (0x80005123#64).toNat / 2 ^ 21 % 512 * 8)) tables =
        some 0x20001001#64 ∧ (0x20001001#64).getLsbD 0 = true ∧ (0x20001001#64).getLsbD 2 = false ∧
      (0x20001001#64).getLsbD 1 = false ∧ (0x20001001#64).getLsbD 3 = false) ∧
    (readPte (BitVec.ofNat 64 ((0x20001001#64).toNat / 2 ^ 10 % 2 ^ 44 * 4096 + (0x80005123#64).toNat / 2 ^ 12 % 512 * 8)) tables =
        some 0x20001C03#64 ∧ (0x20001C03#64).getLsbD 0 = true ∧ (0x20001C03#64).getLsbD 2 = false ∧
      (0x20001C03#64).getLsbD 1 = true) := by decide

/-- X alone makes a leaf (R153). -/
theorem witness_TranslationFollowsTheTable_execute_only :
    readPte (0x80002000#64 + BitVec.ofNat 64 ((0x80000000#64).toNat / 2 ^ 30 % 512 * 8)) (paged [] [(0x80002010, 8, 0x20000009#64)]) =
        some 0x20000009#64 ∧ (0x20000009#64).getLsbD 0 = true ∧ (0x20000009#64).getLsbD 2 = false ∧ (0x20000009#64).getLsbD 1 = false ∧
      (0x20000009#64).getLsbD 3 = true ∧
      walked (paged [] [(0x80002010, 8, 0x20000009#64)]) 0x80000123#64 .load = (some 0x80000123#64, none) := by decide

theorem witness_TranslationFaults :
    readPte (0 + vpn 0x40000000#64 2 * 8) tables = none ∧ readPte (0x80002000#64 + vpn 0x40000000#64 2 * 8) tables = some 0#64 ∧
    ¬ ((0#64).getLsbD 0 = true ∧ ((0#64).getLsbD 2 = true → (0#64).getLsbD 1 = true)) ∧
    walked tables 0x40000000#64 .load = (none, some .loadPageFault) := by decide

theorem witness_TranslationFaults_three_pointers :
    readPte (0x80003000#64 + vpn 0#64 0 * 8) tables = some 0x20001001#64 ∧
    ((0x20001001#64).getLsbD 0 = true ∧ (0x20001001#64).getLsbD 1 = false ∧ (0x20001001#64).getLsbD 2 = false ∧
      (0x20001001#64).getLsbD 3 = false) := by decide

/-- A table chain with an unreadable table, an invalid entry and a pointer at each lower level. -/
def holes : State := paged []
  [(0x80002000, 8, 1#64), (0x80002010, 8, 0x20000C01#64), (0x80003000, 8, 0x20001001#64), (0x80003008, 8, 1#64),
   (0x80004000, 8, 0x20001001#64)]

theorem witness_TranslationFaults_of_translate :
    (readPte (({ holes with ptRoot := 0 } : State).ptRoot + BitVec.ofNat 64 ((0x80000000#64).toNat / 2 ^ 30 % 512 * 8))
        { holes with ptRoot := 0 } = none ∧ walked { holes with ptRoot := 0 } 0x80000000#64 .store = (none, some .storeAmoAccessFault)) ∧
    (readPte (holes.ptRoot + BitVec.ofNat 64 ((0x40000000#64).toNat / 2 ^ 30 % 512 * 8)) holes = some 0#64 ∧
      walked holes 0x40000000#64 .store = (none, some .storeAmoPageFault)) ∧
    (readPte (holes.ptRoot + BitVec.ofNat 64 ((0#64).toNat / 2 ^ 30 % 512 * 8)) holes = some 1#64 ∧
      readPte (BitVec.ofNat 64 ((1#64).toNat / 2 ^ 10 % 2 ^ 44 * 4096 + (0#64).toNat / 2 ^ 21 % 512 * 8)) holes = none ∧
      walked holes 0#64 .fetch = (none, some .instructionAccessFault)) := by decide

theorem witness_TranslationFaults_of_translate_lower_levels :
    readPte (holes.ptRoot + BitVec.ofNat 64 ((0x80400000#64).toNat / 2 ^ 30 % 512 * 8)) holes = some 0x20000C01#64 ∧
    (readPte (BitVec.ofNat 64 ((0x20000C01#64).toNat / 2 ^ 10 % 2 ^ 44 * 4096 + (0x80400000#64).toNat / 2 ^ 21 % 512 * 8)) holes =
        some 0#64 ∧ walked holes 0x80400000#64 .fetch = (none, some .instructionPageFault)) ∧
    (readPte (BitVec.ofNat 64 ((0x20000C01#64).toNat / 2 ^ 10 % 2 ^ 44 * 4096 + (0x80200000#64).toNat / 2 ^ 21 % 512 * 8)) holes =
        some 1#64 ∧
      readPte (BitVec.ofNat 64 ((1#64).toNat / 2 ^ 10 % 2 ^ 44 * 4096 + (0x80200000#64).toNat / 2 ^ 12 % 512 * 8)) holes = none ∧
      walked holes 0x80200000#64 .load = (none, some .loadAccessFault)) ∧
    (readPte (BitVec.ofNat 64 ((0x20001001#64).toNat / 2 ^ 10 % 2 ^ 44 * 4096 + (0x80001000#64).toNat / 2 ^ 12 % 512 * 8)) holes =
        some 0#64 ∧ walked holes 0x80001000#64 .load = (none, some .loadPageFault)) ∧
    (readPte (BitVec.ofNat 64 ((0x20001001#64).toNat / 2 ^ 10 % 2 ^ 44 * 4096 + (0x80000000#64).toNat / 2 ^ 12 % 512 * 8)) holes =
        some 0x20001001#64 ∧ walked holes 0x80000000#64 .load = (none, some .loadPageFault)) := by decide

theorem witness_TranslationIsBlind :
    tables.pagingOn = true ∧ (tables.setMode .u).pagingOn = true ∧ (tables.setMode .u).ptRoot = tables.ptRoot ∧
    (tables.setMode .u).mem = tables.mem ∧ (tables.setMode .u).clint = tables.clint ∧ (tables.setMode .u).cfg = tables.cfg ∧
    (0x80005123#64).toNat % 2 ^ 39 = (0xFFFFFF8080005123#64).toNat % 2 ^ 39 ∧
    walked tables 0x80005123#64 .load = (some 0x80007123#64, none) := by decide

/-- x2 at RAM, x1 at a hole. -/
def pointing : State := start [(1, 0x70000000#64), (2, 0x80001000#64)] [] [(0x80001000, 8, 0x8877665544332211#64)]

theorem witness_LoadResults :
    (walked pointing (pointing.reg 2 + (0#12).signExtend 64) .load = (some 0x80001000#64, none) ∧
      (busLoad 0x80001000#64 .double pointing).isSome = true) ∧
    (walked pointing (pointing.reg 1 + (0#12).signExtend 64) .load = (some 0x70000000#64, none) ∧
      busLoad 0x70000000#64 .double pointing = none) ∧
    walked (paged [(2, 0x40000000#64)] leaf) 0x40000000#64 .load = (none, some .loadPageFault) := by decide

theorem witness_StoreResults :
    (walked pointing (effectiveAddress pointing 2 0) .store = (some 0x80001000#64, none) ∧ inRam 0x80001000 .double = true ∧
      (busStore 0x80001000#64 .double 1 pointing).isSome = true) ∧
    (walked pointing (effectiveAddress pointing 1 0) .store = (some 0x70000000#64, none) ∧
      busStore 0x70000000#64 .double 1 pointing = none) ∧
    walked (paged [(2, 0x40000000#64)] leaf) (effectiveAddress (paged [(2, 0x40000000#64)] leaf) 2 0) .store =
      (none, some .storeAmoPageFault) := by decide

theorem witness_AmoResults :
    ((pointing.reg 2).toNat % Width.double.bytes = 0 ∧ walked pointing (pointing.reg 2) .load = (some 0x80001000#64, none) ∧
      (busLoad 0x80001000#64 .double pointing).isSome = true) ∧
    ((pointing.reg 1).toNat % Width.double.bytes = 0 ∧ walked pointing (pointing.reg 1) .load = (some 0x70000000#64, none) ∧
      busLoad 0x70000000#64 .double pointing = none) ∧
    walked (paged [(1, 0x40000000#64)] leaf) ((paged [(1, 0x40000000#64)] leaf).reg 1) .load = (none, some .loadPageFault) := by decide

theorem witness_MisalignedAmoTraps :
    amoOperand (.amoaddD false false 3 1 2) = some (1, .double) ∧
    ((start [(1, 0x80001004#64)] [] []).reg 1).toNat % Width.double.bytes ≠ 0 ∧
    amoOperand (.amoaddW false false 3 1 2) = some (1, .word) ∧
    ((start [(1, 0x80001003#64)] [] []).reg 1).toNat % Width.word.bytes ≠ 0 := by decide

theorem witness_RegisterAluResults : 3#64 = adding.reg 1 ∧ 4#64 = adding.reg 2 := by decide

theorem witness_ImmediateAluResults : 3#64 = adding.reg 1 ∧ 0xFFFFFFFFFFFFFFFF#64 = BitVec.ofInt 64 (0xFFF#12).toInt := by decide

theorem witness_WordAluResults : 3#64 = adding.reg 1 ∧ 4#64 = adding.reg 2 ∧ 3#32 = BitVec.ofNat 32 (3#64).toNat := by decide

theorem witness_MultiplyResults : 3#64 = adding.reg 1 ∧ 4#64 = adding.reg 2 := by decide

theorem witness_DivideResults :
    3#64 = adding.reg 1 ∧ 4#64 = adding.reg 2 ∧ 3#32 = BitVec.ofNat 32 (3#64).toNat ∧ 4#32 = BitVec.ofNat 32 (4#64).toNat := by decide

theorem witness_RemainderResults :
    3#64 = adding.reg 1 ∧ 4#64 = adding.reg 2 ∧ 3#32 = BitVec.ofNat 32 (3#64).toNat ∧ 4#32 = BitVec.ofNat 32 (4#64).toNat := by decide

theorem witness_HighMultiplyIdentities :
    1 = (0x100000002#64).toNat / 2 ^ 32 ∧ 2 = (0x100000002#64).toNat % 2 ^ 32 := by decide

theorem witness_BranchResults :
    3#64 = adding.reg 1 ∧ 4#64 = adding.reg 2 ∧ 0x7FFFFFF8#64 = BitVec.ofInt 64 ((adding.pc.toNat : Int) - 4 + (0x1FFC#13).toInt) := by decide

theorem witness_BlockedPoll :
    ((nop .m []).mode = .m ∧ ((nop .m []).csr csrMstatus).getLsbD 3 = false ∧ (nop .m []).cfg.timerCompare = false) ∧
    ((nop .s []).mode = .s ∧ ((nop .s []).csr csrMstatus).getLsbD 1 = false) ∧
    ((timed 1 2 []).mode = .m ∧ ((timed 1 2 []).csr csrMstatus).getLsbD 3 = false ∧ (timed 1 2 []).cfg.timerCompare = true) ∧
    ¬ (((nop .u []).mode = .m ∧ ((nop .u []).csr csrMstatus).getLsbD 3 = false) ∨
      ((nop .u []).mode = .s ∧ ((nop .u []).csr csrMstatus).getLsbD 1 = false)) := by decide

theorem witness_DeviceQueryAsksTheUartFirst :
    (ringing .u []).uart.interrupting = true ∧
    ((armed 0 4 (some image)).uart.interrupting = false ∧ (armed 0 4 (some image)).disk.notify ≠ 0xFFFFFFFF#32 ∧
      (dma (armed 0 4 (some image))).status = .running ∧ (dma (armed 0 4 none)).status ≠ .running) ∧
    (nop .u []).uart.interrupting = false ∧ (nop .u []).disk.notify = 0xFFFFFFFF#32 := by decide

/-- The interrupts of a state that are pending and enabled. -/
def due (s : State) (n : Nat) : Bool := (s.csr csrMie).getLsbD n && (s.csr csrMip).getLsbD n

/-- Everything up to a value pending and enabled. -/
def pend (v : Word) : State := nop .m [(0x304#12, v), (0x344#12, v)]

theorem witness_InterruptsAreTakenInOrder :
    (∀ n ∈ [11, 3, 7, 9, 1, 5], due (pend 0) n = false) ∧
    due (pend 0xAAA#64) 11 = true ∧
    (due (pend 0x2AA#64) 3 = true ∧ due (pend 0x2AA#64) 11 = false) ∧
    (due (pend 0x2A2#64) 7 = true ∧ due (pend 0x2A2#64) 11 = false ∧ due (pend 0x2A2#64) 3 = false) ∧
    (due (pend 0x222#64) 9 = true ∧ ∀ n ∈ [11, 3, 7], due (pend 0x222#64) n = false) ∧
    (due (pend 0x22#64) 1 = true ∧ ∀ n ∈ [11, 3, 7, 9], due (pend 0x22#64) n = false) ∧
    (due (pend 0x20#64) 5 = true ∧ ∀ n ∈ [11, 3, 7, 9, 1], due (pend 0x20#64) n = false) := by decide

/-- The same armed disk with its buffer at another address. -/
def buffered (dir addr : Word32) : State :=
  { armed dir 4 (some image) with disk := { (armed dir 4 none).disk with bufAddrLo := addr } }

theorem witness_DmaCopies :
    ∀ s ∈ [buffered 0 0x80000000#32, buffered 1 0x807FFFFC#32], s.diskBacking = some image ∧
      s.disk.sector.toNat * 512 + (s.disk.bufLenHi.toNat * 2 ^ 32 + s.disk.bufLenLo.toNat) ≤ image.length ∧
      0x80000000 ≤ s.disk.bufAddrHi.toNat * 2 ^ 32 + s.disk.bufAddrLo.toNat ∧
      s.disk.bufAddrHi.toNat * 2 ^ 32 + s.disk.bufAddrLo.toNat + (s.disk.bufLenHi.toNat * 2 ^ 32 + s.disk.bufLenLo.toNat) ≤ 0x80800000 := by
  decide

theorem witness_DmaCopies_directions : (buffered 0 0x80000000#32).disk.direction ≠ 1 ∧ (buffered 1 0x807FFFFC#32).disk.direction = 1 := by
  decide

theorem witness_DmaHostErrors :
    (armed 0 4 none).diskBacking = none ∧
    ((armed 0 7 (some image)).diskBacking = some image ∧ image.length < 0 * 512 + (0 * 2 ^ 32 + 7)) ∧
    (image.length ≥ 0 * 512 + (0 * 2 ^ 32 + 4) ∧
      busLoad ((buffered 0 0x80800000#32).disk.bufAddrHi ++ (buffered 0 0x80800000#32).disk.bufAddrLo) .byte
        (buffered 0 0x80800000#32) = none) := by decide

/-- The states a transfer passes through, each made from the one before it. -/
def passing (byte : Nat → State → Option State) (s : State) : Nat → State
  | 0 => s
  | k + 1 => (byte k (passing byte s k)).getD (passing byte s k)

/-- The states of a transfer of `armed`'s or `buffered`'s image, from notify being idle. -/
def sent (s : State) : Nat → State :=
  passing (transferStore image 0 (s.disk.bufAddrHi ++ s.disk.bufAddrLo)) { s with disk := { s.disk with notify := 0xFFFFFFFF#32 } }
/-- The same, to the disk. -/
def kept (s : State) : Nat → State :=
  passing (transferLoad 0 (s.disk.bufAddrHi ++ s.disk.bufAddrLo)) { s with disk := { s.disk with notify := 0xFFFFFFFF#32 } }

/-- Two bytes lie in RAM, the third does not; the other way, the first three bytes do. -/
theorem witness_DmaHostErrors_later_bytes :
    ((buffered 0 0x807FFFFE#32).disk.direction ≠ 1 ∧
      Passes (transferStore image 0 0x807FFFFE#64) { buffered 0 0x807FFFFE#32 with disk :=
        { (buffered 0 0x807FFFFE#32).disk with notify := 0xFFFFFFFF#32 } } (sent (buffered 0 0x807FFFFE#32)) 2 ∧
      transferStore image 0 0x807FFFFE#64 2 (sent (buffered 0 0x807FFFFE#32) 2) = none) ∧
    ((buffered 1 0x807FFFFD#32).disk.direction = 1 ∧
      Passes (transferLoad 0 0x807FFFFD#64) { buffered 1 0x807FFFFD#32 with disk :=
        { (buffered 1 0x807FFFFD#32).disk with notify := 0xFFFFFFFF#32 } } (kept (buffered 1 0x807FFFFD#32)) 3 ∧
      transferLoad 0 0x807FFFFD#64 3 (kept (buffered 1 0x807FFFFD#32) 3) = none) :=
  ⟨⟨by decide, ⟨rfl, by decide⟩, by decide⟩, ⟨by decide, ⟨rfl, by decide⟩, by decide⟩⟩

/-- The bytes before the end of RAM are copied, and done, sclaim and mip stay. -/
theorem witness_DmaHostErrors_past_the_end_of_ram :
    ((buffered 0 0x807FFFFE#32).disk.bufAddrHi.toNat * 2 ^ 32 + (buffered 0 0x807FFFFE#32).disk.bufAddrLo.toNat = 0x807FFFFE ∧
      0x80000000 ≤ 0x807FFFFE ∧ 0x807FFFFE + 2 = 0x80800000 ∧ 2 < 0 * 2 ^ 32 + 4 ∧ 0 + 4 ≤ image.length) ∧
    (deviceQuery (buffered 0 0x807FFFFE#32)).status = .hostError .busFailure ∧
    (deviceQuery (buffered 0 0x807FFFFE#32)).mem.readBytes 0x807FFFFC 4 = 0xD1D00000#64 ∧
    (deviceQuery (buffered 0 0x807FFFFE#32)).disk.done = 1 ∧ (deviceQuery (buffered 0 0x807FFFFE#32)).plic.sclaim = 0 ∧
    (deviceQuery (buffered 0 0x807FFFFE#32)).csr csrMip = 0 ∧
    (deviceQuery (buffered 1 0x807FFFFD#32)).diskBacking = some [0#8, 0#8, 0#8, 0xD3#8, 0xD4#8, 0xD5#8] := by decide

theorem witness_HostMovesDeliver :
    step adding = .next (after 0x002081B3 adding) ∧
    (({ adding with uart := received } : State).uartByte 5).getLsbD 0 = true ∧ (adding.uartByte 5).getLsbD 0 = false ∧
    ({ adding with status := .halted .loadAccessFault } : State).status ≠ .running ∧ adding.hostSchedule = [] ∧
    (adding.status = .running ∧ ({ adding with hostSchedule := [[.uartByte 1#8, .uartByte 2#8]] } : State).hostSchedule =
      [.uartByte 1#8, .uartByte 2#8] :: []) ∧
    bytesOf [.uartByte 1#8, .uartByte 2#8] = 1#8 :: [2#8] ∧ bytesOf [.scancode 7#32, .ramPointer] = [] ∧ [2#8] ≠ [] ∧
    adding.uartRx = false ∧ ({ adding with uart := received } : State).uartRx = true := ⟨rfl, by decide⟩

/-- A step of SD, one of an address that does not translate, one to a hole, one of a word that decodes to nothing. -/
theorem witness_HostMovesDeliver_execution :
    (fetch (pointing.withFetchWord 32 0x00113023) = .ok (0x00113023#32, pointing.withFetchWord 32 0x00113023) ∧
      decodeWord 0x00113023#32 = .ok (.sd 2 1 0)) ∧
    (storeTarget ((pointing.withFetchWord 32 0x00113023).setPc 0x80000004#64) (.sd 2 1 0) = some (0x80001000#64, .double) ∧
      walked ((pointing.withFetchWord 32 0x00113023).setPc 0x80000004#64) 0x80001000#64 .store = (some 0x80001000#64, none)) ∧
    (storeTarget pointing (.sd 1 2 0) = some (0x70000000#64, .double) ∧ busLoad 0x70000000#64 .double pointing = none) ∧
    walked (paged [] leaf) 0x40000000#64 .store = (none, some .storeAmoPageFault) ∧ storeTarget adding (.add 3 1 2) = none ∧
    (fetched State.reset = (some 0#32, none) ∧ decodeWord 0#32 = .error (.unknownEncoding 0#32)) := ⟨⟨rfl, by decide⟩, by decide⟩

/-- A step whose poll runs a transfer to RAM, whole or stopping after two bytes, and one whose poll runs none. -/
theorem witness_HostMovesDeliver_transfer :
    (∀ s ∈ [armed 0 4 (some image), buffered 0 0x807FFFFE#32], s.diskBacking = some image ∧ s.status = .running ∧
      pollBlocked (timerCompare s) = false ∧ s.uart.interrupting = false ∧ s.disk.notify ≠ 0xFFFFFFFF#32 ∧ s.disk.direction ≠ 1 ∧
      s.disk.sector.toNat * 512 + (s.disk.bufLenHi.toNat * 2 ^ 32 + s.disk.bufLenLo.toNat) ≤ image.length) ∧
    (ramViews ((buffered 0 0x807FFFFE#32).withFetchWord 32 0x13)).map (fun m => m.readBytes 0x807FFFFC 4) =
      [0#64, 0#64, 0x00D00000#64, 0xD1D00000#64] ∧
    pollBlocked adding = true ∧ (armed 0 4 none).diskBacking = none := by decide

theorem witness_OnlyNamedRegistersAndBytesChange :
    exec (.add 3 1 2) adding = .next (ran (.add 3 1 2) adding) ∧ exec (.sd 2 1 0) pointing = .next (ran (.sd 2 1 0) pointing) ∧
    (destReg (.add 3 1 2) ≠ some 1 ∧ storeTarget adding (.add 3 1 2) = none) ∧
    (storeTarget pointing (.sd 2 1 0) = some (0x80001000#64, .double) ∧
      walked pointing 0x80001000#64 .store = (some 0x80001000#64, none)) ∧
    walked (paged [] leaf) 0x40000000#64 .store = (none, some .storeAmoPageFault) := ⟨rfl, rfl, by decide⟩

theorem witness_CsrsAndModeChangeOnlyAsNamed :
    exec (.csrrw 0 0x104#12 1) adding = .next (ran (.csrrw 0 0x104#12 1) adding) ∧ exec .ecall lent = .next (ran .ecall lent) ∧
    csrOperand (.csrrw 0 0x104#12 1) = some csrSie ∧ csrOperand .ecall = none ∧ (ran .ecall lent).mode ≠ lent.mode ∧
    (ran .sret (lent.setMode .s)).mode ≠ .s := ⟨rfl, rfl, by decide⟩

end Sys2Proof.Tests
end

section
/-! PROOFS. The statements about the state (10_state.md): reset, the invariant along steps, the CSR accessors and the paging cache, and
what an instruction leaves unchanged. Claims about all instructions go by cases on `Does`, claims about a step by cases on `step_cases`. -/

namespace Sys2Proof.Machine

/-! ## Reset (R85, R470) -/

/-- Settles O10: every list of the reset state is closed, so each clause is evaluated. -/
theorem resetMeetsTheInvariant : Obligations.ResetMeetsTheInvariant where
  x0 := rfl
  memWf := ⟨List.Pairwise.nil, by decide⟩
  memInRam := by decide
  csrsWf := ⟨List.Pairwise.nil, by decide⟩
  csrsIn := by decide
  views := ⟨rfl, rfl, rfl⟩
  uartWf := by decide
  uartIn := by decide
  paging := by decide

theorem reset_reg_of_ne_two : ∀ r : Reg, r ≠ 2 → State.reset.reg r = 0 := by decide

theorem reset_uartByte (k : Nat) : State.reset.uartByte k = if k = 5 then 0x20#8 else 0 := by
  simp only [State.uartByte, State.reset, Cells.read, eq_comm]

/-- Settles O11: the CSR file and RAM list nothing at reset, so each of their slots reads 0. -/
theorem resetValues : Obligations.ResetValues := by
  refine ⟨rfl, rfl, rfl, reset_reg_of_ne_two, fun _ => rfl, rfl, rfl, fun _ => rfl, rfl, rfl, rfl, rfl, rfl, rfl,
    reset_uartByte, rfl, fun r => ?_, rfl, rfl, rfl, rfl⟩
  cases r <;> rfl

/-! ## Steps (R76, R400, R462) -/

/-- Settles O8: `exec_does` for an instruction and `step_cases` for a step; every part of a step keeps the parameters. -/
theorem everyStepAnswersANextState : Obligations.EveryStepAnswersANextState := by
  refine ⟨fun i s => (exec_does i s).imp fun _ h => h.1, fun s => ?_, fun s hs => if_neg hs⟩
  obtain ⟨_, hstep⟩ | ⟨_, e, _, hstep⟩ | ⟨_, w, pa, v, f, _, hb, ⟨i, u, _, hd, hstep⟩ | hstep⟩ := step_cases s
  · exact ⟨s, hstep, rfl⟩
  · exact ⟨_, hstep, (endOfStep_cfg _).trans (raiseAt_cfg e s.pc s)⟩
  · exact ⟨_, hstep, by rw [endOfStep_cfg, does_cfg hd, setPc_cfg, busLoad_rest hb]⟩
  · exact ⟨_, hstep, by rw [endOfStep_cfg, raise_cfg, setPc_cfg, busLoad_rest hb]⟩

/-- Settles O9: the fetch's bus load, the instruction or the trap entry, and the end of the step each keep the invariant. -/
theorem stepKeepsTheInvariant : Obligations.StepKeepsTheInvariant := by
  intro s t hs ht
  obtain ⟨_, hstep⟩ | ⟨_, e, _, hstep⟩ | ⟨_, w, pa, v, f, _, hb, hstep⟩ := step_cases s
  · cases hstep.symm.trans ht
    exact hs
  · cases hstep.symm.trans ht
    exact inv_endOfStep (inv_raiseAt hs _ _)
  · have hf : (f.setPc (f.pc + 4)).Inv := inv_setPc (inv_busLoad hs hb) _
    obtain ⟨i, u, _, hd, hstep⟩ | hstep := hstep <;> cases hstep.symm.trans ht
    · exact inv_endOfStep (inv_does hf hd)
    · exact inv_endOfStep (inv_raiseAt hf _ _)

/-! ## The CSR accessors (R60 to R66) -/

theorem csrRead_sstatus (s : State) : csrRead s csrSstatus = s.csr csrMstatus &&& sstatusMask := rfl

theorem csrRead_sie (s : State) : csrRead s csrSie = s.csr csrMie &&& s.csr csrMideleg &&& sLevelMask := rfl

theorem csrRead_sip (s : State) : csrRead s csrSip = s.csr csrMip &&& s.csr csrMideleg &&& sLevelMask := rfl

theorem csrWrite_sstatus (s : State) (v : Word) :
    csrWrite s csrSstatus v = s.setCsr csrMstatus (merge (s.csr csrMstatus) sstatusMask v) := rfl

theorem csrWrite_sie (s : State) (v : Word) :
    csrWrite s csrSie v = s.setCsr csrMie (merge (s.csr csrMie) (s.csr csrMideleg &&& sLevelMask) v) := rfl

theorem csrWrite_sip (s : State) (v : Word) :
    csrWrite s csrSip v = s.setCsr csrMip (merge (s.csr csrMip) (s.csr csrMideleg &&& sipWriteMask) v) := rfl

theorem csrWrite_satp (s : State) (v : Word) : csrWrite s csrSatp v = refreshPaging (s.setCsr csrSatp v) v := rfl

/-- A write of a number that is no view puts the value in its own slot. -/
theorem csr_csrWrite_self (s : State) {a : CsrNum} (v : Word) (h1 : a ≠ csrSstatus) (h2 : a ≠ csrSie) (h3 : a ≠ csrSip) :
    (csrWrite s a v).csr a = v := by
  unfold csrWrite
  rw [if_neg h1, if_neg h2, if_neg h3]
  split
  · subst_vars; simp
  · simp

/-- The bits of SSTATUS_MASK (R63). -/
theorem getLsbD_sstatusMask : ∀ n < 64, sstatusMask.getLsbD n =
    decide (n ∈ [1, 5, 6, 8, 9, 10, 13, 14, 15, 16, 18, 19, 32, 33, 63]) := by decide

/-- The delegable bits (R62). -/
theorem getLsbD_sLevelMask : ∀ n < 64, sLevelMask.getLsbD n = decide (n ∈ [1, 5, 9]) := by decide

/-- A bit of what sie or sip shows of a slot: it is delegable, delegated, and set in the slot (R62). -/
theorem getLsbD_delegatedView (slot deleg : Word) {n : Nat} (hn : n < 64) :
    (slot &&& deleg &&& sLevelMask).getLsbD n = (decide (n ∈ [1, 5, 9]) && deleg.getLsbD n && slot.getLsbD n) := by
  rw [BitVec.getLsbD_and, BitVec.getLsbD_and, getLsbD_sLevelMask n hn, Bool.and_comm, Bool.and_comm (slot.getLsbD n),
    Bool.and_assoc]

/-- The bit of mip a write of sip may change (R62). -/
theorem getLsbD_sipWriteMask : ∀ n < 64, sipWriteMask.getLsbD n = decide (n = 1) := by decide

/-- Settles O21: a view's read is an `and` with its mask and its write a `merge` under it, and the masks have the listed bits. -/
theorem viewsShowAndChangeTheirBits : Obligations.ViewsShowAndChangeTheirBits := by
  intro s v n hn
  refine ⟨?_, ?_, ?_, ?_, ?_, ?_⟩
  · show (csrRead s csrSstatus).getLsbD n = _
    rw [csrRead_sstatus, BitVec.getLsbD_and, getLsbD_sstatusMask n hn, Bool.and_comm]
  · show (csrRead s csrSie).getLsbD n = _
    rw [csrRead_sie, getLsbD_delegatedView _ _ hn]
  · show (csrRead s csrSip).getLsbD n = _
    rw [csrRead_sip, getLsbD_delegatedView _ _ hn]
  · show ((csrWrite s csrSstatus v).csr csrMstatus).getLsbD n = _
    rw [csrWrite_sstatus, csr_setCsr_self, getLsbD_merge _ _ _ _ hn, getLsbD_sstatusMask n hn]
    simp only [decide_eq_true_eq]
  · show ((csrWrite s csrSie v).csr csrMie).getLsbD n = _
    rw [csrWrite_sie, csr_setCsr_self, getLsbD_merge _ _ _ _ hn, BitVec.getLsbD_and, getLsbD_sLevelMask n hn]
    simp only [Bool.and_eq_true, decide_eq_true_eq, and_comm]
  · show ((csrWrite s csrSip v).csr csrMip).getLsbD n = _
    rw [csrWrite_sip, csr_setCsr_self, getLsbD_merge _ _ _ _ hn, BitVec.getLsbD_and, getLsbD_sipWriteMask n hn]
    simp only [Bool.and_eq_true, decide_eq_true_eq, and_comm]

/-! ## MRET's return (R385, R386) -/

/-- MRET's return, refused or not, changes only the pc, the mode, the CSR file and the status. -/
theorem returnM_rest (s : State) :
    returnM s = { s with pc := (returnM s).pc, mode := (returnM s).mode, csrs := (returnM s).csrs,
                         status := (returnM s).status } := by
  obtain ⟨_, e⟩ | ⟨_, _, _, e⟩ := returnM_cases s <;> rw [e] <;> rfl

/-! ## The paging cache (R48, R64) -/

/-- The paging cache of `t` is that of `s`. -/
def SamePaging (s t : State) : Prop := t.pagingOn = s.pagingOn ∧ t.ptRoot = s.ptRoot

theorem SamePaging.trans {s t u : State} (h : SamePaging s t) (h' : SamePaging t u) : SamePaging s u :=
  ⟨h'.1.trans h.1, h'.2.trans h.2⟩

theorem samePaging_setReg (s : State) (rd : Reg) (v : Word) : SamePaging s (s.setReg rd v) := ⟨by simp, by simp⟩

theorem samePaging_busLoad {s t : State} {pa v : Word} {w : Width} (h : busLoad pa w s = some (v, t)) : SamePaging s t := by
  rw [busLoad_rest h]; exact ⟨rfl, rfl⟩

theorem samePaging_busStore {s t : State} {pa v : Word} {w : Width} (h : busStore pa w v s = some t) : SamePaging s t := by
  rw [busStore_rest h]; exact ⟨rfl, rfl⟩

theorem samePaging_raiseAt (e : Exception) (epc : Word) (s : State) : SamePaging s (raiseAt e epc s) := ⟨by simp, by simp⟩

/-- A CSR write keeps the paging cache unless it is one of satp. -/
theorem samePaging_csrWrite (s : State) {a : CsrNum} (v : Word) (h : a ≠ csrSatp) : SamePaging s (csrWrite s a v) := by
  unfold csrWrite
  rw [if_neg h]
  (repeat' split) <;> exact ⟨rfl, rfl⟩

/-- An instruction keeps the paging cache unless it is a CSR instruction on satp. -/
theorem samePaging_does {i : Instr} {s t : State} (hd : Does i s t) (hi : csrOperand i ≠ some csrSatp) : SamePaging s t := by
  cases hd with
  | writes rd v => exact samePaging_setReg s rd v
  | jumps rd v p => exact samePaging_setReg s rd v
  | goes p => exact ⟨rfl, rfl⟩
  | loads rd v pa w a t _ _ hb => exact (samePaging_busLoad hb).trans (samePaging_setReg t rd v)
  | stores va w pa v t _ _ _ hb => exact samePaging_busStore hb
  | amos rd v va w pa a b t u _ _ _ _ hb hs =>
    exact ((samePaging_busLoad hb).trans (samePaging_busStore hs)).trans (samePaging_setReg u rd v)
  | raises e => exact samePaging_raiseAt e _ s
  | csrs rd a v _ ha => exact (samePaging_csrWrite s v (fun h => hi (h ▸ ha))).trans (samePaging_setReg _ rd _)
  | sret => exact ⟨rfl, rfl⟩
  | mret => rw [returnM_rest]; exact ⟨rfl, rfl⟩

/-- The end of a step keeps the paging cache. -/
theorem samePaging_endOfStep (s : State) : SamePaging s (endOfStep s) := by
  obtain ⟨_, e⟩ | ⟨_, e⟩ := endOfStep_cases s <;> rw [e]
  · exact ⟨by simp, by simp⟩
  · exact ⟨rfl, rfl⟩

theorem samePaging_fetch {s t : State} {w : Word32} (h : fetch s = .ok (w, t)) : SamePaging s t := by
  obtain ⟨e, he⟩ | ⟨w', pa, v, u, hf, hb⟩ := fetch_cases s
  · cases he.symm.trans h
  · cases hf.symm.trans h
    exact samePaging_busLoad hb

/-- A step keeps the paging cache unless the word it fetches is a CSR instruction on satp. -/
theorem samePaging_step {s t : State} (ht : step s = .next t)
    (hi : ∀ w u i, fetch s = .ok (w, u) → decodeWord w = .ok i → csrOperand i ≠ some csrSatp) : SamePaging s t := by
  obtain ⟨_, hstep⟩ | ⟨_, e, _, hstep⟩ | ⟨_, w, pa, v, f, hf, hb, hstep⟩ := step_cases s
  · cases hstep.symm.trans ht
    exact ⟨rfl, rfl⟩
  · cases hstep.symm.trans ht
    exact (samePaging_raiseAt e s.pc s).trans (samePaging_endOfStep _)
  · have hp : SamePaging s (f.setPc (f.pc + 4)) := (samePaging_busLoad hb).trans ⟨rfl, rfl⟩
    obtain ⟨i, u, hdec, hd, hstep⟩ | hstep := hstep <;> cases hstep.symm.trans ht
    · exact (hp.trans (samePaging_does hd (hi w f i hf hdec))).trans (samePaging_endOfStep u)
    · exact (hp.trans (samePaging_raiseAt _ _ _)).trans (samePaging_endOfStep _)

/-- `paging_on` of a satp value as a number (R48). -/
theorem pagingMode_eq (v : Word) : (v >>> 60 == 8#64) = decide (v.toNat / 2 ^ 60 = 8) := by
  rw [Bool.eq_iff_iff, beq_iff_eq, decide_eq_true_eq, ← BitVec.toNat_inj, BitVec.toNat_ushiftRight,
    Nat.shiftRight_eq_div_pow]
  rfl

/-- `pt_root` of a satp value as a number (R48). -/
theorem toNat_pagingRoot (v : Word) : ((v.extractLsb' 0 44).setWidth 64 <<< 12).toNat = v.toNat % 2 ^ 44 * 4096 := by
  rw [BitVec.toNat_shiftLeft, BitVec.toNat_setWidth, BitVec.extractLsb'_toNat, Nat.shiftLeft_eq, Nat.shiftRight_zero]
  omega

/-- Settles O23: satp's write computes the cache from the value alone, and each part of a step keeps the cache otherwise. -/
theorem pagingCacheFollowsSatp : Obligations.PagingCacheFollowsSatp := by
  refine ⟨fun s v => ?_, fun i s t h hi => samePaging_does (does_of_exec h) hi, fun s a v h => samePaging_csrWrite s v h,
    fun s w t h => samePaging_fetch h, fun e epc s => samePaging_raiseAt e epc s,
    fun s => ⟨letHostIn_pagingOn s, letHostIn_ptRoot s⟩, fun s => ⟨poll_pagingOn s, poll_ptRoot s⟩,
    fun s t ht hi => samePaging_step ht hi⟩
  rw [csrWrite_satp]
  exact ⟨pagingMode_eq v, toNat_pagingRoot v⟩

/-- Settles O22: a write through a view is a masked write of the underlying slot, a write of satp also the refresh, any other write the slot's. -/
theorem csrWriteTouchesOneSlot : Obligations.CsrWriteTouchesOneSlot := by
  refine fun s a v => ⟨csrWrite_rest s a v, fun c hc => csr_csrWrite_ne s a v hc, csr_csrWrite_self s v, ?_, ?_, ?_, ?_,
    samePaging_csrWrite s v⟩
  · rintro rfl
    rw [csrWrite_sstatus, csr_setCsr_self]
    exact merge_outside _ _ _
  · rintro rfl
    rw [csrWrite_sie, csr_setCsr_self]
    exact merge_outside _ _ _
  · rintro rfl
    rw [csrWrite_sip, csr_setCsr_self]
    exact merge_outside _ _ _
  · rintro rfl
    exact csrWrite_satp s v

/-! ## What an instruction leaves unchanged (R43, R66, R218, R300) -/

theorem reg_setReg_ne (s : State) {r q : Reg} (v : Word) (h : q ≠ r) : (s.setReg r v).reg q = s.reg q := by
  rw [reg_setReg, if_neg (fun hq => h hq.1)]

theorem reg_busLoad {s t : State} {pa v : Word} {w : Width} (h : busLoad pa w s = some (v, t)) (q : Reg) :
    t.reg q = s.reg q := reg_congr (by rw [busLoad_rest h]) q

theorem reg_busStore {s t : State} {pa v : Word} {w : Width} (h : busStore pa w v s = some t) (q : Reg) :
    t.reg q = s.reg q := reg_congr (by rw [busStore_rest h]) q

theorem reg_csrWrite (s : State) (a : CsrNum) (v : Word) (q : Reg) : (csrWrite s a v).reg q = s.reg q :=
  reg_congr (by rw [csrWrite_rest]) q

theorem csr_busLoad {s t : State} {pa v : Word} {w : Width} (h : busLoad pa w s = some (v, t)) (a : CsrNum) :
    t.csr a = s.csr a := csr_congr (by rw [busLoad_rest h]) a

theorem csr_busStore {s t : State} {pa v : Word} {w : Width} (h : busStore pa w v s = some t) (a : CsrNum) :
    t.csr a = s.csr a := csr_congr (by rw [busStore_rest h]) a

theorem csr_returnM_ne (s : State) {a : CsrNum} (h : a ≠ csrMstatus) : (returnM s).csr a = s.csr a := by
  obtain ⟨_, e⟩ | ⟨_, _, _, e⟩ := returnM_cases s <;> rw [e]
  · rfl
  · rw [csr_setCsr_ne _ _ h]; rfl

/-- An instruction changes no register but its rd. -/
theorem does_reg {i : Instr} {s t : State} (hd : Does i s t) {q : Reg} (hq : destReg i ≠ some q) : t.reg q = s.reg q := by
  have ne : ∀ {rd : Reg}, destReg i = some rd → q ≠ rd := fun hrd e => hq (e ▸ hrd)
  cases hd with
  | writes rd v hrd => exact reg_setReg_ne s v (ne hrd)
  | jumps rd v p hrd => exact reg_setReg_ne s v (ne hrd)
  | goes p => rfl
  | loads rd v pa w a t hrd _ hb => rw [reg_setReg_ne _ _ (ne hrd), reg_busLoad hb]
  | stores va w pa v t _ _ _ hb => exact reg_busStore hb q
  | amos rd v va w pa a b t u hrd _ _ _ hb hs => rw [reg_setReg_ne _ _ (ne hrd), reg_busStore hs, reg_busLoad hb]
  | raises e => exact reg_raise e s q
  | csrs rd a v hrd => rw [reg_setReg_ne _ _ (ne hrd), reg_csrWrite]
  | sret => rfl
  | mret => exact reg_congr (by rw [returnM_rest]) q

/-- An instruction leaves RAM as it is, or it has a store target that translates and changes no byte outside it. -/
theorem does_mem {i : Instr} {s t : State} (hd : Does i s t) :
    t.mem = s.mem ∨ ∃ va w pa, storeTarget s i = some (va, w) ∧ translate va .store s = .ok pa ∧
      ∀ a, (a < pa.toNat ∨ pa.toNat + w.bytes ≤ a) → Cells.read t.mem a = Cells.read s.mem a := by
  cases hd with
  | writes rd v => exact .inl (setReg_mem s rd v)
  | jumps rd v p => exact .inl (setReg_mem s rd v)
  | goes p => exact .inl rfl
  | loads rd v pa w a t _ _ hb => left; rw [setReg_mem, busLoad_rest hb]
  | stores va w pa v t htgt _ htr hb => exact .inr ⟨va, w, pa, htgt, htr, busStore_mem hb⟩
  | amos rd v va w pa a b t u _ htgt _ htr hb hs =>
    refine .inr ⟨va, w, pa, htgt, htr, fun c hc => ?_⟩
    rw [setReg_mem, busStore_mem hs c hc, busLoad_rest hb]
  | raises e => exact .inl (raise_mem e s)
  | csrs rd a v => left; rw [setReg_mem, csrWrite_rest]
  | sret => exact .inl rfl
  | mret => left; rw [returnM_rest]

/-- Settles O59: `does_reg` and `does_mem`, and an instruction has one store target, which has one translation. -/
theorem onlyNamedRegistersAndBytesChange : Obligations.OnlyNamedRegistersAndBytesChange := by
  intro i s t h
  have hd := does_of_exec h
  refine ⟨fun r hr => does_reg hd hr, ?_⟩
  obtain hm | ⟨va, w, pa, htgt, htr, hm⟩ := does_mem hd
  · exact ⟨fun _ => hm, fun va w _ => ⟨fun _ _ => hm, fun pa _ a _ => by rw [hm]⟩⟩
  · refine ⟨fun hn => ?_, fun va' w' htgt' => ?_⟩
    · cases hn.symm.trans htgt
    · cases htgt.symm.trans htgt'
      refine ⟨fun e he => ?_, fun pa' hpa => ?_⟩
      · cases he.symm.trans htr
      · cases hpa.symm.trans htr
        exact hm

/-- A CSR instruction writes its CSR and then gives rd the old value. -/
theorem does_of_csrOperand {i : Instr} {s t : State} (hd : Does i s t) {c : CsrNum} (hc : csrOperand i = some c) :
    ∃ rd v, t = (csrWrite s c v).setReg rd (csrRead s c) := by
  cases hd with
  | writes _ _ _ hn => cases hn.symm.trans hc
  | jumps _ _ _ _ hn => cases hn.symm.trans hc
  | goes _ _ hn => cases hn.symm.trans hc
  | loads _ _ _ _ _ _ _ hn => cases hn.symm.trans hc
  | stores _ _ _ _ _ _ hn => cases hn.symm.trans hc
  | amos _ _ _ _ _ _ _ _ _ _ _ hn => cases hn.symm.trans hc
  | raises _ _ hn => cases hn.symm.trans hc
  | csrs rd c' v _ hc' => cases hc.symm.trans hc'; exact ⟨rd, v, rfl⟩
  | sret hi => subst hi; cases hc
  | mret hi => subst hi; cases hc

/-- An instruction that changes the mode is SRET or MRET, or took an exception. -/
theorem does_mode {i : Instr} {s t : State} (hd : Does i s t) :
    t.mode = s.mode ∨ i = .sret ∨ i = .mret ∨ ∃ e, t = raise e s := by
  cases hd with
  | writes rd v => exact .inl (setReg_mode s rd v)
  | jumps rd v p => exact .inl (setReg_mode s rd v)
  | goes p => exact .inl rfl
  | loads rd v pa w a t _ _ hb => left; rw [setReg_mode, busLoad_rest hb]
  | stores va w pa v t _ _ _ hb => left; rw [busStore_rest hb]
  | amos rd v va w pa a b t u _ _ _ _ hb hs => left; rw [setReg_mode, busStore_rest hs, busLoad_rest hb]
  | raises e => exact .inr (.inr (.inr ⟨e, rfl⟩))
  | csrs rd a v => left; rw [setReg_mode, csrWrite_rest]
  | sret hi => exact .inr (.inl hi)
  | mret hi => exact .inr (.inr (.inl hi))

/-- An instruction that names no CSR changes no CSR but the trap CSRs and mstatus. -/
theorem does_csr_of_no_operand {i : Instr} {s t : State} (hd : Does i s t) (hc : csrOperand i = none) {a : CsrNum}
    (ha : a ∉ [csrSepc, csrScause, csrStval, csrMepc, csrMcause, csrMtval, csrMstatus]) : t.csr a = s.csr a := by
  have hm : a ≠ csrMstatus := fun e => ha (by simp [e])
  cases hd with
  | writes rd v => exact csr_setReg s rd v a
  | jumps rd v p => exact csr_setReg s rd v a
  | goes p => rfl
  | loads rd v pa w b t _ _ hb => rw [csr_setReg, csr_busLoad hb]
  | stores va w pa v t _ _ _ hb => exact csr_busStore hb a
  | amos rd v va w pa b c t u _ _ _ _ hb hs => rw [csr_setReg, csr_busStore hs, csr_busLoad hb]
  | raises e => exact csr_raise_ne e s a ha
  | csrs rd c v _ hc' => cases hc.symm.trans hc'
  | sret => rw [csr_returnS, if_neg hm]
  | mret => exact csr_returnM_ne s hm

/-- Settles O60: a CSR instruction is a CSR write and a register write; `does_csr_of_no_operand` and `does_mode` for any other. -/
theorem csrsAndModeChangeOnlyAsNamed : Obligations.CsrsAndModeChangeOnlyAsNamed := by
  intro i s t h
  have hd := does_of_exec h
  refine ⟨fun c hc => ?_, fun hc => ⟨fun a ha => does_csr_of_no_operand hd hc ha, fun hmode => ?_⟩⟩
  · obtain ⟨rd, v, rfl⟩ := does_of_csrOperand hd hc
    refine ⟨?_, fun a ha => ?_⟩
    · rw [setReg_mode, csrWrite_rest]
    · rw [csr_setReg, csr_csrWrite_ne s c v ha]
  · obtain hm | hi | hi | ⟨e, he⟩ := does_mode hd
    · exact absurd hm hmode
    · exact .inl hi
    · exact .inr (.inl hi)
    · exact .inr (.inr ⟨e, s, rfl, rfl, rfl, he⟩)

end Sys2Proof.Machine
end

section
/-! PROOFS. The statements about the bus: RAM accesses, where an access fails, and the registers of each device. The accesses to a device
window go through `busLoad_window` and `busStore_window`, which give the device's own load and store. -/

namespace Sys2Proof.Machine

/-! ## RAM (R100, R101) -/

theorem Width.bytes_le_eight (w : Width) : w.bytes ≤ 8 := by cases w <;> decide

/-- Settles O26: the number a run of bytes stands for, at each of the four widths. -/
theorem ramLoadIsLittleEndian : Obligations.RamLoadIsLittleEndian := by
  intro s pa w h
  rw [busLoad_ram s pa w h, ← (Memory.toNat_readBytes w.bytes s.mem pa.toNat w.bytes_le_eight).1, BitVec.ofNat_toNat,
    BitVec.setWidth_eq]

/-- Byte `k` of a word as a number. -/
theorem byte_eq_ofNat (v : Word) (k : Nat) : (v >>> (8 * k)).setWidth 8 = BitVec.ofNat 8 (v.toNat / 256 ^ k) := by
  apply BitVec.eq_of_toNat_eq
  rw [BitVec.toNat_setWidth, BitVec.toNat_ushiftRight, Nat.shiftRight_eq_div_pow, Nat.pow_mul, BitVec.toNat_ofNat]

/-- Settles O27: the bytes inside and outside a run that was written. -/
theorem ramStoreWritesItsBytes : Obligations.RamStoreWritesItsBytes := by
  intro s pa v w h
  refine ⟨_, busStore_ram s pa v w h, rfl, fun k hk => ?_, fun a ha => Memory.read_writeBytes_outside _ _ _ _ _ ha⟩
  rw [← byte_eq_ofNat]
  exact Memory.read_writeBytes_inside _ _ _ _ _ hk

/-! ## Where an access fails (R103, R105 to R107) -/

theorem regionOf_clint_iff (c : Config) (a : Nat) :
    regionOf c a = some (.device .clint) ↔ 0x02000000 ≤ a ∧ a < 0x02010000 :=
  ⟨fun h => by simpa using regionOf_inv h, regionOf_clint c a⟩

theorem regionOf_plic_iff (c : Config) (a : Nat) :
    regionOf c a = some (.device .plic) ↔ 0x0C000000 ≤ a ∧ a < 0x10000000 :=
  ⟨fun h => by simpa using regionOf_inv h, regionOf_plic c a⟩

theorem regionOf_uart_iff (c : Config) (a : Nat) :
    regionOf c a = some (.device .uart) ↔ 0x10000000 ≤ a ∧ a < 0x10000100 :=
  ⟨fun h => by simpa using regionOf_inv h, regionOf_uart c a⟩

theorem regionOf_disk_iff (c : Config) (a : Nat) :
    regionOf c a = some (.device .disk) ↔ 0x10001000 ≤ a ∧ a < 0x10001100 :=
  ⟨fun h => by simpa using regionOf_inv h, regionOf_disk c a⟩

theorem regionOf_kbd_iff (c : Config) (a : Nat) :
    regionOf c a = some (.device .kbd) ↔ ∃ k, c.kbdWindow = some k ∧ k.window.contains a = true := by
  refine ⟨fun h => (kbdContains_iff c a).1 (by simpa using regionOf_inv h), ?_⟩
  rintro ⟨k, hk, h⟩
  exact regionOf_kbd c a k hk h

theorem Device.exists_iff {p : Device → Prop} :
    (∃ d, p d) ↔ p .clint ∨ p .plic ∨ p .uart ∨ p .disk ∨ p .kbd := by
  constructor
  · rintro ⟨d, h⟩
    cases d <;> simp only [h, true_or, or_true]
  · rintro (h | h | h | h | h) <;> exact ⟨_, h⟩

/-- A load succeeds whole inside RAM and at a device's own width in its window. -/
theorem busLoad_ne_none_iff (s : State) (pa : Word) (w : Width) :
    busLoad pa w s ≠ none ↔
      inRam pa.toNat w = true ∨ ∃ d, regionOf s.cfg pa.toNat = some (.device d) ∧ w = d.naturalWidth := by
  constructor
  · intro h
    obtain ⟨⟨v, t⟩, hb⟩ := Option.ne_none_iff_exists'.1 h
    exact (busLoad_cases hb).imp And.left fun ⟨d, hr, hw, _⟩ => ⟨d, hr, hw⟩
  · rintro (h | ⟨d, hr, rfl⟩)
    · rw [busLoad_ram s pa w h]
      exact Option.some_ne_none _
    · rw [Ne, busLoad_none_iff, hr]
      simp

/-- Settles O29: `busLoad_ne_none_iff` with each window as a range, and a store fails on the same regions as a load. -/
theorem busFailsExactlyWhereUnmapped : Obligations.BusFailsExactlyWhereUnmapped := by
  intro s pa v w
  refine ⟨?_, by rw [busStore_none_iff, busLoad_none_iff]⟩
  have h := busLoad_ne_none_iff s pa w
  rw [Device.exists_iff, inRam_iff, regionOf_clint_iff, regionOf_plic_iff, regionOf_uart_iff, regionOf_disk_iff,
    regionOf_kbd_iff] at h
  rw [← not_ne_iff, h]
  simp only [Device.naturalWidth, and_comm]

/-! ## Accesses to a device window (R105, R110, R111) -/

/-- Every device window lies below 2^32. -/
theorem regionOf_device_lt {c : Config} {a : Nat} {d : Device} (h : regionOf c a = some (.device d)) : a < 2 ^ 32 := by
  obtain h | h | h | h | ⟨_, h⟩ | ⟨h, _⟩ := regionOf_inv h
  · omega
  · omega
  · omega
  · omega
  · obtain ⟨k, _, hk⟩ := (kbdContains_iff c a).1 h
    have := (KbdWindow.apart k a hk).1
    omega
  · cases h

theorem toNat_deviceAddress {c : Config} {a : Nat} {d : Device} (h : regionOf c a = some (.device d)) :
    (BitVec.ofNat 64 a).toNat = a := by
  have := regionOf_device_lt h
  rw [BitVec.toNat_ofNat, Nat.mod_eq_of_lt (by omega)]

/-- A load at an offset of a device's window is the device's load there. -/
theorem busLoad_window {s : State} {d : Device} {off : Nat}
    (h : regionOf s.cfg (d.base s.cfg + off) = some (.device d)) :
    busLoad (BitVec.ofNat 64 (d.base s.cfg + off)) d.naturalWidth s = some (deviceLoad s off d) := by
  have ha := toNat_deviceAddress h
  exact busLoad_device (by rw [ha, h]) ha

/-- A store at an offset of a device's window is the device's store there. -/
theorem busStore_window {s : State} {d : Device} {off : Nat} (v : Word)
    (h : regionOf s.cfg (d.base s.cfg + off) = some (.device d)) :
    busStore (BitVec.ofNat 64 (d.base s.cfg + off)) d.naturalWidth v s = some (deviceStore s off v d) := by
  have ha := toNat_deviceAddress h
  exact busStore_device (by rw [ha, h]) ha

/-! ## What a load changes (R121, R137, R168) -/

/-- RHR clears LSR.RX (R121). -/
theorem uartLoad_zero (s : State) :
    uartLoad s 0 = (s.uartByte 0, s.setUartByte 5 (s.uartByte 5 &&& ~~~0x01#8)) := rfl

theorem uartLoad_of_ne (s : State) {off : Nat} (h : off ≠ 0) : uartLoad s off = (s.uartByte off, s) := if_neg h

/-- KBD_GET gives and takes the head of the queue, or gives 0 (R137). -/
theorem kbdLoad_zero (s : State) : kbdLoad s 0 = (s.kbdQueue.headD 0, { s with kbdQueue := s.kbdQueue.tail }) := by
  obtain ⟨_, _, _, _, _, _, _, _, _, _, _, _, _, q, _, _, _⟩ := s
  cases q <;> rfl

theorem kbdLoad_of_ne (s : State) {off : Nat} (h : off ≠ 0) : kbdLoad s off = (0, s) := if_neg h

/-- A device load changes nothing but the UART's at RHR and the keyboard's at KBD_GET. -/
theorem deviceLoad_effect (s : State) (off : Nat) (d : Device) :
    (deviceLoad s off d).2 = s ∨
      off = 0 ∧ (d = .uart ∧ (deviceLoad s off d).2 = s.setUartByte 5 (s.uartByte 5 &&& ~~~0x01#8) ∨
        d = .kbd ∧ (deviceLoad s off d).2 = { s with kbdQueue := s.kbdQueue.tail }) := by
  by_cases h : off = 0
  · subst h
    cases d with
    | clint => exact .inl rfl
    | plic => exact .inl rfl
    | disk => exact .inl rfl
    | uart => exact .inr ⟨rfl, .inl ⟨rfl, rfl⟩⟩
    | kbd => exact .inr ⟨rfl, .inr ⟨rfl, congrArg Prod.snd (kbdLoad_zero s)⟩⟩
  · left
    cases d with
    | clint => rfl
    | plic => rfl
    | disk => rfl
    | uart => exact congrArg Prod.snd (uartLoad_of_ne s h)
    | kbd => exact congrArg Prod.snd (kbdLoad_of_ne s h)

/-- Settles O30: a RAM load has no effect, and `deviceLoad_effect` at the base of the window. -/
theorem onlyRhrAndKeyboardLoadsHaveEffects : Obligations.OnlyRhrAndKeyboardLoadsHaveEffects := by
  intro s t pa v w h
  obtain ⟨_, _, ht⟩ | ⟨d, hr, hw, hd⟩ := busLoad_cases h
  · exact .inl ht
  · obtain rfl : t = (deviceLoad s (pa.toNat - d.base s.cfg) d).2 := congrArg Prod.snd hd
    obtain e | ⟨h0, ⟨rfl, e⟩ | ⟨rfl, e⟩⟩ := deviceLoad_effect s (pa.toNat - d.base s.cfg) d
    · exact .inl e
    · have hbase : pa.toNat - 0x10000000 = 0 := h0
      have hin := (regionOf_uart_iff _ _).1 hr
      exact .inr (.inl ⟨BitVec.eq_of_toNat_eq (by rw [BitVec.toNat_ofNat]; omega), hw, e⟩)
    · obtain ⟨k, hk, hin⟩ := (regionOf_kbd_iff _ _).1 hr
      rw [Window.contains_iff] at hin
      simp only [Device.base, hk] at h0
      exact .inr (.inr ⟨k, hk, by omega, hw, e⟩)

/-! ## UART (R120 to R125) -/

theorem busLoad_uart (s : State) {off : Nat} (h : off < 256) :
    busLoad (BitVec.ofNat 64 (0x10000000 + off)) .byte s =
      some ((uartLoad s off).1.setWidth 64, (uartLoad s off).2) :=
  busLoad_window (d := .uart) ((regionOf_uart_iff _ _).2 (by simp only [Device.base, uartWindow]; omega))

theorem busStore_uart (s : State) (v : Word) {off : Nat} (h : off < 256) :
    busStore (BitVec.ofNat 64 (0x10000000 + off)) .byte v s = some (uartStore s off (v.setWidth 8)) :=
  busStore_window (d := .uart) v ((regionOf_uart_iff _ _).2 (by simp only [Device.base, uartWindow]; omega))

/-- THR sends the byte (R125). -/
theorem uartStore_zero (s : State) (b : Byte) : uartStore s 0 b = { s with uartOut := s.uartOut ++ [b] } := rfl

theorem uartStore_of_ne (s : State) (b : Byte) {off : Nat} (h : off ≠ 0) : uartStore s off b = s.setUartByte off b :=
  if_neg h

/-- Settles O31: a load at RHR is `uartLoad_zero`, at any other offset `uartLoad_of_ne`. -/
theorem uartLoads : Obligations.UartLoads := by
  intro s
  have hother (off : Nat) (h0 : 0 < off) (h : off < 256) :
      busLoad (BitVec.ofNat 64 (0x10000000 + off)) .byte s = some ((s.uartByte off).setWidth 64, s) := by
    rw [busLoad_uart s h, uartLoad_of_ne s (by omega)]
  refine ⟨⟨_, busLoad_uart s (off := 0) (by decide), rfl, ?_, ?_⟩, hother, hother 5 (by decide) (by decide)⟩
  · exact fun k => uartByte_setUartByte _ _ _ _
  · rw [uartLoad_zero, State.uartRx]
    show ((s.setUartByte 5 _).uartByte 5).getLsbD 0 = false
    rw [uartByte_setUartByte, if_pos rfl, BitVec.getLsbD_and]
    exact Bool.and_false _

/-- Settles O32: a store at THR is `uartStore_zero`, at any other offset `uartStore_of_ne`. -/
theorem uartStores : Obligations.UartStores := by
  intro s v
  refine ⟨busStore_uart s v (off := 0) (by decide), fun off h0 h => ⟨_, busStore_uart s v h, ?_⟩⟩
  rw [uartStore_of_ne s _ (by omega)]
  exact ⟨rfl, fun k => uartByte_setUartByte _ _ _ _⟩

/-! ## CLINT, PLIC and keyboard (R113 to R117, R137) -/

theorem clintLoad_eq (s : State) (off : Nat) :
    clintLoad s off = if off = s.cfg.clintLayout.mtime then s.clint.mtime
      else if off = s.cfg.clintLayout.mtimecmp then s.clint.mtimecmp else 0 := by
  have hne := s.cfg.clintLayout.ok.1
  unfold clintLoad
  by_cases h : off = s.cfg.clintLayout.mtimecmp
  · rw [if_pos h, if_neg (fun h' => hne (h ▸ h')), if_pos h]
  · rw [if_neg h, if_neg h]

/-- A CLINT store sets each register where the offset is its own (R114). -/
theorem clintStore_eq (s : State) (off : Nat) (v : Word) :
    clintStore s off v = { s with clint := {
      mtime := if off = s.cfg.clintLayout.mtime then v else s.clint.mtime,
      mtimecmp := if off = s.cfg.clintLayout.mtimecmp then v else s.clint.mtimecmp } } := by
  have hne := s.cfg.clintLayout.ok.1
  unfold clintStore
  split
  · rename_i h
    rw [if_neg (fun h' => hne (h ▸ h'))]
  · split <;> rfl

theorem plicLayout_distinct (l : PlicLayout) :
    l.pending ≠ l.senable ∧ l.pending ≠ l.spriority ∧ l.pending ≠ l.sclaim ∧ l.senable ≠ l.spriority ∧
      l.senable ≠ l.sclaim ∧ l.spriority ≠ l.sclaim := by
  simpa [and_assoc] using l.ok.1

theorem plicLoad_eq (s : State) (off : Nat) :
    plicLoad s off = if off = s.cfg.plicLayout.sclaim then s.plic.sclaim
      else if off = s.cfg.plicLayout.spriority then s.plic.spriority
      else if off = s.cfg.plicLayout.senable then s.plic.senable
      else if off = s.cfg.plicLayout.pending then s.plic.pending else 0#32 := by
  obtain ⟨hps, hpp, hpc, hsp, hsc, hpr⟩ := plicLayout_distinct s.cfg.plicLayout
  unfold plicLoad
  split
  · rename_i h; subst h; simp only [hps, hpp, hpc, if_false]
  · split
    · rename_i h; subst h; simp only [hsp, hsc, if_false]
    · split
      · rename_i h; subst h; simp only [hpr, if_false]
      · rfl

/-- A PLIC store sets each register where the offset is its own (R117). -/
theorem plicStore_eq (s : State) (off : Nat) (v : Word32) :
    plicStore s off v = { s with plic := {
      pending := if off = s.cfg.plicLayout.pending then v else s.plic.pending,
      senable := if off = s.cfg.plicLayout.senable then v else s.plic.senable,
      spriority := if off = s.cfg.plicLayout.spriority then v else s.plic.spriority,
      sclaim := if off = s.cfg.plicLayout.sclaim then v else s.plic.sclaim } } := by
  obtain ⟨hps, hpp, hpc, hsp, hsc, hpr⟩ := plicLayout_distinct s.cfg.plicLayout
  unfold plicStore
  split
  · rename_i h; simp only [h, hps, hpp, hpc, if_false]
  · split
    · rename_i h; simp only [h, hsp, hsc, if_false]
    · split
      · rename_i h; simp only [h, hpr, if_false]
      · split <;> rfl

/-- Settles O33: each window's load and store, in the order the statement gives the registers. -/
theorem clintPlicAndKeyboardRegisters : Obligations.ClintPlicAndKeyboardRegisters := by
  intro s v off
  refine ⟨fun h => ?_, fun h => ?_, fun k hk h => ?_⟩
  · have hr : regionOf s.cfg (Device.clint.base s.cfg + off) = some (.device .clint) :=
      (regionOf_clint_iff _ _).2 (by simp only [Device.base, clintWindow]; omega)
    rw [← clintLoad_eq, ← clintStore_eq]
    exact ⟨busLoad_window hr, busStore_window v hr⟩
  · have hr : regionOf s.cfg (Device.plic.base s.cfg + off) = some (.device .plic) :=
      (regionOf_plic_iff _ _).2 (by simp only [Device.base, plicWindow]; omega)
    rw [← plicLoad_eq, ← plicStore_eq]
    exact ⟨busLoad_window hr, busStore_window v hr⟩
  · have hb : Device.kbd.base s.cfg = k.window.base := by simp only [Device.base, hk]
    have hr : regionOf s.cfg (Device.kbd.base s.cfg + off) = some (.device .kbd) :=
      (regionOf_kbd_iff _ _).2 ⟨k, hk, (Window.contains_iff _ _).2 (by omega)⟩
    rw [← hb]
    refine ⟨(busLoad_window hr).trans (congrArg some ?_), busStore_window v hr⟩
    by_cases h0 : off = 0
    · subst h0
      simp only [deviceLoad, kbdLoad_zero, zext32, if_true]
    · simp only [deviceLoad, kbdLoad_of_ne s h0, h0, if_false]
      rfl

/-! ## Disk (R130 to R132) -/

theorem diskOffset_lt (l : DiskLayout) (r : DiskReg) : diskOffset l r < 0x100 :=
  (l.ok.2 (diskOffset l r) (by cases r <;> simp [diskOffset])).2

theorem regionOf_diskWindow (c : Config) {off : Nat} (h : off < 0x100) :
    regionOf c (Device.disk.base c + off) = some (.device .disk) :=
  (regionOf_disk_iff _ _).2 (by simp only [Device.base, diskWindow]; omega)

/-- A load at a register's offset gives the register (R131). -/
theorem diskLoad_diskOffset (s : State) (r : DiskReg) : diskLoad s (diskOffset s.cfg.disk r) = s.disk.get r := by
  rw [diskLoad, (diskRegAt_iff _ _ _).2 rfl]

/-- A load at an offset without a register gives 0 (R108). -/
theorem diskLoad_of_no_reg (s : State) {off : Nat} (h : ∀ r, off ≠ diskOffset s.cfg.disk r) : diskLoad s off = 0 := by
  have hn : diskRegAt s.cfg.disk off = none :=
    Option.eq_none_iff_forall_ne_some.2 fun r hr => h r ((diskRegAt_iff _ _ _).1 hr)
  rw [diskLoad, hn]

theorem busLoad_disk (s : State) {off : Nat} (h : off < 0x100) :
    busLoad (BitVec.ofNat 64 (0x10001000 + off)) .word s = some ((diskLoad s off).setWidth 64, s) :=
  busLoad_window (regionOf_diskWindow s.cfg h)

theorem busLoad_disk_of_ne_word (s : State) {off : Nat} {w : Width} (h : off < 0x100) (hw : w ≠ .word) :
    busLoad (BitVec.ofNat 64 (0x10001000 + off)) w s = none := by
  have hr : regionOf s.cfg (0x10001000 + off) = some (.device .disk) := regionOf_diskWindow s.cfg h
  rw [busLoad_none_iff, toNat_deviceAddress hr]
  exact .inr (.inr ⟨.disk, hr, hw⟩)

/-- Settles O34: a register's offset gives the register, and an offset in no list is no register's. -/
theorem diskLoads : Obligations.DiskLoads := by
  intro s
  refine ⟨fun off w h hw => ?_, fun p hp => ?_, fun off h hno => ?_⟩
  · have hl := busLoad_disk_of_ne_word s h hw
    exact ⟨hl, fun v => (busFailsExactlyWhereUnmapped s _ v w).2.2 hl⟩
  · obtain ⟨r, rfl⟩ : ∃ r, p = (diskOffset s.cfg.disk r, s.disk.get r) := by
      simp only [List.mem_cons, List.not_mem_nil, or_false] at hp
      rcases hp with h | h | h | h | h | h | h | h | h | h
      · exact ⟨.magic, h⟩
      · exact ⟨.version, h⟩
      · exact ⟨.notify, h⟩
      · exact ⟨.direction, h⟩
      · exact ⟨.bufAddrHi, h⟩
      · exact ⟨.bufAddrLo, h⟩
      · exact ⟨.bufLenHi, h⟩
      · exact ⟨.bufLenLo, h⟩
      · exact ⟨.sector, h⟩
      · exact ⟨.done, h⟩
    rw [busLoad_disk s (diskOffset_lt _ r), diskLoad_diskOffset]
  · rw [busLoad_disk s h, diskLoad_of_no_reg]
    · rfl
    · rintro r rfl
      exact hno (by cases r <;> simp [diskOffset])

/-- A disk store sets each writable register where the offset is its own (R132). -/
theorem diskStore_eq (s : State) (off : Nat) (v : Word32) :
    diskStore s off v = { s with disk := {
      notify := if off = diskOffset s.cfg.disk .notify then v else s.disk.notify,
      direction := if off = diskOffset s.cfg.disk .direction then v else s.disk.direction,
      bufAddrHi := if off = diskOffset s.cfg.disk .bufAddrHi then v else s.disk.bufAddrHi,
      bufAddrLo := if off = diskOffset s.cfg.disk .bufAddrLo then v else s.disk.bufAddrLo,
      bufLenHi := if off = diskOffset s.cfg.disk .bufLenHi then v else s.disk.bufLenHi,
      bufLenLo := if off = diskOffset s.cfg.disk .bufLenLo then v else s.disk.bufLenLo,
      sector := if off = diskOffset s.cfg.disk .sector then v else s.disk.sector,
      done := if off = diskOffset s.cfg.disk .done then v else s.disk.done } } := by
  simp only [← diskRegAt_iff, diskStore]
  cases diskRegAt s.cfg.disk off with
  | none => rfl
  | some r => cases r <;> rfl

/-- Settles O35: `diskStore_eq` at every offset of the window. -/
theorem diskStores : Obligations.DiskStores := by
  intro s v off h
  exact (busStore_window v (regionOf_diskWindow s.cfg h)).trans (congrArg some (diskStore_eq s off (v.setWidth 32)))

end Sys2Proof.Machine
end

section
/-! PROOFS. The statements about Sv39 translation: one equation for each branch of the walk, and the addresses and frames it computes as
numbers. -/

namespace Sys2Proof.Machine

/-! ## The walk, branch by branch (R150, R153, R158) -/

theorem pteValid_iff (p : Word) :
    pteValid p = true ↔ p.getLsbD 0 = true ∧ (p.getLsbD 2 = true → p.getLsbD 1 = true) := by
  rw [pteValid, Bool.and_eq_true, Bool.or_eq_true, Bool.not_eq_true', ← Bool.not_eq_true, or_comm, imp_iff_not_or]

theorem pteLeaf_iff (p : Word) : pteLeaf p = true ↔ p.getLsbD 1 = true ∨ p.getLsbD 3 = true := by
  rw [pteLeaf, Bool.or_eq_true]

theorem not_pteLeaf_iff (p : Word) : pteLeaf p = false ↔ p.getLsbD 1 = false ∧ p.getLsbD 3 = false := by
  rw [pteLeaf, Bool.or_eq_false_iff]

theorem translate_pagingOff {s : State} (h : s.pagingOn = false) (va : Word) (kind : Access) :
    translate va kind s = .ok va := by
  rw [translate, h]; rfl

theorem translate_pagingOn {s : State} (h : s.pagingOn = true) (va : Word) (kind : Access) :
    translate va kind s = walk s va kind 2 s.ptRoot := by
  rw [translate, if_pos h]

section
variable {s : State} {va a p : Word} {level : Nat} (kind : Access)

theorem walk_unreadable (h : readPte (a + vpn va level * 8) s = none) :
    walk s va kind level a = .error kind.accessFault := by
  unfold walk
  rw [h]

theorem walk_invalid (h : readPte (a + vpn va level * 8) s = some p)
    (hv : ¬ (p.getLsbD 0 = true ∧ (p.getLsbD 2 = true → p.getLsbD 1 = true))) :
    walk s va kind level a = .error kind.pageFault := by
  rw [← pteValid_iff, Bool.not_eq_true] at hv
  unfold walk
  simp only [h, hv, Bool.not_false, if_true]

theorem walk_leaf (h : readPte (a + vpn va level * 8) s = some p) (hv : pteValid p = true) (hl : pteLeaf p = true) :
    walk s va kind level a = .ok (leafAddress p va level) := by
  unfold walk
  simp only [h, hv, hl, Bool.not_true, Bool.false_eq_true, if_false, if_true]

theorem walk_pointer_zero (h : readPte (a + vpn va 0 * 8) s = some p) (hv : pteValid p = true) (hl : pteLeaf p = false) :
    walk s va kind 0 a = .error kind.pageFault := by
  unfold walk
  simp only [h, hv, hl, Bool.not_true, Bool.false_eq_true, if_false]

theorem walk_pointer_succ (h : readPte (a + vpn va (level + 1) * 8) s = some p) (hv : pteValid p = true)
    (hl : pteLeaf p = false) : walk s va kind (level + 1) a = walk s va kind level (pteNext p) := by
  rw [walk]
  simp only [h, hv, hl, Bool.not_true, Bool.false_eq_true, if_false]

end

/-! ## Entry addresses as numbers (R150) -/

/-- A field of a word as a number. -/
theorem toNat_field (v : Word) (start : Nat) {len : Nat} (h : len ≤ 64) :
    ((v.extractLsb' start len).setWidth 64).toNat = v.toNat / 2 ^ start % 2 ^ len := by
  have hlt : v.toNat / 2 ^ start % 2 ^ len < 2 ^ 64 :=
    (Nat.mod_lt _ (Nat.two_pow_pos len)).trans_le (Nat.pow_le_pow_right (by decide) h)
  rw [BitVec.toNat_setWidth, BitVec.extractLsb'_toNat, Nat.shiftRight_eq_div_pow, Nat.mod_eq_of_lt hlt]

theorem toNat_vpn (va : Word) (level : Nat) : (vpn va level).toNat = va.toNat / 2 ^ (12 + 9 * level) % 2 ^ 9 :=
  toNat_field va _ (by decide)

/-- The offset of a level's entry in its table. -/
theorem vpn_mul_eight (va : Word) (level : Nat) :
    vpn va level * 8 = BitVec.ofNat 64 (va.toNat / 2 ^ (12 + 9 * level) % 512 * 8) := by
  apply BitVec.eq_of_toNat_eq
  rw [BitVec.toNat_mul, toNat_vpn, BitVec.toNat_ofNat]
  rfl

/-- The address of a level's entry in the table a pointer names. -/
theorem pteNext_add_vpn (p va : Word) (level : Nat) :
    pteNext p + vpn va level * 8 =
      BitVec.ofNat 64 (p.toNat / 2 ^ 10 % 2 ^ 44 * 4096 + va.toNat / 2 ^ (12 + 9 * level) % 512 * 8) := by
  have hn : pteNext p = BitVec.ofNat 64 (p.toNat / 2 ^ 10 % 2 ^ 44 * 4096) := by
    apply BitVec.eq_of_toNat_eq
    rw [pteNext, BitVec.toNat_shiftLeft, toNat_field p 10 (by decide), Nat.shiftLeft_eq, BitVec.toNat_ofNat]
  rw [hn, vpn_mul_eight, BitVec.ofNat_add]

theorem rootEntry_eq (root va : Word) :
    root + BitVec.ofNat 64 (va.toNat / 2 ^ 30 % 512 * 8) = root + vpn va 2 * 8 := by
  rw [vpn_mul_eight]

theorem levelOneEntry_eq (p va : Word) :
    BitVec.ofNat 64 (p.toNat / 2 ^ 10 % 2 ^ 44 * 4096 + va.toNat / 2 ^ 21 % 512 * 8) = pteNext p + vpn va 1 * 8 :=
  (pteNext_add_vpn p va 1).symm

theorem levelZeroEntry_eq (p va : Word) :
    BitVec.ofNat 64 (p.toNat / 2 ^ 10 % 2 ^ 44 * 4096 + va.toNat / 2 ^ 12 % 512 * 8) = pteNext p + vpn va 0 * 8 :=
  (pteNext_add_vpn p va 0).symm

/-! ## Frames as numbers (R154) -/

/-- A field put above a smaller value is a sum. -/
theorem toNat_shiftLeft_or {a b : Word} {n : Nat} (ha : a.toNat * 2 ^ n < 2 ^ 64) (hb : b.toNat < 2 ^ n) :
    (a <<< n ||| b).toNat = a.toNat * 2 ^ n + b.toNat := by
  rw [BitVec.toNat_or, BitVec.toNat_shiftLeft, Nat.shiftLeft_eq, Nat.mod_eq_of_lt ha, ← Nat.shiftLeft_eq,
    ← Nat.shiftLeft_add_eq_or_of_lt hb]

/-- The four fields of a physical address: three page numbers and the offset. -/
theorem toNat_address (a : BitVec 26) (b c : BitVec 9) (d : BitVec 12) :
    (a.setWidth 64 <<< 30 ||| b.setWidth 64 <<< 21 ||| c.setWidth 64 <<< 12 ||| d.setWidth 64 : Word).toNat =
      a.toNat * 2 ^ 30 + b.toNat * 2 ^ 21 + c.toNat * 2 ^ 12 + d.toNat := by
  have ha : (a.setWidth 64).toNat = a.toNat := BitVec.toNat_setWidth_of_le (by decide)
  have hb : (b.setWidth 64).toNat = b.toNat := BitVec.toNat_setWidth_of_le (by decide)
  have hc : (c.setWidth 64).toNat = c.toNat := BitVec.toNat_setWidth_of_le (by decide)
  have hd : (d.setWidth 64).toNat = d.toNat := BitVec.toNat_setWidth_of_le (by decide)
  have h1 : (c.setWidth 64 <<< 12 ||| d.setWidth 64 : Word).toNat = c.toNat * 2 ^ 12 + d.toNat := by
    rw [toNat_shiftLeft_or (by omega) (by omega), hc, hd]
  have h2 : (b.setWidth 64 <<< 21 ||| (c.setWidth 64 <<< 12 ||| d.setWidth 64) : Word).toNat =
      b.toNat * 2 ^ 21 + (c.toNat * 2 ^ 12 + d.toNat) := by
    rw [toNat_shiftLeft_or (by omega) (by omega), hb, h1]
  rw [BitVec.or_assoc, BitVec.or_assoc, toNat_shiftLeft_or (by omega) (by omega), ha, h2]
  omega

/-- A leaf at level 2 gives a frame of 1 GiB. -/
theorem toNat_leafAddress_two (p va : Word) :
    (leafAddress p va 2).toNat = p.toNat / 2 ^ 28 % 2 ^ 26 * 2 ^ 30 + va.toNat % 2 ^ 30 := by
  refine (toNat_address _ _ _ _).trans ?_
  simp only [BitVec.extractLsb'_toNat, Nat.shiftRight_eq_div_pow]
  omega

/-- A leaf at level 1 gives a frame of 2 MiB. -/
theorem toNat_leafAddress_one (p va : Word) :
    (leafAddress p va 1).toNat = p.toNat / 2 ^ 19 % 2 ^ 35 * 2 ^ 21 + va.toNat % 2 ^ 21 := by
  refine (toNat_address _ _ _ _).trans ?_
  simp only [BitVec.extractLsb'_toNat, Nat.shiftRight_eq_div_pow]
  omega

/-- A leaf at level 0 gives a frame of 4 KiB. -/
theorem toNat_leafAddress_zero (p va : Word) :
    (leafAddress p va 0).toNat = p.toNat / 2 ^ 10 % 2 ^ 44 * 4096 + va.toNat % 4096 := by
  refine (toNat_address _ _ _ _).trans ?_
  simp only [BitVec.extractLsb'_toNat, Nat.shiftRight_eq_div_pow]
  omega

/-! ## The table followed (R150) -/

/-- Settles O36: at each level `walk_leaf` with the frame as a number, or `walk_pointer_succ` to the next. -/
theorem translationFollowsTheTable : Obligations.TranslationFollowsTheTable := by
  intro s va kind
  refine ⟨fun h => translate_pagingOff h va kind, fun hp => ?_⟩
  simp only [translate_pagingOn hp, rootEntry_eq, levelOneEntry_eq, levelZeroEntry_eq]
  intro p2 h2 v2 w2
  have hv2 := (pteValid_iff p2).2 ⟨v2, w2⟩
  refine ⟨fun hl => ⟨_, walk_leaf kind h2 hv2 ((pteLeaf_iff p2).2 hl), toNat_leafAddress_two p2 va⟩, ?_⟩
  intro r2 x2 p1 h1 v1 w1
  have hv1 := (pteValid_iff p1).2 ⟨v1, w1⟩
  rw [walk_pointer_succ kind h2 hv2 ((not_pteLeaf_iff p2).2 ⟨r2, x2⟩)]
  refine ⟨fun hl => ⟨_, walk_leaf kind h1 hv1 ((pteLeaf_iff p1).2 hl), toNat_leafAddress_one p1 va⟩, ?_⟩
  intro r1 x1 p0 h0 v0 w0 hl
  rw [walk_pointer_succ kind h1 hv1 ((not_pteLeaf_iff p1).2 ⟨r1, x1⟩)]
  exact ⟨_, walk_leaf kind h0 ((pteValid_iff p0).2 ⟨v0, w0⟩) ((pteLeaf_iff p0).2 hl), toNat_leafAddress_zero p0 va⟩

/-- A pointer is valid and no leaf: V = 1 and R = W = X = 0 (R153). -/
theorem pte_pointer {p : Word} (v : p.getLsbD 0 = true) (r : p.getLsbD 1 = false) (w : p.getLsbD 2 = false)
    (x : p.getLsbD 3 = false) : pteValid p = true ∧ pteLeaf p = false :=
  ⟨(pteValid_iff p).2 ⟨v, fun h => absurd (w ▸ h) Bool.false_ne_true⟩, (not_pteLeaf_iff p).2 ⟨r, x⟩⟩

/-- Settles O37: each clause is one branch of the walk, at the table the pointers above it lead to. -/
theorem translationFaults : Obligations.TranslationFaults := by
  refine ⟨fun s va a kind level => ⟨walk_unreadable kind, fun p h hv => walk_invalid kind h hv, ?_⟩,
    fun s va kind e h => translate_error h, ?_⟩
  · rintro p h v r w x rfl
    obtain ⟨hv, hl⟩ := pte_pointer v r w x
    exact walk_pointer_zero kind h hv hl
  · intro s va kind access page hp ha hpg
    obtain rfl : access = kind.accessFault := by rw [ha]; cases kind <;> rfl
    obtain rfl : page = kind.pageFault := by rw [hpg]; cases kind <;> rfl
    simp only [translate_pagingOn hp, rootEntry_eq, levelOneEntry_eq, levelZeroEntry_eq]
    refine ⟨walk_unreadable kind, fun p2 h2 => ⟨walk_invalid kind h2, fun v2 r2 w2 x2 => ?_⟩⟩
    obtain ⟨hv2, hl2⟩ := pte_pointer v2 r2 w2 x2
    rw [walk_pointer_succ kind h2 hv2 hl2]
    refine ⟨walk_unreadable kind, fun p1 h1 => ⟨walk_invalid kind h1, fun v1 r1 w1 x1 => ?_⟩⟩
    obtain ⟨hv1, hl1⟩ := pte_pointer v1 r1 w1 x1
    rw [walk_pointer_succ kind h1 hv1 hl1]
    refine ⟨walk_unreadable kind, fun p0 h0 => ⟨walk_invalid kind h0, fun v0 r0 w0 x0 => ?_⟩⟩
    obtain ⟨hv0, hl0⟩ := pte_pointer v0 r0 w0 x0
    exact walk_pointer_zero kind h0 hv0 hl0

/-! ## What translation depends on (R151, R156, R157) -/

/-- A page number at level 0, 1 or 2 lies in the low 39 bits. -/
theorem vpn_congr {va va' : Word} (h : va.toNat % 2 ^ 39 = va'.toNat % 2 ^ 39) {level : Nat} (hl : level ≤ 2) :
    vpn va level = vpn va' level := by
  apply BitVec.eq_of_toNat_eq
  rw [toNat_vpn, toNat_vpn]
  interval_cases level <;> omega

/-- So do the bits of the virtual address in a leaf's address. -/
theorem leafAddress_congr {va va' : Word} (h : va.toNat % 2 ^ 39 = va'.toNat % 2 ^ 39) (p : Word) {level : Nat}
    (hl : level ≤ 2) : leafAddress p va level = leafAddress p va' level := by
  apply BitVec.eq_of_toNat_eq
  interval_cases level
  · rw [toNat_leafAddress_zero, toNat_leafAddress_zero]; omega
  · rw [toNat_leafAddress_one, toNat_leafAddress_one]; omega
  · rw [toNat_leafAddress_two, toNat_leafAddress_two]; omega

/-- A walk from level 2 or below depends on the low 39 bits of the address alone. -/
theorem walk_low_bits {va va' : Word} (h : va.toNat % 2 ^ 39 = va'.toNat % 2 ^ 39) (s : State) (kind : Access)
    {level : Nat} (hl : level ≤ 2) (a : Word) : walk s va kind level a = walk s va' kind level a := by
  induction level generalizing a with
  | zero => unfold walk; rw [vpn_congr h hl]; simp only [leafAddress_congr h _ hl]
  | succ n ih =>
    unfold walk
    rw [vpn_congr h hl]
    simp only [leafAddress_congr h _ hl, ih (Nat.le_of_succ_le hl)]

/-- Settles O38: the walk's low bits, then the state's parts it reads. -/
theorem translationIsBlind : Obligations.TranslationIsBlind := by
  intro s t va va' kind kind' hs ht hroot hmem hclint hcfg hva
  refine ⟨?_, fun pa h => translate_ok_kind kind' h⟩
  calc translate va kind s = walk s va kind 2 s.ptRoot := translate_pagingOn hs va kind
    _ = walk s va' kind 2 s.ptRoot := walk_low_bits hva s kind (Nat.le_refl 2) _
    _ = translate va' kind s := (translate_pagingOn hs va' kind).symm
    _ = translate va' kind t := (translate_congr hmem hclint hcfg (ht.trans hs.symm) hroot va' kind).symm

end Sys2Proof.Machine
end

section
/-! PROOFS. The statement about the host agent: what its moves do, what a point of a step lets in, and the RAMs it can see. -/

namespace Sys2Proof.Machine

/-! ## Moves (R126, R138) -/

theorem hostMove_uartByte_blocked {s : State} (b : Byte) (h : s.uartRx = true) : hostMove (.uartByte b) s = none :=
  if_pos h

theorem hostMove_uartByte_open {s : State} (b : Byte) (h : s.uartRx = false) :
    hostMove (.uartByte b) s = some (uartPushByte b s) :=
  if_neg (by rw [h]; exact Bool.false_ne_true)

/-- A delivered byte stands in RHR, and LSR.RX is set (R126). -/
theorem uartByte_uartPushByte (b : Byte) (s : State) (k : Nat) :
    (uartPushByte b s).uartByte k = if k = 0 then b else if k = 5 then s.uartByte 5 ||| 0x01#8 else s.uartByte k := by
  show ((s.setUartByte 0 b).setUartByte 5 (s.uartByte 5 ||| 0x01#8)).uartByte k = _
  rw [uartByte_setUartByte, uartByte_setUartByte]
  by_cases h : k = 5
  · subst h; rfl
  · rw [if_neg h, if_neg h]

/-! ## A point of a step (R171) -/

theorem letHostIn_stopped {s : State} (h : s.status ≠ .running) : letHostIn s = s := if_neg h

theorem letHostIn_nil {s : State} (h : s.hostSchedule = []) : letHostIn s = s := by
  unfold letHostIn
  rw [h]
  split <;> rfl

theorem letHostIn_cons {s : State} {ms : List HostMove} {points : List (List HostMove)} (h : s.status = .running)
    (hs : s.hostSchedule = ms :: points) :
    letHostIn s = { (letIn ms s).1 with hostSchedule := carryOver (letIn ms s).2 points } := by
  unfold letHostIn
  rw [if_pos h, hs]

/-- The bytes of a point that wait: all while LSR.RX is set, else all but the first (R126). -/
def waitingBytes (s : State) (ms : List HostMove) : List Byte := if s.uartRx then bytesOf ms else (bytesOf ms).tail

/-- The UART after the moves of a point: the first byte is delivered if LSR.RX is clear (R126). -/
def uartAfter (s : State) (ms : List HostMove) : Uart :=
  match s.uartRx, bytesOf ms with
  | false, b :: _ => (uartPushByte b s).uart
  | _, _ => s.uart

theorem uartAfter_of_no_byte {s : State} {ms : List HostMove} (h : s.uartRx = true ∨ bytesOf ms = []) :
    uartAfter s ms = s.uart ∧ waitingBytes s ms = bytesOf ms := by
  unfold uartAfter waitingBytes
  obtain h | h := h
  · rw [h]
    exact ⟨rfl, rfl⟩
  · rw [h]
    cases s.uartRx <;> exact ⟨rfl, rfl⟩

theorem uartAfter_of_byte {s : State} {ms : List HostMove} {b : Byte} {bs : List Byte} (hrx : s.uartRx = false)
    (hb : bytesOf ms = b :: bs) : uartAfter s ms = (uartPushByte b s).uart ∧ waitingBytes s ms = bs := by
  unfold uartAfter waitingBytes
  rw [hrx, hb]
  exact ⟨rfl, rfl⟩

/-- The moves of a point in closed form. -/
theorem letIn_eq (ms : List HostMove) (s : State) :
    letIn ms s = ({ s with uart := uartAfter s ms, kbdQueue := s.kbdQueue ++ scancodesOf ms },
      (waitingBytes s ms).map .uartByte) := by
  cases hrx : s.uartRx with
  | true =>
    obtain ⟨hwait, hstate⟩ := letIn_blocked ms s hrx
    obtain ⟨hu, hw⟩ := uartAfter_of_no_byte (ms := ms) (.inl hrx)
    rw [hu, hw]
    exact Prod.ext hstate hwait
  | false =>
    obtain ⟨hnone, hsome⟩ := letIn_open ms s hrx
    cases hb : bytesOf ms with
    | nil =>
      obtain ⟨hu, hw⟩ := uartAfter_of_no_byte (s := s) (.inr hb)
      rw [hu, hw, hb]
      exact Prod.ext (hnone hb).2 (hnone hb).1
    | cons b bs =>
      obtain ⟨hu, hw⟩ := uartAfter_of_byte hrx hb
      rw [hu, hw]
      exact Prod.ext (hsome b bs hb).2 (hsome b bs hb).1

/-! ## The RAMs of a poll (R172, R433) -/

/-- A poll of `p`, the timer compared, runs a transfer of the image to RAM (R431 to R433). -/
structure TransfersToRam (p : State) (img : List Byte) : Prop where
  image : p.diskBacking = some img
  enabled : pollBlocked p = false
  quiet : p.uart.interrupting = false
  armed : p.disk.notify ≠ notifyIdle
  toRam : p.disk.direction ≠ 1
  fits : p.disk.start + p.disk.bufLen.toNat ≤ img.length

theorem timerCompare_uart (s : State) : (timerCompare s).uart = s.uart := by rw [timerCompare_rest]

theorem timerCompare_disk (s : State) : (timerCompare s).disk = s.disk := by rw [timerCompare_rest]

/-- A copy to RAM shows the RAMs of its bytes. -/
theorem dmaCopyViews_toRam {s : State} {img : List Byte} (himg : s.diskBacking = some img) (hdir : s.disk.direction ≠ 1)
    (hfit : s.disk.start + s.disk.bufLen.toNat ≤ img.length) :
    dmaCopyViews s = dmaRamViews ((img.drop s.disk.start).take s.disk.bufLen.toNat) s.disk.bufAddr s := by
  unfold dmaCopyViews
  simp only [himg]
  rw [if_neg (Nat.not_lt.2 hfit), if_neg hdir]

/-- A poll that runs a transfer to RAM shows the RAMs of its bytes. -/
theorem pollViews_of_transfer {s p : State} {img : List Byte} (hp : p = timerCompare s) (h : TransfersToRam p img) :
    pollViews s = dmaRamViews ((img.drop p.disk.start).take p.disk.bufLen.toNat) p.disk.bufAddr
      { p with disk := { p.disk with notify := notifyIdle } } := by
  subst hp
  obtain ⟨himg, hen, hq, harm, hdir, hfit⟩ := h
  rw [timerCompare_uart] at hq
  rw [timerCompare_disk] at harm
  unfold pollViews
  rw [if_neg (by simp [hen, hq, harm])]
  exact dmaCopyViews_toRam himg hdir hfit

/-- Any other poll shows no RAM but the one it found. -/
theorem pollViews_of_no_transfer {s : State} (h : ∀ img, ¬ TransfersToRam (timerCompare s) img) : pollViews s = [] := by
  unfold pollViews
  split
  · rfl
  · rename_i hrun
    simp only [Bool.or_eq_true, not_or, Bool.not_eq_true, beq_eq_false_iff_ne] at hrun
    obtain ⟨⟨hen, hq⟩, harm⟩ := hrun
    rw [← timerCompare_uart] at hq
    rw [← timerCompare_disk] at harm
    unfold dmaViews dmaCopyViews
    simp only
    split
    · rfl
    · rename_i img himg
      split
      · rfl
      · rename_i hfit
        split
        · rfl
        · rename_i hdir
          exact absurd ⟨himg, hen, hq, harm, hdir, Nat.not_lt.1 hfit⟩ (h img)

/-- The RAMs of a transfer from an image: one after each byte stored, to the last or the one that fails. -/
theorem dmaRamViews_image (img : List Byte) (start len : Nat) (addr : Word) (s : State) (h : start + len ≤ img.length) :
    ∃ r m, Passes (transferStore img start addr) s r m ∧
      dmaRamViews ((img.drop start).take len) addr s = (List.range m).map (fun k => (r (k + 1)).mem) ∧
      (m = len ∨ m < len ∧ transferStore img start addr m (r m) = none) := by
  obtain ⟨r, m, hp, hv, he⟩ := dmaToRam_spec ((img.drop start).take len) addr s
  have hlen : ((img.drop start).take len).length = len := by
    rw [List.length_take, List.length_drop]
    omega
  rw [hlen] at he
  obtain ⟨hm, _⟩ | ⟨hm, hf, _⟩ := he
  · exact ⟨r, m, hp.image (Nat.le_of_eq hm), hv, .inl hm⟩
  · exact ⟨r, m, hp.image (Nat.le_of_lt hm), hv, .inr ⟨hm, by rw [← transferStore_image img start len m addr _ hm, hf]⟩⟩

/-! ## The RAMs of a step (R172) -/

/-- The RAMs the host sees after an execution that ended in `u`. -/
def viewsAfter (u : State) : List Memory := if u.status = .running then pollViews (letHostIn u) else []

theorem ramViews_stopped {s : State} (h : s.status ≠ .running) : ramViews s = [s.mem] := if_neg h

theorem ramViews_running {s u : State} (h : s.status = .running) (hu : execution s = .next u) :
    ramViews s = s.mem :: u.mem :: viewsAfter u := by
  unfold ramViews
  rw [if_pos h, hu]
  rfl

/-- A step of a running block is an execution and the end of the step. -/
theorem step_running {s t : State} (h : s.status = .running) (ht : step s = .next t) :
    ∃ u, execution s = .next u ∧ t = endOfStep u := by
  unfold step at ht
  rw [if_pos h] at ht
  cases hu : execution s with
  | next u =>
    rw [hu] at ht
    cases ht
    exact ⟨u, rfl, rfl⟩
  | fault r => rw [hu] at ht; cases ht
  | refused r => rw [hu] at ht; cases ht

/-- The last RAM of a step is the one it leaves. -/
theorem viewsAfter_last (u : State) : (u.mem :: viewsAfter u).getLast? = some (endOfStep u).mem := by
  unfold viewsAfter
  obtain ⟨hrun, e⟩ | ⟨hrun, e⟩ := endOfStep_cases u
  · rw [if_pos hrun, e, letHostIn_mem, ← pollViews_last, letHostIn_mem]
  · rw [if_neg hrun, e]
    rfl

theorem fetch_pc {s f : State} {w : Word32} (h : fetch s = .ok (w, f)) : f.pc = s.pc := by
  obtain ⟨e, he⟩ | ⟨w', pa, v, u, hf, hb⟩ := fetch_cases s
  · cases he.symm.trans h
  · cases hf.symm.trans h
    rw [busLoad_rest hb]

/-- An execution whose word does not decode leaves RAM. -/
theorem execution_mem_of_not_decoded {s u : State} (hu : execution s = .next u)
    (h : ∀ w f i, fetch s = .ok (w, f) → decodeWord w ≠ .ok i) : u.mem = s.mem := by
  obtain hm | ⟨w, f, i, _, _, _, hf, hd, _⟩ := execution_mem hu
  · exact hm
  · exact absurd hd (h w f i hf)

/-- An execution of a decoded word changes at most the bytes of its store target, where the target translates and a bus access there
succeeds. -/
theorem execution_mem_of_decoded {s u f : State} {w : Word32} {i : Instr} (hu : execution s = .next u)
    (hf : fetch s = .ok (w, f)) (hd : decodeWord w = .ok i) :
    u.mem = s.mem ∨ ∃ va wd pa, storeTarget { f with pc := s.pc + 4 } i = some (va, wd) ∧
      translate va .store { f with pc := s.pc + 4 } = .ok pa ∧ busLoad pa wd { f with pc := s.pc + 4 } ≠ none ∧
      ∀ a, (a < pa.toNat ∨ pa.toNat + wd.bytes ≤ a) → Cells.read u.mem a = Cells.read s.mem a := by
  obtain hm | ⟨w', f', i', va, wd, pa, hf', hd', htgt, htr, hb, hm⟩ := execution_mem hu
  · exact .inl hm
  · cases hf.symm.trans hf'
    cases hd.symm.trans hd'
    rw [State.setPc, fetch_pc hf] at htgt htr hb
    exact .inr ⟨va, wd, pa, htgt, htr, hb, hm⟩

/-- Without a transfer to RAM the host sees no RAM after the execution's. -/
theorem viewsAfter_of_no_transfer {u : State}
    (h : ∀ img, ¬ (u.status = .running ∧ TransfersToRam (timerCompare (letHostIn u)) img)) : viewsAfter u = [] := by
  unfold viewsAfter
  split
  · rename_i hrun
    exact pollViews_of_no_transfer fun img himg => h img ⟨hrun, himg⟩
  · rfl

/-- Of a transfer to RAM the host sees RAM after each byte stored, to the last or the one that fails. -/
theorem viewsAfter_of_transfer {u p : State} {img : List Byte} (hp : p = timerCompare (letHostIn u))
    (hrun : u.status = .running) (h : TransfersToRam p img) :
    ∃ r m, Passes (transferStore img p.disk.start p.disk.bufAddr) { p with disk := { p.disk with notify := notifyIdle } } r m ∧
      viewsAfter u = (List.range m).map (fun k => (r (k + 1)).mem) ∧
      (m = p.disk.bufLen.toNat ∨
        m < p.disk.bufLen.toNat ∧ transferStore img p.disk.start p.disk.bufAddr m (r m) = none) := by
  unfold viewsAfter
  rw [if_pos hrun, pollViews_of_transfer hp h]
  exact dmaRamViews_image img _ _ _ _ h.fits

/-- Settles O58: `letIn_eq` for a point, `execution_mem_of_decoded` for RAM after the execution, and the views of a transfer for the RAMs
after it. -/
theorem hostMovesDeliver : Obligations.HostMovesDeliver := by
  refine ⟨fun s b v => ⟨hostMove_uartByte_blocked b, fun h => ?_, rfl, rfl⟩, ?_, ?_, fun s h => ramViews_stopped h, ?_⟩
  · exact ⟨_, hostMove_uartByte_open b h, rfl, uartByte_uartPushByte b s⟩
  · rintro s (h | h)
    · exact letHostIn_stopped h
    · exact letHostIn_nil h
  · intro s ms points hrun hs
    refine ⟨_, waitingBytes s ms, letHostIn_cons hrun hs, ?_⟩
    rw [letIn_eq]
    refine ⟨rfl, fun h => ?_, fun h => ?_, uartAfter_of_no_byte, fun hrx b bs hb => ?_⟩
    · simp only [h, carryOver, List.map_nil, if_true]
    · simp only [carryOver, List.map_eq_nil_iff, h, if_false]
    · obtain ⟨hu, hw⟩ := uartAfter_of_byte hrx hb
      refine ⟨congrArg Uart.interrupting hu, hw, fun k => ?_⟩
      exact (congrArg (fun d : Uart => Cells.read d.bytes k) hu).trans (uartByte_uartPushByte b s k)
  · intro s t hrun ht
    obtain ⟨u, hu, rfl⟩ := step_running hrun ht
    refine ⟨u, viewsAfter u, hu, ramViews_running hrun hu, ?_, execution_mem_of_not_decoded hu, ?_, ?_⟩
    · rw [List.getLast?_cons_cons, viewsAfter_last]
    · rintro w f _ i hf hd rfl
      obtain hm | ⟨va, wd, pa, htgt, htr, hb, hm⟩ := execution_mem_of_decoded hu hf hd
      · exact ⟨fun _ => hm, fun _ _ _ => ⟨fun _ _ => hm, fun _ _ => ⟨fun _ => hm, fun a _ => by rw [hm]⟩⟩⟩
      · refine ⟨fun h => (by cases h.symm.trans htgt), fun va' wd' htgt' => ?_⟩
        cases htgt.symm.trans htgt'
        refine ⟨fun e he => (by cases he.symm.trans htr), fun pa' htr' => ?_⟩
        cases htr.symm.trans htr'
        exact ⟨fun h => absurd h hb, hm⟩
    · rintro p len start hp rfl rfl
      rw [← toNat_append32]
      refine ⟨fun h => ?_, fun img himg hur hen hq harm hdir hfit => ?_⟩
      · refine viewsAfter_of_no_transfer fun img => ?_
        rw [← hp]
        rintro ⟨hur, himg, hen, hq, harm, hdir, hfit⟩
        exact h img himg ⟨hur, hen, hq, harm, hdir, hfit⟩
      · exact viewsAfter_of_transfer hp hur ⟨himg, hen, hq, harm, hdir, hfit⟩

end Sys2Proof.Machine
end

section
/-! PROOFS. The statements about the encoding (30_encoding.md): the rows share no word, so a word decodes to an instruction exactly when it
fits the row that builds it; each encoded word fits its instruction's row, and each row builds only instructions whose encoding is the
word. -/

namespace Sys2Proof.Laws.EncodedWordFits

/-- The per-instruction lemmas, in the order of the constructors of Instr. -/
theorem of_instr (i : Instr) : Statement i :=
  Instr.rec lui auipc jal jalr beq bne blt bge bltu bgeu lb lh lw ld lbu lhu lwu sb sh sw sd
    addi slti sltiu xori ori andi slli srli srai add sub sll slt sltu xor srl sra or and
    addiw slliw srliw sraiw addw subw sllw srlw sraw
    mul mulh mulhsu mulhu div divu rem remu mulw divw divuw remw remuw
    amoswapW amoaddW amoxorW amoandW amoorW amominW amomaxW amominuW amomaxuW
    amoswapD amoaddD amoxorD amoandD amoorD amominD amomaxD amominuD amomaxuD
    fence ecall ebreak sret mret sfenceVma csrrw csrrs csrrc csrrwi csrrsi csrrci i

end Sys2Proof.Laws.EncodedWordFits

namespace Sys2Proof

/-! ## Disjoint rows (R187, R188) -/

/-- Settles O3: any two rows' patterns differ at a bit both masks cover, so `not_both_fit`. -/
theorem opcodeRowsAreDisjoint : Obligations.OpcodeRowsAreDisjoint := by
  have patterns_differ : rows.Pairwise fun a b => (a.mask &&& b.mask) &&& (a.pattern ^^^ b.pattern) ≠ 0 := by decide
  exact ⟨rfl, patterns_differ.imp not_both_fit⟩

/-- A word fits one row at most. -/
theorem row_eq_of_fits {a b : Row} {w : Word32} (ha : a ∈ rows) (hb : b ∈ rows) (hfa : a.fits w = true) (hfb : b.fits w = true) :
    a = b := by
  by_contra hne
  have symm : Std.Symm fun a b : Row => ∀ v, ¬ (a.fits v = true ∧ b.fits v = true) := ⟨fun _ _ h v hv => h v hv.symm⟩
  exact opcodeRowsAreDisjoint.2.forall ha hb hne w ⟨hfa, hfb⟩

/-- What the decoder answers, by the rows and not by their order. -/
theorem decodeWord_eq_ok_iff {w : Word32} {i : Instr} :
    decodeWord w = .ok i ↔ ∃ r ∈ rows, r.fits w = true ∧ r.build w = i := by
  unfold decodeWord
  cases hf : rows.find? fun r => r.fits w with
  | none =>
    constructor
    · rintro ⟨⟩
    · rintro ⟨r, hr, hw, -⟩
      exact absurd hw (List.find?_eq_none.1 hf r hr)
  | some r =>
    have hr := List.mem_of_find?_eq_some hf
    have hw : r.fits w = true := List.find?_some (p := fun r : Row => r.fits w) hf
    constructor
    · rintro ⟨⟩
      exact ⟨r, hr, hw, rfl⟩
    · rintro ⟨q, hq, hqw, rfl⟩
      rw [row_eq_of_fits hr hq hw hqw]

/-! ## From an instruction to its bytes and back (R180) -/

theorem wordOfBytes_extractLsb' (w : Word32) :
    wordOfBytes (w.extractLsb' 0 8) (w.extractLsb' 8 8) (w.extractLsb' 16 8) (w.extractLsb' 24 8) = w := by
  apply BitVec.eq_of_getLsbD_eq
  intro i hi
  simp only [wordOfBytes, BitVec.getLsbD_append, BitVec.getLsbD_extractLsb']
  interval_cases i <;> rfl

theorem decode_bytesOfWord {w : Word32} {i : Instr} (h : decodeWord w = .ok i) (rest : List Byte) :
    decode (bytesOfWord w ++ rest) = .ok (i, rest) := by
  simp only [bytesOfWord, List.cons_append, List.nil_append, decode, wordOfBytes_extractLsb', h]

/-- Settles O1: the encoded word fits a row that builds the instruction (`EncodedWordFits.of_instr`), and no other row. -/
theorem decodeOfEncodeIsTheInstruction : Obligations.DecodeOfEncodeIsTheInstruction := by
  intro i rest hwf
  obtain ⟨r, hr, hfits, hbuild⟩ := Laws.EncodedWordFits.of_instr i
  exact decode_bytesOfWord (decodeWord_eq_ok_iff.2 ⟨r, hr, hfits, hbuild hwf⟩) rest

/-! ## A word of a format is the encoding of its fields

The mask of a format covers every bit that is in no field, so the pattern `p` alone gives those bits. -/

section Formats
variable {w p : Word32}

theorem encR_of_fits (h : w &&& 0xFE00707F#32 = p) :
    encR (p.extractLsb' 25 7) (p.extractLsb' 12 3) (p.extractLsb' 0 7) (rdOf w) (rs1Of w) (rs2Of w) = w :=
  encR_fields w _ _ _ (field_of_fits h 25 7 (by decide)) (field_of_fits h 12 3 (by decide)) (field_of_fits h 0 7 (by decide))

theorem encI_of_fits (h : w &&& 0x0000707F#32 = p) :
    encI (p.extractLsb' 12 3) (p.extractLsb' 0 7) (rdOf w) (rs1Of w) (immIOf w) = w :=
  encI_fields w _ _ (field_of_fits h 12 3 (by decide)) (field_of_fits h 0 7 (by decide))

theorem encS_of_fits (h : w &&& 0x0000707F#32 = p) :
    encS (p.extractLsb' 12 3) (p.extractLsb' 0 7) (rs1Of w) (rs2Of w) (immSOf w) = w :=
  encS_fields w _ _ (field_of_fits h 12 3 (by decide)) (field_of_fits h 0 7 (by decide))

theorem encB_of_fits (h : w &&& 0x0000707F#32 = p) :
    encB (p.extractLsb' 12 3) (p.extractLsb' 0 7) (rs1Of w) (rs2Of w) (immBOf w) = w :=
  encB_fields w _ _ (field_of_fits h 12 3 (by decide)) (field_of_fits h 0 7 (by decide))

theorem encU_of_fits (h : w &&& 0x0000007F#32 = p) : encU (p.extractLsb' 0 7) (rdOf w) (immUOf w) = w :=
  encU_fields w _ (field_of_fits h 0 7 (by decide))

theorem encJ_of_fits (h : w &&& 0x0000007F#32 = p) : encJ (p.extractLsb' 0 7) (rdOf w) (immJOf w) = w :=
  encJ_fields w _ (field_of_fits h 0 7 (by decide))

theorem encShift64_of_fits (h : w &&& 0xFC00707F#32 = p) :
    encShift64 (p.extractLsb' 26 6) (p.extractLsb' 12 3) (p.extractLsb' 0 7) (rdOf w) (rs1Of w) (shamt6Of w) = w :=
  encShift64_fields w _ _ _ (field_of_fits h 26 6 (by decide)) (field_of_fits h 12 3 (by decide)) (field_of_fits h 0 7 (by decide))

theorem encShift32_of_fits (h : w &&& 0xFE00707F#32 = p) :
    encShift32 (p.extractLsb' 25 7) (p.extractLsb' 12 3) (p.extractLsb' 0 7) (rdOf w) (rs1Of w) (shamt5Of w) = w :=
  encShift32_fields w _ _ _ (field_of_fits h 25 7 (by decide)) (field_of_fits h 12 3 (by decide)) (field_of_fits h 0 7 (by decide))

theorem encAmo_of_fits (h : w &&& 0xF800707F#32 = p) (hop : p.extractLsb' 0 7 = 0b0101111#7) :
    encAmo (p.extractLsb' 27 5) (p.extractLsb' 12 3) (aqOf w) (rlOf w) (rdOf w) (rs1Of w) (rs2Of w) = w :=
  encAmo_fields w _ _ (field_of_fits h 27 5 (by decide)) (field_of_fits h 12 3 (by decide))
    ((field_of_fits h 0 7 (by decide)).trans hop)

theorem encCsr_of_fits (h : w &&& 0x0000707F#32 = p) (hop : p.extractLsb' 0 7 = 0b1110011#7) :
    encCsr (p.extractLsb' 12 3) (rdOf w) (csrOf w) (rs1Of w) = w :=
  encCsr_fields w _ (field_of_fits h 12 3 (by decide)) ((field_of_fits h 0 7 (by decide)).trans hop)

theorem encCsrI_of_fits (h : w &&& 0x0000707F#32 = p) (hop : p.extractLsb' 0 7 = 0b1110011#7) :
    encCsrI (p.extractLsb' 12 3) (rdOf w) (csrOf w) (uimmOf w) = w :=
  encCsrI_fields w _ (field_of_fits h 12 3 (by decide)) ((field_of_fits h 0 7 (by decide)).trans hop)

end Formats

theorem encFence_of_fits {w : Word32} (h : w &&& 0x0000707F#32 = 0x0000000F#32) :
    encFence (fmOf w) (predOf w) (succOf w) (rs1Of w) (rdOf w) = w :=
  encFence_fields w (field_of_fits h 12 3 (by decide)) (field_of_fits h 0 7 (by decide))

theorem encSfence_of_fits {w : Word32} (h : w &&& 0xFE007FFF#32 = 0x12000073#32) : encSfence (rs1Of w) (rs2Of w) = w :=
  encSfence_fields w (field_of_fits h 25 7 (by decide)) (field_of_fits h 12 3 (by decide)) (field_of_fits h 7 5 (by decide))
    (field_of_fits h 0 7 (by decide))

/-- A row whose mask covers the word fits that word alone. -/
theorem eq_of_fits_allOnes {w p : Word32} (h : w &&& 0xFFFFFFFF#32 = p) : p = w :=
  h.symm.trans BitVec.and_allOnes

/-! ## What each row builds (R188)

A row's pattern is found from its `fits` before the encodings are compared, hence `( … :)`. -/

/-- What the row builds from a word that fits it is well-formed, and its encoding is the word. -/
def Row.KeepsWord (r : Row) : Prop :=
  ∀ w, r.fits w = true → (r.build w).wf = true ∧ encodeWord (r.build w) = w

theorem immBOf_even (w : Word32) : (!(immBOf w).getLsbD 0) = true := by
  simp only [immBOf, BitVec.getLsbD_append]; rfl

theorem immJOf_even (w : Word32) : (!(immJOf w).getLsbD 0) = true := by
  simp only [immJOf, BitVec.getLsbD_append]; rfl

theorem keepsWord_of_mem_rowsUpper : ∀ r ∈ rowsUpper, r.KeepsWord := by
  intro r hr
  fin_cases hr <;> exact fun _ h => ⟨rfl, (encU_of_fits (eq_of_beq h) :)⟩

theorem keepsWord_of_mem_rowsControl : ∀ r ∈ rowsControl, r.KeepsWord := by
  intro r hr
  fin_cases hr
  · exact fun w h => ⟨immJOf_even w, (encJ_of_fits (eq_of_beq h) :)⟩
  · exact fun _ h => ⟨rfl, (encI_of_fits (eq_of_beq h) :)⟩
  all_goals exact fun w h => ⟨immBOf_even w, (encB_of_fits (eq_of_beq h) :)⟩

theorem keepsWord_of_mem_rowsLoadStore : ∀ r ∈ rowsLoadStore, r.KeepsWord := by
  intro r hr
  fin_cases hr
  iterate 7 exact fun _ h => ⟨rfl, (encI_of_fits (eq_of_beq h) :)⟩
  all_goals exact fun _ h => ⟨rfl, (encS_of_fits (eq_of_beq h) :)⟩

theorem keepsWord_of_mem_rowsOpImm : ∀ r ∈ rowsOpImm, r.KeepsWord := by
  intro r hr
  fin_cases hr
  iterate 6 exact fun _ h => ⟨rfl, (encI_of_fits (eq_of_beq h) :)⟩
  all_goals exact fun _ h => ⟨rfl, (encShift64_of_fits (eq_of_beq h) :)⟩

theorem keepsWord_of_mem_rowsOp : ∀ r ∈ rowsOp, r.KeepsWord := by
  intro r hr
  fin_cases hr <;> exact fun _ h => ⟨rfl, (encR_of_fits (eq_of_beq h) :)⟩

theorem keepsWord_of_mem_rowsOp32 : ∀ r ∈ rowsOp32, r.KeepsWord := by
  intro r hr
  fin_cases hr
  · exact fun _ h => ⟨rfl, (encI_of_fits (eq_of_beq h) :)⟩
  iterate 3 exact fun _ h => ⟨rfl, (encShift32_of_fits (eq_of_beq h) :)⟩
  all_goals exact fun _ h => ⟨rfl, (encR_of_fits (eq_of_beq h) :)⟩

theorem keepsWord_of_mem_rowsMulDiv : ∀ r ∈ rowsMulDiv, r.KeepsWord := by
  intro r hr
  fin_cases hr <;> exact fun _ h => ⟨rfl, (encR_of_fits (eq_of_beq h) :)⟩

theorem keepsWord_of_mem_rowsAmoW : ∀ r ∈ rowsAmoW, r.KeepsWord := by
  intro r hr
  fin_cases hr <;> exact fun _ h => ⟨rfl, (encAmo_of_fits (eq_of_beq h) rfl :)⟩

theorem keepsWord_of_mem_rowsAmoD : ∀ r ∈ rowsAmoD, r.KeepsWord := by
  intro r hr
  fin_cases hr <;> exact fun _ h => ⟨rfl, (encAmo_of_fits (eq_of_beq h) rfl :)⟩

theorem keepsWord_of_mem_rowsSystem : ∀ r ∈ rowsSystem, r.KeepsWord := by
  intro r hr
  fin_cases hr
  · exact fun _ h => ⟨rfl, (encFence_of_fits (eq_of_beq h) :)⟩
  iterate 4 exact fun _ h => ⟨rfl, (eq_of_fits_allOnes (eq_of_beq h) :)⟩
  · exact fun _ h => ⟨rfl, (encSfence_of_fits (eq_of_beq h) :)⟩
  iterate 3 exact fun _ h => ⟨rfl, (encCsr_of_fits (eq_of_beq h) rfl :)⟩
  all_goals exact fun _ h => ⟨rfl, (encCsrI_of_fits (eq_of_beq h) rfl :)⟩

theorem keepsWord_of_mem_rows : ∀ r ∈ rows, r.KeepsWord := by
  simp only [rows, List.forall_mem_append]
  exact ⟨⟨⟨⟨⟨⟨⟨⟨⟨keepsWord_of_mem_rowsUpper, keepsWord_of_mem_rowsControl⟩, keepsWord_of_mem_rowsLoadStore⟩,
    keepsWord_of_mem_rowsOpImm⟩, keepsWord_of_mem_rowsOp⟩, keepsWord_of_mem_rowsOp32⟩, keepsWord_of_mem_rowsMulDiv⟩,
    keepsWord_of_mem_rowsAmoW⟩, keepsWord_of_mem_rowsAmoD⟩, keepsWord_of_mem_rowsSystem⟩

/-- Settles O2: the word decodes by a row it fits, and every row keeps the word. -/
theorem encodeOfDecodeIsTheWord : Obligations.EncodeOfDecodeIsTheWord := by
  intro w i h
  obtain ⟨r, hr, hfits, rfl⟩ := decodeWord_eq_ok_iff.1 h
  exact keepsWord_of_mem_rows r hr w hfits

/-! ## The words of the source and the vectors (R190, R195 to R198, V18) -/

/-- Settles O4: each word runs through the table. -/
theorem specWordsDecode : Obligations.SpecWordsDecode := by
  refine ⟨rfl, rfl, rfl, rfl, rfl, rfl, rfl, rfl, fun w hw => ?_⟩
  fin_cases hw <;> rfl

end Sys2Proof
end

section
/-! PROOFS. The statements about loads and stores (40_loads_stores.md): a load after a store, and each instruction as its shared operation,
`loadTo` or `storeFrom`, whose claims are `loadsAs_of` and `storesAs_of`. -/

namespace Sys2Proof.Machine

/-! ## The low bits of a value -/

/-- A value cut to `k` bits and zero-extended, as a number. -/
theorem setWidth_setWidth_eq_ofNat (v : Word) (k : Nat) : (v.setWidth k).setWidth 64 = BitVec.ofNat 64 (v.toNat % 2 ^ k) := by
  rw [← BitVec.toNat_setWidth, BitVec.ofNat_toNat]

/-- The bits of a value cut to its low `k`. -/
theorem getLsbD_lowBits (v : Word) (k i : Nat) :
    (BitVec.ofNat 64 (v.toNat % 2 ^ k)).getLsbD i = (decide (i < k) && v.getLsbD i) := by
  rw [← setWidth_setWidth_eq_ofNat, BitVec.getLsbD_setWidth, BitVec.getLsbD_setWidth]
  cases h : v.getLsbD i
  · simp only [Bool.and_false]
  · simp only [BitVec.lt_of_getLsbD h, decide_true, Bool.true_and]

/-! ## A load after a store (R223) -/

/-- Reading back the `n` bytes just stored gives the value's low `8 * n` bits: the first byte is the value's own, the others are read back
from the value shifted by one byte. -/
theorem Memory.readBytes_writeBytes (n : Nat) (m : Memory) (a : Nat) (v : Word) :
    (m.writeBytes a v n).readBytes a n = BitVec.ofNat 64 (v.toNat % 2 ^ (8 * n)) := by
  induction n generalizing m a v with
  | zero => rw [Nat.mul_zero, Nat.pow_zero, Nat.mod_one]; rfl
  | succ n ih =>
    have first : Cells.read (m.writeBytes a v (n + 1)) a = v.setWidth 8 :=
      Memory.read_writeBytes_inside (n + 1) m a v 0 n.succ_pos
    have others : (m.writeBytes a v (n + 1)).readBytes (a + 1) n = BitVec.ofNat 64 ((v >>> 8).toNat % 2 ^ (8 * n)) :=
      ih _ _ _
    unfold Memory.readBytes
    rw [first, others]
    apply BitVec.eq_of_getLsbD_eq
    intro i hi
    rw [BitVec.getLsbD_or, BitVec.getLsbD_shiftLeft, getLsbD_lowBits, getLsbD_lowBits, BitVec.getLsbD_ushiftRight,
      BitVec.getLsbD_setWidth, BitVec.getLsbD_setWidth]
    by_cases h : i < 8
    · have : i < 8 * (n + 1) := by omega
      simp [h, hi, this]
    · have : i - 8 < 8 * n ↔ i < 8 * (n + 1) := by omega
      simp [h, hi, this, Nat.add_sub_cancel' (Nat.not_lt.1 h)]

/-- Settles O28: the load reads the bytes the store wrote, and leaves the state. -/
theorem storeThenLoadGivesTheValue : Obligations.StoreThenLoadGivesTheValue := by
  intro s t pa v w h ht
  rw [busStore_ram s pa v w h] at ht
  obtain rfl := Option.some.inj ht
  rw [busLoad_ram _ pa w h, Memory.readBytes_writeBytes]

/-! ## Loads (R210 to R217) -/

/-- Settles O39: each load is `loadTo` at its width, with its extension as a number; a sign extension is by definition the
number its low bits stand for. -/
theorem loadResults : Obligations.LoadResults := fun _ _ _ _ =>
  ⟨loadsAs_of rfl fun _ => rfl,
   loadsAs_of rfl fun _ => rfl,
   loadsAs_of rfl fun _ => rfl,
   loadsAs_of rfl fun _ => rfl,
   loadsAs_of rfl fun v => setWidth_setWidth_eq_ofNat v 8,
   loadsAs_of rfl fun v => setWidth_setWidth_eq_ofNat v 16,
   loadsAs_of rfl fun v => setWidth_setWidth_eq_ofNat v 32⟩

/-! ## Stores (R218 to R222) -/

/-- Settles O40: each store is `storeFrom` at its width. -/
theorem storeResults : Obligations.StoreResults := fun _ _ _ _ =>
  ⟨rfl, storesAs_of rfl, storesAs_of rfl, storesAs_of rfl, storesAs_of rfl⟩

end Sys2Proof.Machine
end

section
/-! PROOFS. The statements about integer computation (41_integer_alu.md): each instruction is `writeR` or `writeRR` of one
operator, so what is left of its clause is that the operator's value is the number the rule gives. -/

namespace Sys2Proof.Machine

/-- An instruction whose meaning is `writeR f` computes the value of `f`. -/
theorem computes_of_writeR {i : Instr} {f : Word → Word} {rd rs1 : Reg} {v : Word} {s : State}
    (h : exec i s = .next (writeR f rd rs1 s)) (hv : f (s.reg rs1) = v) : Computes i rd v s :=
  hv ▸ computes_of h

/-- An instruction whose meaning is `writeRR f` computes the value of `f`. -/
theorem computes_of_writeRR {i : Instr} {f : Word → Word → Word} {rd rs1 rs2 : Reg} {v : Word} {s : State}
    (h : exec i s = .next (writeRR f rd rs1 rs2 s)) (hv : f (s.reg rs1) (s.reg rs2) = v) : Computes i rd v s :=
  hv ▸ computes_of h

/-! ## Words as the numbers of R230 to R258 -/

theorem add_imm12_eq_ofInt (a : Word) (imm : BitVec 12) : a + imm12 imm = BitVec.ofInt 64 (a.toNat + imm.toInt) := by
  rw [BitVec.ofInt_add, BitVec.ofInt_natCast, BitVec.ofNat_toNat, BitVec.setWidth_eq]
  rfl

theorem sub_eq_ofInt (a b : Word) : a - b = BitVec.ofInt 64 ((a.toNat : Int) - b.toNat) := by
  rw [BitVec.sub_eq_add_neg, Int.sub_eq_add_neg, BitVec.ofInt_add, BitVec.ofInt_neg]
  simp only [BitVec.ofInt_natCast, BitVec.ofNat_toNat, BitVec.setWidth_eq]

theorem shiftLeft_eq_ofNat {w : Nat} (a : BitVec w) (n : Nat) : a <<< n = BitVec.ofNat w (a.toNat * 2 ^ n) :=
  congrArg (BitVec.ofNat w) (Nat.shiftLeft_eq _ _)

theorem ushiftRight_eq_ofNat {w : Nat} (a : BitVec w) (n : Nat) : a >>> n = BitVec.ofNat w (a.toNat / 2 ^ n) := by
  rw [← Nat.shiftRight_eq_div_pow, ← BitVec.toNat_ushiftRight, BitVec.ofNat_toNat, BitVec.setWidth_eq]

theorem toInt_sshiftRight_eq_div {w : Nat} (a : BitVec w) (n : Nat) : (a.sshiftRight n).toInt = a.toInt / 2 ^ n := by
  rw [BitVec.toInt_sshiftRight, Int.shiftRight_eq_div_pow, Int.natCast_pow, Nat.cast_ofNat]

theorem sshiftRight_eq_ofInt (a : Word) (n : Nat) : a.sshiftRight n = BitVec.ofInt 64 (a.toInt / 2 ^ n) := by
  rw [← toInt_sshiftRight_eq_div, BitVec.ofInt_toInt]

theorem boolWord_slt (a b : Word) : boolWord (a.slt b) = if a.toInt < b.toInt then 1 else 0 := by
  simp only [boolWord, BitVec.slt_iff_toInt_lt]

theorem boolWord_ult (a b : Word) : boolWord (a.ult b) = if a.toNat < b.toNat then 1 else 0 := by
  simp only [boolWord, BitVec.ult_eq_decide, decide_eq_true_eq]

theorem toInt_imm12 (imm : BitVec 12) : (imm12 imm).toInt = imm.toInt :=
  BitVec.toInt_signExtend_of_le (by decide)

theorem shiftAmount6_eq_mod (v : Word) : shiftAmount6 v = v.toNat % 64 := rfl

theorem shiftAmount5_eq_mod (v : Word) : shiftAmount5 v = v.toNat % 32 := rfl

/-! ## The low word of a result (R230) -/

theorem low32_add (a b : Word) : low32 (a + b) = BitVec.ofNat 32 (a.toNat + b.toNat) :=
  BitVec.setWidth_ofNat_of_le (by decide) _

theorem low32_ofInt (n : Int) : low32 (BitVec.ofInt 64 n) = BitVec.ofInt 32 n := by
  unfold low32
  apply BitVec.eq_of_toNat_eq
  rw [BitVec.toNat_setWidth, BitVec.toNat_ofInt, BitVec.toNat_ofInt]
  omega

/-! ## Register-register (R240 to R249) -/

/-- Settles O43: each instruction is `writeRR`, and its operator is the number of its rule. -/
theorem registerAluResults : Obligations.RegisterAluResults := by
  rintro s rd rs1 rs2 _ _ rfl rfl
  exact
    ⟨computes_of_writeRR rfl (BitVec.add_def _ _),
     computes_of_writeRR rfl (sub_eq_ofInt _ _),
     computes_of_writeRR rfl (by rw [shiftAmount6_eq_mod, shiftLeft_eq_ofNat]),
     computes_of_writeRR rfl (boolWord_slt _ _),
     computes_of_writeRR rfl (boolWord_ult _ _),
     computes_of_writeRR rfl rfl,
     computes_of_writeRR rfl (by rw [shiftAmount6_eq_mod, ushiftRight_eq_ofNat]),
     computes_of_writeRR rfl (by rw [shiftAmount6_eq_mod, sshiftRight_eq_ofInt]),
     computes_of_writeRR rfl rfl,
     computes_of_writeRR rfl rfl⟩

/-! ## Register-immediate (R231 to R239) -/

/-- Settles O44: each instruction is `writeR`; an immediate is by definition the word of its signed number. -/
theorem immediateAluResults : Obligations.ImmediateAluResults := by
  rintro s rd rs1 imm shamt _ _ rfl rfl
  exact
    ⟨computes_of_writeR rfl (add_imm12_eq_ofInt _ _),
     computes_of_writeR rfl (by rw [boolWord_slt, toInt_imm12]),
     computes_of_writeR rfl (boolWord_ult _ _),
     computes_of_writeR rfl rfl,
     computes_of_writeR rfl rfl,
     computes_of_writeR rfl rfl,
     computes_of_writeR rfl (shiftLeft_eq_ofNat _ _),
     computes_of_writeR rfl (ushiftRight_eq_ofNat _ _),
     computes_of_writeR rfl (sshiftRight_eq_ofInt _ _)⟩

/-! ## 32-bit forms (R250 to R258) -/

/-- Settles O45: each instruction writes `sext32` of a 32-bit word, by definition the word's signed number; the 32-bit word is
the number of its rule. -/
theorem wordAluResults : Obligations.WordAluResults := by
  rintro s rd rs1 rs2 imm shamt _ _ a rfl rfl ha
  obtain rfl : a = low32 (s.reg rs1) := ha.trans (BitVec.ofNat_toNat 32 _)
  exact
    ⟨computes_of_writeR rfl (congrArg sext32 (by rw [add_imm12_eq_ofInt, low32_ofInt])),
     computes_of_writeR rfl (congrArg sext32 (shiftLeft_eq_ofNat _ _)),
     computes_of_writeR rfl (congrArg sext32 (ushiftRight_eq_ofNat _ _)),
     computes_of_writeR rfl (congrArg (BitVec.ofInt 64) (toInt_sshiftRight_eq_div _ _)),
     computes_of_writeRR rfl (congrArg sext32 (low32_add _ _)),
     computes_of_writeRR rfl (congrArg sext32 (by rw [sub_eq_ofInt, low32_ofInt])),
     computes_of_writeRR rfl (congrArg sext32 (by rw [shiftAmount5_eq_mod, shiftLeft_eq_ofNat])),
     computes_of_writeRR rfl (congrArg sext32 (by rw [shiftAmount5_eq_mod, ushiftRight_eq_ofNat])),
     computes_of_writeRR rfl (congrArg (BitVec.ofInt 64) (by rw [shiftAmount5_eq_mod, toInt_sshiftRight_eq_div]))⟩

end Sys2Proof.Machine
end

section
/-! PROOFS. The statements about multiplication and division (42_multiply_divide.md): each instruction is `writeRR` of one operator
(`writeRRW` for a W form, `writeRR` on the low words), so what is left of its clause is that the operator's value is the number the rule
gives. -/

namespace Sys2Proof.Machine

/-! ## The high multiplies (R282 to R284, R294) -/

/-- A word read as signed, from the word read as unsigned. -/
theorem toInt_eq_toNat_sub (b : Word) : b.toInt = b.toNat - (if b.toInt < 0 then 1 else 0) * 2 ^ 64 := by
  rw [BitVec.toInt_eq_toNat_cond]
  have := b.isLt
  split <;> split <;> omega

/-- The high half of a product with a signed word: it is the unsigned word's less the other factor where the word is negative. -/
theorem ofInt_mul_toInt_ediv (n : Int) (b : Word) :
    BitVec.ofInt 64 (n * b.toInt / 2 ^ 64) =
      BitVec.ofInt 64 (n * b.toNat / 2 ^ 64) - if b.toInt < 0 then BitVec.ofInt 64 n else 0 := by
  have high : n * b.toInt / 2 ^ 64 = n * b.toNat / 2 ^ 64 - n * if b.toInt < 0 then 1 else 0 := by
    conv_lhs => rw [toInt_eq_toNat_sub, mul_sub, ← mul_assoc]
    exact Int.sub_mul_ediv_right _ _ (by decide)
  rw [high, Int.sub_eq_add_neg, BitVec.ofInt_add, BitVec.ofInt_neg, ← BitVec.sub_eq_add_neg]
  split
  · rw [mul_one]
  · rw [mul_zero]
    rfl

theorem mulHigh_eq_mulHighSU_sub (a b : Word) : mulHigh a b = mulHighSU a b - if b.toInt < 0 then a else 0 := by
  have h := ofInt_mul_toInt_ediv a.toInt b
  rwa [BitVec.ofInt_toInt] at h

theorem mulHighSU_eq_mulHighU_sub (a b : Word) : mulHighSU a b = mulHighU a b - if a.toInt < 0 then b else 0 := by
  have h := ofInt_mul_toInt_ediv b.toNat a
  rwa [BitVec.ofInt_natCast 64, BitVec.ofNat_toNat, BitVec.setWidth_eq, mul_comm, mul_comm (b.toNat : Int)] at h

/-- The high half of a product from the partial products of its factors' halves: the middle ones' high halves, and the carry of their low
halves and the lowest one's high half. -/
theorem mul_div_of_halves (ah al bh bl : Nat) :
    (ah * 2 ^ 32 + al) * (bh * 2 ^ 32 + bl) / 2 ^ 64 =
      ah * bh + ah * bl / 2 ^ 32 + al * bh / 2 ^ 32 + (ah * bl % 2 ^ 32 + al * bh % 2 ^ 32 + al * bl / 2 ^ 32) / 2 ^ 32 := by
  have product : (ah * 2 ^ 32 + al) * (bh * 2 ^ 32 + bl) =
      ah * bh * 2 ^ 64 + (ah * bl + al * bh) * 2 ^ 32 + al * bl := by ring
  rw [product]
  omega

/-- Settles O49: the signed high multiplies differ from the unsigned one by a factor for each negative operand, and a word is its two
halves. -/
theorem highMultiplyIdentities : Obligations.HighMultiplyIdentities := by
  intro a b
  refine ⟨?_, mulHighSU_eq_mulHighU_sub a b, ?_⟩
  · rw [mulHigh_eq_mulHighSU_sub, mulHighSU_eq_mulHighU_sub]
  · rintro ah al bh bl rfl rfl rfl rfl
    rw [← mul_div_of_halves, Nat.div_add_mod', Nat.div_add_mod']
    rfl

/-- Settles O46: the operators are by definition the halves of the exact products. -/
theorem multiplyResults : Obligations.MultiplyResults := by
  rintro s rd rs1 rs2 _ _ rfl rfl
  exact
    ⟨computes_of_writeRR rfl rfl,
     computes_of_writeRR rfl rfl,
     computes_of_writeRR rfl rfl,
     computes_of_writeRR rfl rfl,
     computes_of_writeRR rfl rfl⟩

/-! ## Quotients and remainders as numbers (R285 to R288, R290 to R293) -/

/-- Off the overflow case a signed quotient is a signed number of the width. -/
theorem toInt_ofInt_tdiv {w : Nat} {a b : BitVec w} (h : ¬ (a = BitVec.intMin w ∧ b = BitVec.allOnes w)) :
    (BitVec.ofInt w (a.toInt.tdiv b.toInt)).toInt = a.toInt.tdiv b.toInt := by
  rw [← BitVec.neg_one_eq_allOnes] at h
  rw [← BitVec.toInt_sdiv_of_ne_or_ne a b (not_and_or.1 h), BitVec.ofInt_toInt]

/-- A signed remainder is a signed number of the width. -/
theorem toInt_ofInt_tmod {w : Nat} (a b : BitVec w) :
    (BitVec.ofInt w (a.toInt.tmod b.toInt)).toInt = a.toInt.tmod b.toInt := by
  rw [← BitVec.toInt_srem, BitVec.ofInt_toInt]

/-- The operands whose signed quotient is no 32-bit word. -/
theorem overflow32_iff (a b : Word32) :
    a = BitVec.intMin 32 ∧ b = BitVec.allOnes 32 ↔ a.toInt = -2147483648 ∧ b.toInt = -1 := by
  rw [← BitVec.toInt_inj, ← BitVec.toInt_inj]
  rfl

/-- `sext32` of a word is by definition the word's signed number. -/
theorem sext32_eq_ofInt (v : Word32) : sext32 v = BitVec.ofInt 64 v.toInt := rfl

theorem sext32_divSigned (a b : Word32) : sext32 (divSigned a b) =
    if b = 0 then 0xFFFFFFFFFFFFFFFF#64
    else if a.toInt = -2147483648 ∧ b.toInt = -1 then 0xFFFFFFFF80000000#64
    else BitVec.ofInt 64 (a.toInt.tdiv b.toInt) := by
  simp only [divSigned, ← overflow32_iff]
  split
  · rfl
  · split
    · rfl
    · next h => rw [sext32_eq_ofInt, toInt_ofInt_tdiv h]

theorem sext32_remSigned (a b : Word32) : sext32 (remSigned a b) =
    if b = 0 then BitVec.ofInt 64 a.toInt
    else if a.toInt = -2147483648 ∧ b.toInt = -1 then 0
    else BitVec.ofInt 64 (a.toInt.tmod b.toInt) := by
  simp only [remSigned, ← overflow32_iff]
  split
  · rfl
  · split
    · rfl
    · rw [sext32_eq_ofInt, toInt_ofInt_tmod]

theorem sext32_divUnsigned (a b : Word32) : sext32 (divUnsigned a b) =
    if b = 0 then 0xFFFFFFFFFFFFFFFF#64 else BitVec.ofInt 64 (BitVec.ofNat 32 (a.toNat / b.toNat)).toInt :=
  apply_ite sext32 _ _ _

theorem sext32_remUnsigned (a b : Word32) : sext32 (remUnsigned a b) =
    if b = 0 then BitVec.ofInt 64 a.toInt else BitVec.ofInt 64 (BitVec.ofNat 32 (a.toNat % b.toNat)).toInt :=
  apply_ite sext32 _ _ _

/-- Settles O47: at 64 bits the rule is the operator's definition; DIVW widens the 32-bit quotient. -/
theorem divideResults : Obligations.DivideResults := by
  rintro s rd rs1 rs2 _ _ _ _ rfl rfl rfl rfl
  exact
    ⟨computes_of_writeRR rfl rfl,
     computes_of_writeRR rfl rfl,
     computes_of_writeRR rfl (sext32_divSigned _ _)⟩

/-- Settles O48: at 64 bits the rule is the operator's definition; the W forms widen the 32-bit result. -/
theorem remainderResults : Obligations.RemainderResults := by
  rintro s rd rs1 rs2 _ _ _ _ rfl rfl rfl rfl
  exact
    ⟨computes_of_writeRR rfl rfl,
     computes_of_writeRR rfl rfl,
     computes_of_writeRR rfl (sext32_divUnsigned _ _),
     computes_of_writeRR rfl (sext32_remSigned _ _),
     computes_of_writeRR rfl (sext32_remUnsigned _ _)⟩

end Sys2Proof.Machine
end

section
/-! PROOFS. The statements about atomic memory operations (43_atomics.md): each AMO is the template `amo` at its width, whose claim is
`amoAs_of`, so what is left of its clause is that the values it stores and returns are those of its rule. -/

namespace Sys2Proof.Machine

/-! ## The operators as comparisons of numbers (R305 to R322) -/

theorem ite_slt {α : Type} {w : Nat} (a b : BitVec w) (x y : α) :
    (if a.slt b then x else y) = if a.toInt < b.toInt then x else y := by
  simp only [BitVec.slt_iff_toInt_lt]

theorem ite_ult {α : Type} {w : Nat} (a b : BitVec w) (x y : α) :
    (if a.ult b then x else y) = if a.toNat < b.toNat then x else y := by
  simp only [BitVec.ult_eq_decide, decide_eq_true_eq]

/-! ## The two widths (R300, R304) -/

/-- The old word as the parameter extends it: the number its low bits stand for, signed or not. -/
theorem amoExt32_low32 (c : Config) (a : Word) : amoExt32 c (low32 a) =
    if c.amoWExt = .sext then BitVec.ofInt 64 (a.setWidth 32).toInt else BitVec.ofNat 64 (a.toNat % 2 ^ 32) := by
  unfold amoExt32
  cases c.amoWExt
  · rfl
  · exact setWidth_setWidth_eq_ofNat a 32

/-- A word AMO of an operator: the instruction's meaning is `amoW` of a function with the operator's values. -/
theorem amoAs_of_amoW {i : Instr} {op : Word32 → Word32 → Word32} {rd rs1 rs2 : Reg} {s : State}
    (h : ∃ f, exec i s = .next (amoW f rd rs1 rs2 s) ∧ ∀ a b, f a b = op a b) :
    AmoAs i .word (fun a => (op (a.setWidth 32) ((s.reg rs2).setWidth 32)).setWidth 64)
      (fun a => if s.cfg.amoWExt = .sext then BitVec.ofInt 64 (a.setWidth 32).toInt else BitVec.ofNat 64 (a.toNat % 2 ^ 32))
      rd rs1 s := by
  obtain ⟨f, hexec, hop⟩ := h
  exact amoAs_of hexec (fun _ => congrArg zext32 (hop _ _)) (amoExt32_low32 s.cfg)

/-- A doubleword AMO of an operator: the instruction's meaning is `amoD` of a function with the operator's values. -/
theorem amoAs_of_amoD {i : Instr} {op : Word → Word → Word} {rd rs1 rs2 : Reg} {s : State}
    (h : ∃ f, exec i s = .next (amoD f rd rs1 rs2 s) ∧ ∀ a b, f a b = op a b) :
    AmoAs i .double (fun a => op a (s.reg rs2)) (fun a => a) rd rs1 s := by
  obtain ⟨f, hexec, hop⟩ := h
  exact amoAs_of hexec (fun _ => hop _ _) fun _ => rfl

/-- Settles O41: each AMO is `amoW` or `amoD` of its operator, whose value is the one its rule gives. -/
theorem amoResults : Obligations.AmoResults := by
  refine fun s aq rl rd rs1 rs2 => ⟨fun i op h => amoAs_of_amoW ?_, fun i op h => amoAs_of_amoD ?_⟩
  · simp only [List.mem_cons, List.not_mem_nil, or_false, Prod.mk.injEq] at h
    obtain ⟨rfl, rfl⟩ | ⟨rfl, rfl⟩ | ⟨rfl, rfl⟩ | ⟨rfl, rfl⟩ | ⟨rfl, rfl⟩ | ⟨rfl, rfl⟩ | ⟨rfl, rfl⟩ | ⟨rfl, rfl⟩ | ⟨rfl, rfl⟩ := h
    · exact ⟨_, rfl, fun _ _ => rfl⟩
    · exact ⟨_, rfl, BitVec.add_def⟩
    · exact ⟨_, rfl, fun _ _ => rfl⟩
    · exact ⟨_, rfl, fun _ _ => rfl⟩
    · exact ⟨_, rfl, fun _ _ => rfl⟩
    · exact ⟨_, rfl, fun a b => ite_slt a b a b⟩
    · exact ⟨_, rfl, fun a b => ite_slt b a a b⟩
    · exact ⟨_, rfl, fun a b => ite_ult a b a b⟩
    · exact ⟨_, rfl, fun a b => ite_ult b a a b⟩
  · simp only [List.mem_cons, List.not_mem_nil, or_false, Prod.mk.injEq] at h
    obtain ⟨rfl, rfl⟩ | ⟨rfl, rfl⟩ | ⟨rfl, rfl⟩ | ⟨rfl, rfl⟩ | ⟨rfl, rfl⟩ | ⟨rfl, rfl⟩ | ⟨rfl, rfl⟩ | ⟨rfl, rfl⟩ | ⟨rfl, rfl⟩ := h
    · exact ⟨_, rfl, fun _ _ => rfl⟩
    · exact ⟨_, rfl, BitVec.add_def⟩
    · exact ⟨_, rfl, fun _ _ => rfl⟩
    · exact ⟨_, rfl, fun _ _ => rfl⟩
    · exact ⟨_, rfl, fun _ _ => rfl⟩
    · exact ⟨_, rfl, fun a b => ite_slt a b a b⟩
    · exact ⟨_, rfl, fun a b => ite_slt b a a b⟩
    · exact ⟨_, rfl, fun a b => ite_ult a b a b⟩
    · exact ⟨_, rfl, fun a b => ite_ult b a a b⟩

/-! ## A misaligned AMO (R301) -/

/-- Taking a trap is the entry to the mode its delegation names. -/
theorem trapTaken_takeTrap (t : Trap) (epc : Word) (s : State) : TrapTaken t.cause t.isInterrupt epc s (takeTrap t epc s) := by
  unfold TrapTaken
  rw [← delegated_iff]
  obtain ⟨hd, ht⟩ | ⟨hd, ht⟩ := takeTrap_cases t epc s <;> rw [hd, ht]
  · exact ⟨fun _ => enterS_entry t epc s, fun h => absurd rfl h⟩
  · exact ⟨fun h => absurd h Bool.false_ne_true, fun _ => enterM_entry t epc s⟩

/-- An exception that is not fatal is its trap entry at the instruction's own address, and no more (R415, R440). -/
theorem raise_of_not_fatal {e : Exception} (h : e.fatal = false) (s : State) : raise e s = takeTrap (.exception e) (s.pc - 4) s := by
  unfold raise raiseAt
  rw [if_neg (ne_true_of_eq_false h)]
  rfl

/-- Every instruction with an AMO's operands is the AMO template at them (R300). -/
theorem exec_eq_amo_of_amoOperand {i : Instr} {rs1 : Reg} {w : Width} (h : amoOperand i = some (rs1, w)) (s : State) :
    ∃ new ret rd, exec i s = .next (amo w new ret rd rs1 s) := by
  cases i <;> cases h <;> exact ⟨_, _, _, rfl⟩

/-- Settles O42: the template's alignment check comes first, and LoadAddressMisaligned is not fatal. -/
theorem misalignedAmoTraps : Obligations.MisalignedAmoTraps := by
  intro i s rs1 w hop hmis
  obtain ⟨new, ret, rd, hexec⟩ := exec_eq_amo_of_amoOperand hop s
  obtain ⟨-, hraise⟩ := (amo_cases w new ret rd rs1 s).resolve_right fun h => hmis h.1
  rw [hraise, raise_of_not_fatal rfl] at hexec
  exact ⟨_, hexec, trapTaken_takeTrap (.exception .loadAddressMisaligned) _ s⟩

end Sys2Proof.Machine
end

section
/-! PROOFS. The statements about branches and jumps (44_control_transfer.md) and upper immediates (45_upper_immediate.md): each
instruction is `branch`, `jumpTo` or a register write, so what is left of its clause is its condition and its word as a number. -/

namespace Sys2Proof.Machine

/-! ## Addresses and upper immediates as numbers (R18, R183, R338) -/

/-- A displacement from the instruction's own address, which is 4 before the pc. A sign-extended immediate is by definition
`BitVec.ofInt` of its signed number, so this covers imm_B and imm_J. -/
theorem pcCur_add_ofInt (s : State) (n : Int) : s.pcCur + BitVec.ofInt 64 n = BitVec.ofInt 64 ((s.pc.toNat : Int) - 4 + n) := by
  rw [BitVec.ofInt_add]
  exact congrArg (· + BitVec.ofInt 64 n) (sub_eq_ofInt s.pc 4)

theorem pcCur_add_four (s : State) : s.pcCur + 4 = s.pc := BitVec.sub_add_cancel s.pc 4

/-- Clearing bit 0 of a word rounds its number down to an even one (R338). -/
theorem and_not_one_eq_ofNat (v : Word) : v &&& ~~~1#64 = BitVec.ofNat 64 (v.toNat / 2 * 2) :=
  calc v &&& ~~~1#64
    _ = v >>> 1 <<< 1 := by rw [BitVec.shiftLeft_ushiftRight]; rfl
    _ = BitVec.ofNat 64 (v.toNat / 2 * 2) := by
      rw [shiftLeft_eq_ofNat, BitVec.toNat_ushiftRight, Nat.shiftRight_one, Nat.pow_one]

/-- imm_U is its 20 bits' signed number times 2^12 (R350). -/
theorem immUpper_eq_ofInt (up : BitVec 20) : immUpper up = BitVec.ofInt 64 (up.toInt * 4096) :=
  congrArg (BitVec.ofInt 64) (BitVec.toInt_append_zero.trans (Int.mul_comm _ _))

/-! ## The six branches (R330 to R336) -/

/-- An instruction whose meaning is `branch` writes the pc alone: the target where its condition holds, else the pc as it is (R330). -/
theorem exec_eq_of_branch {i : Instr} {c : Word → Word → Bool} {p : Prop} [Decidable p] {rs1 rs2 : Reg} {imm : BitVec 13}
    {s : State} (h : exec i s = .next (branch c rs1 rs2 imm s)) (hc : c (s.reg rs1) (s.reg rs2) = true ↔ p) :
    exec i s = .next { s with pc := if p then BitVec.ofInt 64 ((s.pc.toNat : Int) - 4 + imm.toInt) else s.pc } := by
  rw [h, ← pcCur_add_ofInt]
  unfold branch
  by_cases hp : p
  · rw [if_pos (hc.mpr hp), if_pos hp]; rfl
  · rw [if_neg (mt hc.mp hp), if_neg hp]

/-- Settles O50: each branch is `branch`, whose Boolean condition is the comparison of numbers its rule names. -/
theorem branchResults : Obligations.BranchResults := by
  rintro s rs1 rs2 imm _ _ _ rfl rfl rfl
  exact
    ⟨exec_eq_of_branch rfl beq_iff_eq,
     exec_eq_of_branch rfl bne_iff_ne,
     exec_eq_of_branch rfl BitVec.slt_iff_toInt_lt,
     exec_eq_of_branch rfl (by rw [← BitVec.sle_eq_not_slt, BitVec.sle_iff_toInt_le]),
     exec_eq_of_branch rfl BitVec.ult_iff_toNat_lt,
     exec_eq_of_branch rfl (by rw [← BitVec.ule_eq_not_ult, BitVec.ule_iff_toNat_le])⟩

/-! ## Jumps (R337, R338) and upper immediates (R350, R351) -/

/-- Writing a register and writing the pc commute: they are different parts of the state. -/
theorem setPc_setReg (s : State) (r : Reg) (v p : Word) : (s.setReg r v).setPc p = (s.setPc p).setReg r v := by
  unfold State.setReg
  split <;> rfl

/-- A jump links the address past it and goes to its target, a word that no register write can change any more (R337). -/
theorem writesReg_jumpTo (p : Word) (rd : Reg) (s : State) : WritesReg rd s.pc { s with pc := p } (jumpTo p rd s) := by
  unfold jumpTo
  rw [pcCur_add_four, setPc_setReg]
  exact writesReg_setReg (s.setPc p) rd s.pc

theorem jalrTarget_eq_ofNat (s : State) (rs1 : Reg) (imm : BitVec 12) : effectiveAddress s rs1 imm &&& ~~~1#64 =
    BitVec.ofNat 64 ((BitVec.ofInt 64 ((s.reg rs1).toNat + imm.toInt)).toNat / 2 * 2) := by
  unfold effectiveAddress
  rw [and_not_one_eq_ofNat, add_imm12_eq_ofInt]

/-- Settles O51: a jump is `jumpTo` its target; LUI and AUIPC are register writes of imm_U and of imm_U past the instruction's address. -/
theorem jumpAndUpperImmediateResults : Obligations.JumpAndUpperImmediateResults := by
  intro s rd rs1 imm off up
  refine ⟨⟨_, rfl, ?jal⟩, ⟨_, rfl, ?jalr⟩, ?lui, ?auipc⟩
  case jal =>
    rw [← pcCur_add_ofInt]
    exact writesReg_jumpTo _ rd s
  case jalr =>
    rw [← jalrTarget_eq_ofNat]
    exact writesReg_jumpTo _ rd s
  case lui =>
    rw [← immUpper_eq_ofInt]
    exact computes_of rfl
  case auipc =>
    rw [← pcCur_add_ofInt, ← immUpper_eq_ofInt]
    exact computes_of rfl

end Sys2Proof.Machine
end

section

/-! PROOFS. The statement about the fences (46_fences.md): neither instruction has a meaning that looks at its fields or at the mode
(R355, R357; D8, D14). -/

namespace Sys2Proof.Machine

/-- FENCE, FENCE.TSO and PAUSE among its fields (R355, R356), answers the state it runs in. -/
@[simp] theorem exec_fence (fm pred succ : BitVec 4) (rs1 rd : Reg) (s : State) :
    exec (.fence fm pred succ rs1 rd) s = .next s := rfl

/-- SFENCE.VMA answers the state it runs in, in every mode (R357, D8): there is no TLB to flush (R159). -/
@[simp] theorem exec_sfenceVma (rs1 rs2 : Reg) (s : State) : exec (.sfenceVma rs1 rs2) s = .next s := rfl

/-- Settles O52: both fences answer the state they run in, whatever their fields. -/
theorem fencesChangeNothing : Obligations.FencesChangeNothing :=
  ⟨fun s fm pred succ rs1 rd => exec_fence fm pred succ rs1 rd s, fun s rs1 rs2 => exec_sfenceVma rs1 rs2 s⟩

end Sys2Proof.Machine
end

section

/-! PROOFS. The statements about the CSR instructions (47_csr.md): a write of the value read changes nothing, and every form is
`csrUpdate`, which reads both operands before it writes rd. -/

namespace Sys2Proof.Machine

/-! ## Writing back the value read (R360) -/

/-- A masked write looks at the new value under the mask alone, so one that agrees with the old value there changes nothing. -/
theorem merge_of_and_eq {old mask new : Word} (h : new &&& mask = old &&& mask) : merge old mask new = old := by
  calc merge old mask new
      = merge old mask (old &&& mask) := by
        unfold merge
        rw [h, BitVec.and_assoc, BitVec.and_self]
    _ = old := merge_self old mask

/-- What a write of sip can change, SSIP alone, is among what a read of sip shows (R62). -/
theorem sLevelMask_and_sipWriteMask : sLevelMask &&& sipWriteMask = sipWriteMask := by decide

/-- What sip shows agrees with mip in the bit a write of sip can change (R62). -/
theorem sipView_and_sipWriteMask (mip deleg : Word) :
    (mip &&& deleg &&& sLevelMask) &&& (deleg &&& sipWriteMask) = mip &&& (deleg &&& sipWriteMask) := by
  calc (mip &&& deleg &&& sLevelMask) &&& (deleg &&& sipWriteMask)
      = mip &&& ((deleg &&& deleg) &&& (sLevelMask &&& sipWriteMask)) := by ac_rfl
    _ = mip &&& (deleg &&& sipWriteMask) := by rw [BitVec.and_self, sLevelMask_and_sipWriteMask]

/-- Refreshing the paging cache from satp changes nothing where the cache is that of satp (R48, R64). -/
theorem refreshPaging_csrSatp {s : State} (hs : s.Inv) : refreshPaging s (s.csr csrSatp) = s := by
  obtain ⟨hon, hroot⟩ := hs.paging
  unfold refreshPaging
  rw [← hon, ← hroot]

theorem csrRead_of_no_view (s : State) {a : CsrNum} (h1 : a ≠ csrSstatus) (h2 : a ≠ csrSie) (h3 : a ≠ csrSip) :
    csrRead s a = s.csr a := by
  unfold csrRead
  rw [if_neg h1, if_neg h2, if_neg h3]

theorem csrWrite_of_no_view_of_ne_satp (s : State) {a : CsrNum} (v : Word) (h1 : a ≠ csrSstatus) (h2 : a ≠ csrSie)
    (h3 : a ≠ csrSip) (h4 : a ≠ csrSatp) : csrWrite s a v = s.setCsr a v := by
  unfold csrWrite
  rw [if_neg h1, if_neg h2, if_neg h3, if_neg h4]

/-- Settles O25: the slot gets back its own value, for a view because the bits read are those of the slot under the write's mask, and for
satp the refreshed cache is the one the invariant gives. -/
theorem writingTheValueReadChangesNothing : Obligations.WritingTheValueReadChangesNothing := by
  intro s a hs
  have slot (c : CsrNum) : s.setCsr c (s.csr c) = s := setCsr_csr_self s c hs.csrsWf
  by_cases h1 : a = csrSstatus
  · rw [h1, csrWrite_sstatus, csrRead_sstatus, merge_self, slot]
  by_cases h2 : a = csrSie
  · rw [h2, csrWrite_sie, csrRead_sie, BitVec.and_assoc, merge_self, slot]
  by_cases h3 : a = csrSip
  · rw [h3, csrWrite_sip, csrRead_sip, merge_of_and_eq (sipView_and_sipWriteMask _ _), slot]
  rw [csrRead_of_no_view s h1 h2 h3]
  by_cases h4 : a = csrSatp
  · rw [h4, csrWrite_satp, slot, refreshPaging_csrSatp hs]
  · rw [csrWrite_of_no_view_of_ne_satp s _ h1 h2 h3 h4, slot]

/-! ## The six forms (R361 to R366) -/

/-- A CSR instruction is `csrUpdate`: the CSR gets the new value `v`, then rd the value it held (R360). -/
theorem csrResult_of {i : Instr} {new : Word → Word} {rd : Reg} {a : CsrNum} {s : State} {v : Word}
    (h : exec i s = .next (csrUpdate new rd a s)) (hv : new (csrRead s a) = v) :
    ∃ t, exec i s = .next t ∧ WritesReg rd (csrRead s a) (csrWrite s a v) t := by
  subst hv
  exact ⟨_, h, writesReg_setReg _ rd (csrRead s a)⟩

theorem imm5_eq_ofNat (u : BitVec 5) : imm5 u = BitVec.ofNat 64 u.toNat := (BitVec.ofNat_toNat 64 u).symm

/-- Settles O24: each form is `csrUpdate` with its own new value, made of x[rs1] or of the immediate. -/
theorem csrInstructionResults : Obligations.CsrInstructionResults := by
  intro s rd rs1 a u
  rw [← imm5_eq_ofNat u]
  exact
    ⟨csrResult_of (new := fun _ => s.reg rs1) rfl rfl,
     csrResult_of (new := fun t => t ||| s.reg rs1) rfl rfl,
     csrResult_of (new := fun t => t &&& ~~~s.reg rs1) rfl rfl,
     csrResult_of (new := fun _ => imm5 u) rfl rfl,
     csrResult_of (new := fun t => t ||| imm5 u) rfl rfl,
     csrResult_of (new := fun t => t &&& ~~~imm5 u) rfl rfl⟩

end Sys2Proof.Machine
end

section

/-! PROOFS. The statements about ECALL, EBREAK, SRET, MRET (48_system.md) and a word that matches no row (R387): an exception that is
not fatal is its trap entry and no more, and a return is `returnS` or `returnM`. -/

namespace Sys2Proof.Machine

/-! ## ECALL and EBREAK (R380, R381) -/

/-- An instruction's exception that is not fatal is taken at the instruction's own address (R440). -/
theorem trapTaken_raise (e : Exception) (h : e.fatal = false) (s : State) :
    TrapTaken e.code false (s.pc - 4) s (raise e s) := by
  rw [raise_of_not_fatal h]
  exact trapTaken_takeTrap (.exception e) _ s

theorem ecallException_not_fatal (md : Mode) : (ecallException md).fatal = false := by
  cases md <;> rfl

theorem ecallException_code (md : Mode) : (ecallException md).code = match md with | .u => 8 | .s => 9 | .m => 11 := by
  cases md <;> rfl

/-- Settles O18: neither exception is fatal, so each instruction is the entry of its trap. -/
theorem ecallAndEbreakTakeTheirException : Obligations.EcallAndEbreakTakeTheirException := by
  refine ⟨fun s => ⟨_, rfl, ?_⟩, fun s => ⟨_, rfl, trapTaken_raise .breakpoint rfl s⟩⟩
  have htaken := trapTaken_raise _ (ecallException_not_fatal s.mode) s
  rw [ecallException_code] at htaken
  exact htaken

/-! ## SRET (R384) -/

/-- Settles O19: SRET is `returnS`, and its mstatus is `statusAfterSret`. -/
theorem sretReturns : Obligations.SretReturns := by
  refine fun s => ⟨returnS s, rfl, rfl, rfl, rfl, fun n hn => ?_, fun a ha => ?_⟩
  · rw [csr_returnS, if_pos rfl, getLsbD_statusAfterSret _ n hn]
  · rw [csr_returnS, if_neg ha]

/-! ## MRET (R385, R386) -/

/-- The mode each MPP value names (R385). -/
theorem modeOfMpp_eq_some {m : BitVec 2} {md : Mode} (h : modeOfMpp m = some md) :
    (m = 0#2 → md = .u) ∧ (m = 1#2 → md = .s) ∧ (m = 3#2 → md = .m) := by
  refine ⟨?_, ?_, ?_⟩ <;> rintro rfl <;> cases h <;> rfl

/-- Settles O20: MRET is `returnM`, a refusal or a return to the mode MPP names, whose mstatus is `statusAfterMret`. -/
theorem mretReturns : Obligations.MretReturns := by
  intro s
  obtain ⟨hm, hrefused⟩ | ⟨md, hmode, hm, hreturn⟩ := returnM_cases s
  · exact ⟨fun _ => ⟨_, rfl, congrArg State.status hrefused⟩, fun hne => absurd hm hne⟩
  · obtain ⟨hu, hs, hmm⟩ := modeOfMpp_eq_some hmode
    refine ⟨fun h => absurd h hm, fun _ => ⟨_, congrArg Host.Outcome.next hreturn, rfl, rfl, hu, hs, hmm, fun n hn => ?_, fun a ha => ?_⟩⟩
    · rw [csr_setCsr_self, getLsbD_statusAfterMret _ n hn]
    · exact csr_setCsr_ne _ _ ha

/-! ## A word that matches no row (R187, R387) -/

theorem decodeWord_of_no_row {w : Word32} (h : ∀ r ∈ rows, w &&& r.mask ≠ r.pattern) :
    decodeWord w = .error (.unknownEncoding w) := by
  have hnone : rows.find? (fun r => r.fits w) = none := List.find?_eq_none.2 fun r hr hfits => h r hr (beq_iff_eq.1 hfits)
  unfold decodeWord
  rw [hnone]

theorem fetch_status {s t : State} {w : Word32} (h : fetch s = .ok (w, t)) : t.status = s.status := by
  obtain ⟨e, he⟩ | ⟨w', pa, v, u, hf, hb⟩ := fetch_cases s
  · cases he.symm.trans h
  · cases hf.symm.trans h
    rw [busLoad_rest hb]

/-- A fetched word that does not decode raises IllegalInstruction from the state the fetch left, its pc advanced (R387, R401). -/
theorem execution_of_decode_error {s t : State} {w : Word32} {e : DecodeError} (hf : fetch s = .ok (w, t))
    (hd : decodeWord w = .error e) : execution s = .next (raise .illegalInstruction (t.setPc (s.pc + 4))) := by
  unfold execution
  rw [hf]
  dsimp only
  unfold execWord
  rw [hd, fetch_pc hf]

/-- A step whose execution leaves the block running ends with the poll between the two points for host moves (R171, R400). -/
theorem step_of_execution_running {s u : State} (hs : s.status = .running) (hexec : execution s = .next u)
    (hu : u.status = .running) : step s = .next (letHostIn (poll (letHostIn u))) := by
  unfold step
  rw [if_pos hs, hexec, afterExec, endOfStep, if_pos hu]

/-- Settles O6: the word does not decode, and IllegalInstruction is not fatal, so its entry leaves the block running. -/
theorem unknownWordTakesIllegalInstruction : Obligations.UnknownWordTakesIllegalInstruction := by
  intro s w t hs hf hrows
  have hexec := execution_of_decode_error hf (decodeWord_of_no_row hrows)
  have hrun : (raise .illegalInstruction (t.setPc (s.pc + 4))).status = .running := by
    rw [raise_of_not_fatal rfl, takeTrap_status, setPc_status, fetch_status hf, hs]
  have htaken := trapTaken_raise .illegalInstruction rfl (t.setPc (s.pc + 4))
  rw [setPc_pc, BitVec.add_sub_cancel] at htaken
  exact ⟨_, htaken, hrun, step_of_execution_running hs hexec hrun⟩

end Sys2Proof.Machine
end

section
/-! PROOFS. The statements about traps and returns (60_exceptions.md, sections 2, 3, 6 and 7) and about how an instruction can stop the block: an entry
is `enterS` or `enterM` as `takeTrap_cases` says, so each statement about one is read off `SEntry` or `MEntry`. -/

namespace Sys2Proof.Machine

/-! ## Entry (R431, R440 to R444) -/

theorem takeTrap_of_goesToS {t : Trap} {s : State} (h : GoesToS t.cause t.isInterrupt s) (epc : Word) :
    takeTrap t epc s = enterS t epc s :=
  if_pos ((delegated_iff s t).2 h)

theorem takeTrap_of_not_goesToS {t : Trap} {s : State} (h : ¬ GoesToS t.cause t.isInterrupt s) (epc : Word) :
    takeTrap t epc s = enterM t epc s :=
  if_neg fun hd => h ((delegated_iff s t).1 hd)

@[simp] theorem enterS_mode (t : Trap) (epc : Word) (s : State) : (enterS t epc s).mode = .s := rfl

@[simp] theorem enterM_mode (t : Trap) (epc : Word) (s : State) : (enterM t epc s).mode = .m := rfl

/-- A poll is blocked in M-mode with MIE = 0 and in S-mode with SIE = 0, and nowhere else (R431). -/
theorem pollBlocked_iff (s : State) :
    pollBlocked s = true ↔
      (s.mode = .m ∧ (s.csr csrMstatus).getLsbD 3 = false) ∨ (s.mode = .s ∧ (s.csr csrMstatus).getLsbD 1 = false) := by
  unfold pollBlocked
  cases s.mode <;> simp [bitMIE, bitSIE]

/-- Either entry clears the enable bit of the mode it goes to. -/
theorem pollBlocked_takeTrap (t : Trap) (epc : Word) (s : State) : pollBlocked (takeTrap t epc s) = true := by
  rw [pollBlocked_iff]
  obtain ⟨_, h⟩ | ⟨_, h⟩ := takeTrap_cases t epc s <;> rw [h]
  · exact .inr ⟨enterS_mode t epc s, (enterS_entry t epc s).mstatus 1 (by decide)⟩
  · exact .inl ⟨enterM_mode t epc s, (enterM_entry t epc s).mstatus 3 (by decide)⟩

/-- Settles O14: the entry to the mode its delegation names, which clears that mode's enable bit. -/
theorem trapEntryFollowsTheRules : Obligations.TrapEntryFollowsTheRules := fun t epc s =>
  ⟨trapTaken_takeTrap t epc s, pollBlocked_takeTrap t epc s⟩

/-- Settles O15: the mode after the entry says which of the two entries it was. -/
theorem trapEntryStatus : Obligations.TrapEntryStatus := by
  intro t epc s
  obtain ⟨_, h⟩ | ⟨_, h⟩ := takeTrap_cases t epc s <;> rw [h]
  · exact ⟨fun _ => (enterS_entry t epc s).mstatus, fun hm => by cases hm⟩
  · exact ⟨fun hs => (by cases hs), fun _ => (enterM_entry t epc s).mstatus⟩

/-! ## Exceptions (R410, R415, R416) -/

/-- The five fatal exceptions (R415). -/
theorem mem_fatal_iff (e : Exception) :
    e ∈ [.instructionAddressMisaligned, .instructionAccessFault, .loadAccessFault, .storeAmoAddressMisaligned,
      .storeAmoAccessFault] ↔ e.fatal = true := by
  cases e <;> decide

/-- Settles O16: raising an exception is its trap entry, then for a fatal one the halt; each exception's code is that of R410. -/
theorem raiseTakesTheException : Obligations.RaiseTakesTheException := by
  intro e s
  refine ⟨takeTrap (.exception e) (s.pc - 4) s, ?entry, ?halt⟩
  case entry =>
    have htaken := trapTaken_takeTrap (.exception e) (s.pc - 4) s
    cases e <;> exact htaken
  case halt =>
    simp only [mem_fatal_iff]
    rfl

/-! ## Returns (R384, R385, R447) -/

/-- MPP is 0 where its two bits are (R52). -/
theorem mpp_eq_zero {v : Word} (h11 : v.getLsbD 11 = false) (h12 : v.getLsbD 12 = false) : mpp v = 0#2 := by
  apply BitVec.eq_of_getLsbD_eq
  intro i hi
  rw [mpp, BitVec.getLsbD_extractLsb']
  obtain rfl | rfl : i = 0 ∨ i = 1 := by omega
  · exact congrArg (true && ·) h11
  · exact congrArg (true && ·) h12

/-- With MPP = 0 MRET returns to U-mode (R385). -/
theorem returnM_of_mpp_zero {s : State} (h : mpp (s.csr csrMstatus) = 0#2) :
    returnM s = ((s.setPc (s.csr csrMepc)).setMode .u).setCsr csrMstatus (statusAfterMret (s.csr csrMstatus)) := by
  unfold returnM
  rw [h]
  rfl

/-- A trap's own mode is back in SPP where it was U or S (R384, R443). -/
theorem modeOfSpp {md : Mode} (h : md ≠ .m) : (if decide (md ≠ .u) = true then Mode.s else Mode.u) = md := by
  cases md with
  | u => rfl
  | s => rfl
  | m => exact absurd rfl h

/-- Settles O17: SRET reads back sepc, SPP and SPIE as entry to S-mode left them; MRET reads back mepc and MPIE, and the MPP that entry
to M-mode cleared. -/
theorem returnUndoesTheTrap : Obligations.ReturnUndoesTheTrap := by
  refine fun t epc s => ⟨fun h => ⟨returnS (takeTrap t epc s), rfl, ?_⟩, fun h => ⟨returnM (takeTrap t epc s), rfl, ?_⟩⟩
  · have entry := enterS_entry t epc s
    rw [takeTrap_of_goesToS h]
    refine ⟨entry.sepc, ?mode, ?sie⟩
    case mode =>
      have spp : ((enterS t epc s).csr csrMstatus).getLsbD bitSPP = decide (s.mode ≠ .u) := entry.mstatus 8 (by decide)
      show (if ((enterS t epc s).csr csrMstatus).getLsbD bitSPP = true then Mode.s else Mode.u) = s.mode
      rw [spp, modeOfSpp h.1]
    case sie =>
      rw [csr_returnS, if_pos rfl, getLsbD_statusAfterSret _ 1 (by decide)]
      exact entry.mstatus 5 (by decide)
  · have entry := enterM_entry t epc s
    rw [takeTrap_of_not_goesToS h,
      returnM_of_mpp_zero (mpp_eq_zero (entry.mstatus 11 (by decide)) (entry.mstatus 12 (by decide)))]
    refine ⟨entry.mepc, rfl, ?_⟩
    rw [csr_setCsr_self, getLsbD_statusAfterMret _ 3 (by decide)]
    exact entry.mstatus 7 (by decide)

/-! ## The ways an instruction stops the block (R386, R415, R416) -/

/-- The fatal exceptions an instruction's own execution can raise. -/
theorem raisable_fatal : ∀ e ∈ raisable, e.fatal = true → e = .loadAccessFault ∨ e = .storeAmoAccessFault := by decide

/-- An instruction keeps the status unless it raised an exception or is the MRET that refuses. -/
theorem does_status {i : Instr} {s t : State} (hd : Does i s t) :
    t.status = s.status ∨ (∃ e ∈ raisable, t = raise e s) ∨
      (i = .mret ∧ mpp (s.csr csrMstatus) = 2 ∧ t.status = .refused .mretReservedMode) := by
  cases hd with
  | writes rd v => exact .inl (setReg_status s rd v)
  | jumps rd v p => exact .inl (setReg_status s rd v)
  | goes p => exact .inl rfl
  | loads rd v pa w a t _ _ hb => left; rw [setReg_status, busLoad_rest hb]
  | stores va w pa v t _ _ _ hb => left; rw [busStore_rest hb]
  | amos rd v va w pa a b t u _ _ _ _ hb hs => left; rw [setReg_status, busStore_rest hs, busLoad_rest hb]
  | raises e he => exact .inr (.inl ⟨e, he, rfl⟩)
  | csrs rd a v => left; rw [setReg_status, csrWrite_rest]
  | sret => exact .inl rfl
  | mret hi =>
    obtain ⟨hm, h⟩ | ⟨_, _, _, h⟩ := returnM_cases s <;> rw [h]
    · exact .inr (.inr ⟨hi, hm, rfl⟩)
    · exact .inl rfl

/-- Settles O13: of the exceptions an instruction can raise, two are fatal and halt the block. -/
theorem instructionsStopOnlyForNamedReasons : Obligations.InstructionsStopOnlyForNamedReasons := by
  intro i s t hs h
  obtain hsame | ⟨e, he, rfl⟩ | hrefused := does_status (does_of_exec h)
  · exact .inl (hsame.trans hs)
  · rw [raise_status]
    by_cases hf : e.fatal = true
    · rw [if_pos hf]
      obtain rfl | rfl := raisable_fatal e he hf
      · exact .inr (.inl rfl)
      · exact .inr (.inr (.inl rfl))
    · rw [if_neg hf]
      exact .inl hs
  · exact .inr (.inr (.inr hrefused))

end Sys2Proof.Machine
end

section
/-! PROOFS. The statements about the poll (60_exceptions.md, section 5): the timer comparison and the IRQs are one bit of mip, and each
branch of the poll, of the device query and of delivery has its own equation. -/

namespace Sys2Proof.Machine

/-! ## One bit of mip -/

/-- The bits of mip after bit `n` was set to `b`. -/
theorem getLsbD_setCsr_mip (s : State) (n : Nat) (b : Bool) {i : Nat} (hi : i < 64) :
    ((s.setCsr csrMip (setBit (s.csr csrMip) n b)).csr csrMip).getLsbD i = if i = n then b else (s.csr csrMip).getLsbD i := by
  rw [csr_setCsr_self, getLsbD_setBit _ _ _ _ hi]

/-! ## The timer comparison and the enable test (R431, R437) -/

theorem timerCompare_off {s : State} (h : s.cfg.timerCompare = false) : timerCompare s = s :=
  if_neg (ne_true_of_eq_false h)

theorem timerCompare_on {s : State} (h : s.cfg.timerCompare = true) : timerCompare s =
    s.setCsr csrMip (setBit (s.csr csrMip) 7 (decide (s.clint.mtime.toNat ≥ s.clint.mtimecmp.toNat))) :=
  if_pos h

/-- The timer comparison touches no CSR but mip. -/
theorem csr_timerCompare_ne (s : State) {a : CsrNum} (h : a ≠ csrMip) : (timerCompare s).csr a = s.csr a := by
  unfold timerCompare
  split
  · exact csr_setCsr_ne s _ h
  · rfl

theorem timerCompare_mode (s : State) : (timerCompare s).mode = s.mode := by rw [timerCompare_rest]

/-- The timer comparison changes neither the mode nor mstatus, so it does not change the enable test. -/
theorem pollBlocked_timerCompare_iff (s : State) :
    pollBlocked (timerCompare s) = true ↔
      (s.mode = .m ∧ (s.csr csrMstatus).getLsbD 3 = false) ∨ (s.mode = .s ∧ (s.csr csrMstatus).getLsbD 1 = false) := by
  rw [pollBlocked_iff, timerCompare_mode, csr_timerCompare_ne s (by decide)]

theorem poll_of_blocked {s : State} (h : pollBlocked (timerCompare s) = true) : poll s = timerCompare s := if_pos h

theorem poll_of_not_blocked {s : State} (h : pollBlocked (timerCompare s) = false) :
    poll s = if (deviceQuery (timerCompare s)).status = .running then deliver (deviceQuery (timerCompare s))
      else deviceQuery (timerCompare s) :=
  if_neg (ne_true_of_eq_false h)

/-- Settles O53: the timer comparison is one bit of mip, and the enable test decides between the two equations of the poll. -/
theorem blockedPoll : Obligations.BlockedPoll := by
  rintro s _ rfl
  rw [← pollBlocked_timerCompare_iff]
  refine ⟨timerCompare_off, fun h => ⟨timerCompare_rest s, fun a ha => csr_timerCompare_ne s ha, fun n hn => ?_⟩,
    fun h => ⟨h, poll_of_blocked h⟩, fun h => ?_⟩
  · rw [timerCompare_on h, getLsbD_setCsr_mip _ _ _ hn]
  · rw [Bool.not_eq_true] at h
    exact ⟨h, poll_of_not_blocked h⟩

/-! ## The device query (R432) -/

/-- A device's IRQ goes to sclaim and sets mip.SEIP. -/
theorem fireIrq_rest (irq : Word32) (s : State) :
    fireIrq irq s = { s with plic := { s.plic with sclaim := irq }, csrs := (fireIrq irq s).csrs } := rfl

theorem csr_fireIrq_ne (irq : Word32) (s : State) {a : CsrNum} (h : a ≠ csrMip) : (fireIrq irq s).csr a = s.csr a :=
  csr_setCsr_ne _ _ h

theorem getLsbD_mip_fireIrq (irq : Word32) (s : State) {n : Nat} (hn : n < 64) :
    ((fireIrq irq s).csr csrMip).getLsbD n = (decide (n = 9) || (s.csr csrMip).getLsbD n) := by
  refine (getLsbD_setCsr_mip { s with plic := { s.plic with sclaim := irq } } 9 true hn).trans ?_
  by_cases h : n = 9
  · subst h; rfl
  · rw [if_neg h, decide_eq_false h, Bool.false_or]; rfl

theorem deviceQuery_of_uart {s : State} (h : s.uart.interrupting = true) :
    deviceQuery s = fireIrq 10 { s with uart := { s.uart with interrupting := false } } := if_pos h

theorem deviceQuery_of_idle {s : State} (hu : s.uart.interrupting = false) (hd : s.disk.notify = notifyIdle) :
    deviceQuery s = s := by
  unfold deviceQuery
  rw [if_neg (ne_true_of_eq_false hu), if_neg (not_not.2 hd)]

theorem deviceQuery_of_armed {s : State} (hu : s.uart.interrupting = false) (hd : s.disk.notify ≠ notifyIdle) :
    deviceQuery s = if (dma s).status = .running then fireIrq 1 (dma s) else dma s := by
  unfold deviceQuery
  rw [if_neg (ne_true_of_eq_false hu), if_pos hd]

/-- Settles O54: each clause is one branch of the device query. -/
theorem deviceQueryAsksTheUartFirst : Obligations.DeviceQueryAsksTheUartFirst := by
  intro s
  refine ⟨fun hu => ?_, fun hu hd => ⟨fun hfail => ?_, fun hrun => ?_⟩, deviceQuery_of_idle⟩
  · exact ⟨_, deviceQuery_of_uart hu, fireIrq_rest 10 _, fun a ha => csr_fireIrq_ne 10 _ ha,
      fun n hn => getLsbD_mip_fireIrq 10 _ hn⟩
  · rw [deviceQuery_of_armed hu hd, if_neg hfail]
  · rw [deviceQuery_of_armed hu hd, if_pos hrun]
    exact ⟨_, rfl, fireIrq_rest 1 _, fun a ha => csr_fireIrq_ne 1 _ ha, fun n hn => getLsbD_mip_fireIrq 1 _ hn⟩

/-! ## Delivery (R434, R435) -/

/-- The first element of a list with a property is its head, or the first of the others. -/
theorem find?_cons_eq_ite {α : Type} (q : α → Bool) (a : α) (as : List α) :
    (a :: as).find? q = if q a = true then some a else as.find? q := by
  rw [List.find?_cons]
  cases q a <;> rfl

/-- The poll's order written out (R434). -/
theorem pickInterrupt_eq (p : Word) :
    pickInterrupt p =
      if p.getLsbD 11 = true then some .mei else if p.getLsbD 3 = true then some .msi
      else if p.getLsbD 7 = true then some .mti else if p.getLsbD 9 = true then some .sei
      else if p.getLsbD 1 = true then some .ssi else if p.getLsbD 5 = true then some .sti else none := by
  simp only [pickInterrupt, interruptOrder, find?_cons_eq_ite, List.find?_nil, Interrupt.code]

theorem deliver_of_none {s : State} (h : pickInterrupt (s.csr csrMie &&& s.csr csrMip) = none) : deliver s = s := by
  unfold deliver
  rw [h]

theorem deliver_of_some {s : State} {i : Interrupt} (h : pickInterrupt (s.csr csrMie &&& s.csr csrMip) = some i) :
    deliver s = takeTrap (.interrupt i) (interruptEpc s) (s.setCsr csrMip (setBit (s.csr csrMip) i.code false)) := by
  unfold deliver
  rw [h]

/-- The bits of mip after an interrupt's bit was cleared (R435). -/
theorem getLsbD_clear_mip (s : State) (c : Nat) {n : Nat} (hn : n < 64) :
    ((s.setCsr csrMip (setBit (s.csr csrMip) c false)).csr csrMip).getLsbD n =
      (decide (n ≠ c) && (s.csr csrMip).getLsbD n) := by
  rw [getLsbD_setCsr_mip _ _ _ hn]
  by_cases h : n = c <;> simp [h]

/-- Settles O55: the case of `c` fixes which interrupt the poll picks, and delivery takes it after clearing its bit. -/
theorem interruptsAreTakenInOrder : Obligations.InterruptsAreTakenInOrder := by
  intro s p hp
  simp only [← BitVec.getLsbD_and] at hp
  have pick := pickInterrupt_eq (s.csr csrMie &&& s.csr csrMip)
  simp only [← hp] at pick
  refine ⟨fun h11 h3 h7 h9 h1 h5 => ?_, fun c hc => ?_⟩
  · refine deliver_of_none (pick.trans ?_)
    simp only [h11, h3, h7, h9, h1, h5, Bool.false_eq_true, if_false]
  · obtain ⟨i, rfl, hi⟩ : ∃ i : Interrupt, i.code = c ∧ pickInterrupt (s.csr csrMie &&& s.csr csrMip) = some i := by
      rw [pick]
      obtain ⟨rfl, h11⟩ | ⟨rfl, h3, h11⟩ | ⟨rfl, h7, h11, h3⟩ | ⟨rfl, h9, h11, h3, h7⟩ | ⟨rfl, h1, h11, h3, h7, h9⟩ |
        ⟨rfl, h5, h11, h3, h7, h9, h1⟩ := hc
      · exact ⟨.mei, rfl, by simp only [h11, if_true]⟩
      · exact ⟨.msi, rfl, by simp only [h11, h3, if_true, Bool.false_eq_true, if_false]⟩
      · exact ⟨.mti, rfl, by simp only [h11, h3, h7, if_true, Bool.false_eq_true, if_false]⟩
      · exact ⟨.sei, rfl, by simp only [h11, h3, h7, h9, if_true, Bool.false_eq_true, if_false]⟩
      · exact ⟨.ssi, rfl, by simp only [h11, h3, h7, h9, h1, if_true, Bool.false_eq_true, if_false]⟩
      · exact ⟨.sti, rfl, by simp only [h11, h3, h7, h9, h1, h5, if_true, Bool.false_eq_true, if_false]⟩
    rw [deliver_of_some hi]
    exact ⟨_, rfl, fun a ha => csr_setCsr_ne s _ ha, fun n hn => getLsbD_clear_mip s i.code hn,
      trapTaken_takeTrap (.interrupt i) (interruptEpc s) _⟩

end Sys2Proof.Machine
end

section
/-! PROOFS. The statements about the disk transfer (60_exceptions.md, R433): each branch of `dma` has its equation from the disarmed state,
and the bytes copied are those of `dmaToRam_spec` and `dmaToDisk_spec`, written out where the range is RAM. -/

namespace Sys2Proof.Machine

/-! ## The branches of a transfer (R417, R433) -/

/-- The state a transfer starts from: notify is idle again (R433). -/
def disarmed (s : State) : State := { s with disk := { s.disk with notify := notifyIdle } }

theorem dma_eq_dmaCopy (s : State) : dma s = dmaCopy (disarmed s) := rfl

/-- The bytes of the image that a transfer to RAM copies. -/
def imageBytes (img : List Byte) (start len : Nat) : List Byte := (img.drop start).take len

theorem length_imageBytes {img : List Byte} {start len : Nat} (h : start + len ≤ img.length) :
    (imageBytes img start len).length = len := by
  rw [imageBytes, List.length_take, List.length_drop]
  omega

theorem getD_imageBytes (img : List Byte) (start : Nat) {len k : Nat} (h : k < len) :
    (imageBytes img start len).getD k 0 = img.getD (start + k) 0 := by
  simp [imageBytes, List.getD_eq_getElem?_getD, h]

theorem take_imageBytes (img : List Byte) (start : Nat) {n len : Nat} (h : n ≤ len) :
    (imageBytes img start len).take n = imageBytes img start n := by
  rw [imageBytes, List.take_take, Nat.min_eq_left h, imageBytes]

theorem dma_of_no_image {s : State} (h : s.diskBacking = none) : dma s = hostError .noDiskImage (disarmed s) := by
  have hd : (disarmed s).diskBacking = none := h
  rw [dma_eq_dmaCopy, dmaCopy, hd]

section
variable {s : State} {img : List Byte} (himg : s.diskBacking = some img)
include himg

theorem dma_of_image : dma s =
    if img.length < s.disk.start + s.disk.bufLen.toNat then hostError .sectorRange (disarmed s)
    else if s.disk.direction = 1 then dmaToDisk s.disk.bufLen.toNat s.disk.start s.disk.bufAddr (disarmed s)
    else dmaToRam (imageBytes img s.disk.start s.disk.bufLen.toNat) s.disk.bufAddr (disarmed s) := by
  have hd : (disarmed s).diskBacking = some img := himg
  rw [dma_eq_dmaCopy, dmaCopy, hd]
  rfl

theorem dma_past_image (h : img.length < s.disk.start + s.disk.bufLen.toNat) :
    dma s = hostError .sectorRange (disarmed s) := by
  rw [dma_of_image himg, if_pos h]

theorem dma_to_ram (hfit : s.disk.start + s.disk.bufLen.toNat ≤ img.length) (hdir : s.disk.direction ≠ 1) :
    dma s = dmaToRam (imageBytes img s.disk.start s.disk.bufLen.toNat) s.disk.bufAddr (disarmed s) := by
  rw [dma_of_image himg, if_neg (Nat.not_lt.2 hfit), if_neg hdir]

theorem dma_to_disk (hfit : s.disk.start + s.disk.bufLen.toNat ≤ img.length) (hdir : s.disk.direction = 1) :
    dma s = dmaToDisk s.disk.bufLen.toNat s.disk.start s.disk.bufAddr (disarmed s) := by
  rw [dma_of_image himg, if_neg (Nat.not_lt.2 hfit), if_pos hdir]

end

/-! ## A transfer that copies every byte (R433) -/

/-- What a load of a list leaves in memory at the addresses it covers. -/
theorem Memory.read_load_inside (bs : List Byte) (m : Memory) (a : Nat) {k : Nat} (h : k < bs.length) :
    Cells.read (Memory.load m a bs) (a + k) = bs.getD k 0 := by
  rw [Memory.read_load, if_pos (by omega), Nat.add_sub_cancel_left]

/-- And at every other address. -/
theorem Memory.read_load_outside (bs : List Byte) (m : Memory) (a : Nat) {c : Nat} (h : c < a ∨ a + bs.length ≤ c) :
    Cells.read (Memory.load m a bs) c = Cells.read m c := by
  rw [Memory.read_load, if_neg (by omega)]

/-- RAM after a run of image bytes was put at an address. -/
theorem read_load_imageBytes {img : List Byte} {start n : Nat} (h : start + n ≤ img.length) (m : Memory) (a : Nat) :
    (∀ k < n, Cells.read (Memory.load m a (imageBytes img start n)) (a + k) = img.getD (start + k) 0) ∧
      ∀ c, (c < a ∨ a + n ≤ c) → Cells.read (Memory.load m a (imageBytes img start n)) c = Cells.read m c := by
  refine ⟨fun k hk => ?_, fun c hc => ?_⟩
  · rw [Memory.read_load_inside _ _ _ (by rwa [length_imageBytes h]), getD_imageBytes img start hk]
  · rw [Memory.read_load_outside _ _ _ (by rwa [length_imageBytes h])]

/-- Settles O56: `dmaToRam_ram` and `dmaToDisk_ram` from the disarmed state. -/
theorem dmaCopies : Obligations.DmaCopies := by
  rintro s img _ _ _ himg rfl rfl rfl hfit hlow hhigh
  rw [← toNat_append32] at hfit
  rw [← toNat_append32, ← toNat_append32] at hhigh
  rw [← toNat_append32] at hlow
  simp only [← toNat_append32]
  refine ⟨fun hdir => ?_, fun hdir => ?_⟩
  · have hlen := length_imageBytes hfit
    have hdma := (dma_to_ram himg hfit hdir).trans (dmaToRam_ram _ _ _ hlow (by rw [← hlen] at hhigh; exact hhigh))
    rw [hdma]
    exact ⟨rfl, read_load_imageBytes hfit s.mem _⟩
  · rw [dma_to_disk himg hfit hdir]
    exact dmaToDisk_ram _ _ _ (disarmed s) img himg hlow hhigh hfit

/-! ## A transfer that fails (R417, R433) -/

/-- A transfer has one byte at which it fails, and one state before that byte. -/
theorem Passes.stop_unique {byte : Nat → State → Option State} {s : State} {r r' : Nat → State} {m m' : Nat}
    (h : Passes byte s r m) (hf : byte m (r m) = none) (h' : Passes byte s r' m') (hf' : byte m' (r' m') = none) :
    m' = m ∧ r' m' = r m := by
  have hm : m' = m := Nat.le_antisymm (h.stop_le h' hf) (h'.stop_le h hf')
  subst hm
  exact ⟨rfl, h'.agree h m' (Nat.le_refl m') (Nat.le_refl m')⟩

/-- A transfer to RAM whose byte `m` fails ends in the state after the bytes before it. -/
theorem dmaToRam_of_failure {img : List Byte} {start len m : Nat} {addr : Word} {s : State} {r : Nat → State}
    (hfit : start + len ≤ img.length) (hm : m < len) (h : Passes (transferStore img start addr) s r m)
    (hf : transferStore img start addr m (r m) = none) :
    dmaToRam (imageBytes img start len) addr s = hostError .busFailure (r m) := by
  obtain ⟨r', m', hp, _, hend⟩ := dmaToRam_spec (imageBytes img start len) addr s
  rw [length_imageBytes hfit] at hend
  obtain ⟨rfl, _⟩ | ⟨hm', hf', he⟩ := hend
  · have := h.stop_le (hp.image (Nat.le_refl m')) hf
    omega
  · rw [imageBytes, transferStore_image img start len m' addr _ hm'] at hf'
    rw [he, (h.stop_unique hf (hp.image (Nat.le_of_lt hm')) hf').2]

/-- A transfer to the disk whose byte `m` fails ends in the state after the bytes before it. -/
theorem dmaToDisk_of_failure {start len m : Nat} {addr : Word} {s : State} {r : Nat → State} (hm : m < len)
    (h : Passes (transferLoad start addr) s r m) (hf : transferLoad start addr m (r m) = none) :
    dmaToDisk len start addr s = hostError .busFailure (r m) := by
  obtain ⟨r', m', hp, ⟨rfl, _⟩ | ⟨_, hf', he⟩⟩ := dmaToDisk_spec len start addr s
  · have := h.stop_le hp hf
    omega
  · rw [he, (h.stop_unique hf hp hf').2]

/-- No byte has passed yet. -/
theorem Passes.zero (byte : Nat → State → Option State) (s : State) : Passes byte s (fun _ => s) 0 :=
  ⟨rfl, fun _ hk => absurd hk (Nat.not_lt_zero _)⟩

/-- Where the bus fails a byte load, either direction fails its first byte. -/
theorem transfer_first_fails {addr : Word} {s : State} (h : busLoad addr .byte s = none) (img : List Byte) (start : Nat) :
    transferStore img start addr 0 s = none ∧ transferLoad start addr 0 s = none := by
  unfold transferStore transferLoad
  rw [BitVec.add_zero, h]
  exact ⟨(busStore_none_iff _ _ _ _).2 ((busLoad_none_iff _ _ _).1 h), rfl⟩

/-- A transfer whose first byte fails changes nothing but notify and the status. -/
theorem dma_of_first_failure {s : State} {img : List Byte} (himg : s.diskBacking = some img)
    (hfit : s.disk.start + s.disk.bufLen.toNat ≤ img.length) (hlen : s.disk.bufLen.toNat ≠ 0)
    (h : busLoad s.disk.bufAddr .byte s = none) : dma s = hostError .busFailure (disarmed s) := by
  have hd : busLoad s.disk.bufAddr .byte (disarmed s) = none :=
    (busLoad_none_iff (disarmed s) _ _).2 ((busLoad_none_iff s _ _).1 h)
  obtain ⟨hstore, hload⟩ := transfer_first_fails hd img s.disk.start
  by_cases hdir : s.disk.direction = 1
  · rw [dma_to_disk himg hfit hdir, dmaToDisk_of_failure (Nat.pos_of_ne_zero hlen) (Passes.zero _ _) hload]
  · rw [dma_to_ram himg hfit hdir, dmaToRam_of_failure hfit (Nat.pos_of_ne_zero hlen) (Passes.zero _ _) hstore]

/-- A transfer to RAM that runs past its end leaves the image bytes before the end in RAM. -/
theorem dma_overrun_to_ram {s : State} {img : List Byte} {n : Nat} (himg : s.diskBacking = some img)
    (hfit : s.disk.start + s.disk.bufLen.toNat ≤ img.length) (hdir : s.disk.direction ≠ 1)
    (hlow : 0x80000000 ≤ s.disk.bufAddr.toNat) (hend : s.disk.bufAddr.toNat + n = 0x80800000)
    (hn : n < s.disk.bufLen.toNat) :
    dma s = hostError .busFailure { disarmed s with
      mem := Memory.load s.mem s.disk.bufAddr.toNat (imageBytes img s.disk.start n) } := by
  rw [dma_to_ram himg hfit hdir,
    dmaToRam_overrun _ _ _ hlow (by omega) (by rw [length_imageBytes hfit]; omega),
    show 0x80800000 - s.disk.bufAddr.toNat = n by omega, take_imageBytes img _ (Nat.le_of_lt hn)]
  rfl

/-- Settles O57: each clause is one branch of `dma`, a failure at a byte, or one of the two overruns of RAM. -/
theorem dmaHostErrors : Obligations.DmaHostErrors := by
  rintro s _ rfl
  refine ⟨dma_of_no_image, ?_⟩
  rintro img _ _ himg rfl rfl
  rw [← toNat_append32]
  refine ⟨dma_past_image himg, fun hfit => ⟨dma_of_first_failure himg hfit, fun hdir r m hm hp hf => ?_,
    fun hdir r m hm hp hf => ?_, ?_⟩⟩
  · obtain ⟨hdisk, hcsrs, hplic⟩ := hp.keeps fun k u t => transferStore_keeps
    exact ⟨(dma_to_ram himg hfit hdir).trans (dmaToRam_of_failure hfit hm hp hf), hdisk, hplic, hcsrs⟩
  · obtain ⟨hdisk, hcsrs, hplic⟩ := hp.keeps fun k u t => transferLoad_keeps
    exact ⟨(dma_to_disk himg hfit hdir).trans (dmaToDisk_of_failure hm hp hf), hdisk, hplic, hcsrs⟩
  · rintro _ n rfl hlow hend hn
    rw [← toNat_append32] at hlow hend ⊢
    refine ⟨fun hdir => ?_, fun hdir => ?_⟩
    · rw [dma_overrun_to_ram himg hfit hdir hlow hend hn, ← hend]
      exact ⟨rfl, read_load_imageBytes ((Nat.add_le_add_left (Nat.le_of_lt hn) _).trans hfit) s.mem _⟩
    · rw [dma_to_disk himg hfit hdir]
      exact dmaToDisk_overrun n _ _ (disarmed s) img himg hlow hend _ hn hfit

end Sys2Proof.Machine
end

section
/-! PROOFS. The statements about the step (60_exceptions.md, section 1): what a fetch answers, and a step from a fetch that failed or a
word that decodes. -/

namespace Sys2Proof.Machine

/-! ## The fetch (R402, R403) -/

/-- The pc's two low bits are its remainder by 4. -/
theorem extractLsb_two_eq_zero_iff (v : Word) : v.extractLsb' 0 2 = 0 ↔ v.toNat % 4 = 0 := by
  rw [← BitVec.toNat_inj, BitVec.extractLsb'_toNat, Nat.shiftRight_zero]
  rfl

theorem fetch_of_misaligned {s : State} (h : s.pc.toNat % 4 ≠ 0) : fetch s = .error .instructionAddressMisaligned :=
  if_pos (mt (extractLsb_two_eq_zero_iff s.pc).1 h)

section
variable {s : State} (haligned : s.pc.toNat % 4 = 0)
include haligned

/-- An aligned fetch that MemRead fails is its exception. -/
theorem fetch_of_memRead_error {e : Exception} (h : memRead s.pc .word .fetch s = .error e) : fetch s = .error e := by
  unfold fetch
  rw [if_neg (not_not.2 ((extractLsb_two_eq_zero_iff s.pc).2 haligned)), h]

/-- An aligned fetch that MemRead answers is the low word of the value read. -/
theorem fetch_of_memRead_ok {v : Word} {t : State} (h : memRead s.pc .word .fetch s = .ok (v, t)) :
    fetch s = .ok (low32 v, t) := by
  unfold fetch
  rw [if_neg (not_not.2 ((extractLsb_two_eq_zero_iff s.pc).2 haligned)), h]

theorem fetch_of_translate_error {e : Exception} (h : translate s.pc .fetch s = .error e) : fetch s = .error e := by
  refine fetch_of_memRead_error haligned ?_
  unfold memRead
  rw [h]

theorem fetch_of_bus_failure {pa : Word} (h : translate s.pc .fetch s = .ok pa) (hb : busLoad pa .word s = none) :
    fetch s = .error .instructionAccessFault := by
  refine fetch_of_memRead_error haligned ?_
  unfold memRead
  rw [h]
  simp only [hb]
  rfl

theorem fetch_of_bus_load {pa v : Word} {t : State} (h : translate s.pc .fetch s = .ok pa)
    (hb : busLoad pa .word s = some (v, t)) : fetch s = .ok (low32 v, t) := by
  refine fetch_of_memRead_ok haligned ?_
  unfold memRead
  rw [h]
  simp only [hb]

end

/-- A byte put below a value, as a number. -/
theorem toNat_append_byte {n : Nat} (v : BitVec n) (b : Byte) : (v ++ b).toNat = v.toNat * 256 + b.toNat := by
  rw [BitVec.toNat_append, ← Nat.shiftLeft_add_eq_or_of_lt b.isLt, Nat.shiftLeft_eq]

/-- Four digits to a base, the lowest first, as one number. -/
theorem sum_four_digits (f : Nat → Nat) (b : Nat) :
    ((List.range 4).map (fun k => f k * b ^ k)).sum = ((f 3 * b + f 2) * b + f 1) * b + f 0 := by
  simp only [List.sum_range_succ, List.range_zero, List.map_nil, List.sum_nil]
  ring

/-- The four bytes a fetch reads, little-endian (R100). -/
theorem low32_readBytes_four (m : Memory) (a : Nat) :
    low32 (m.readBytes a 4) =
      wordOfBytes (Cells.read m a) (Cells.read m (a + 1)) (Cells.read m (a + 2)) (Cells.read m (a + 3)) := by
  obtain ⟨hsum, hlt⟩ := Memory.toNat_readBytes 4 m a (by decide)
  apply BitVec.eq_of_toNat_eq
  rw [low32, BitVec.toNat_setWidth, Nat.mod_eq_of_lt (hlt.trans_eq (by norm_num)), hsum, wordOfBytes, toNat_append_byte,
    toNat_append_byte, toNat_append_byte]
  exact sum_four_digits (fun k => (Cells.read m (a + k)).toNat) 256

/-! ## A fetch that fails (R402, R412, R415, R416) -/

/-- A fetch exception's pc is the fetch address (R402). -/
theorem step_of_fetch_error {s : State} {e : Exception} (hs : s.status = .running) (hf : fetch s = .error e) :
    step s = .next (endOfStep (raiseAt e s.pc s)) := by
  unfold step execution
  rw [if_pos hs, hf]
  rfl

/-- A fatal exception of a fetch is its trap entry and then the halt, which ends the step (R415, R416). -/
theorem step_of_fatal_fetch (e : Exception) {s : State} (hs : s.status = .running) (hf : fetch s = .error e)
    (hfatal : e.fatal = true) :
    ∃ u, TrapTaken e.code false s.pc s u ∧ step s = .next { u with status := .halted e } := by
  refine ⟨takeTrap (.exception e) s.pc s, trapTaken_takeTrap (.exception e) s.pc s, ?_⟩
  rw [step_of_fetch_error hs hf, raiseAt, if_pos hfatal, endOfStep, if_neg (by rw [setStatus_status]; exact Status.noConfusion)]
  rfl

/-- An exception of a fetch that is not fatal is its trap entry, and the step ends as every step does (R400). -/
theorem step_of_fetch_fault (e : Exception) {s : State} (hs : s.status = .running) (hf : fetch s = .error e)
    (hfatal : e.fatal = false) :
    ∃ u, TrapTaken e.code false s.pc s u ∧ step s = .next (letHostIn (poll (letHostIn u))) := by
  refine ⟨takeTrap (.exception e) s.pc s, trapTaken_takeTrap (.exception e) s.pc s, ?_⟩
  rw [step_of_fetch_error hs hf, raiseAt, if_neg (ne_true_of_eq_false hfatal), endOfStep,
    if_pos ((takeTrap_status _ _ _).trans hs)]

/-- Settles O7: the fetch's exception in each case, of which only the page fault is not fatal. -/
theorem fetchFaultsAreTaken : Obligations.FetchFaultsAreTaken := by
  intro s hs
  refine ⟨fun hmis => step_of_fatal_fetch .instructionAddressMisaligned hs (fetch_of_misaligned hmis) rfl, fun hal e he => ?_,
    fun hal pa hpa hb => step_of_fatal_fetch .instructionAccessFault hs (fetch_of_bus_failure hal hpa hb) rfl⟩
  have hf := fetch_of_translate_error hal he
  obtain rfl | rfl := translate_error he
  · exact .inl ⟨rfl, step_of_fatal_fetch .instructionAccessFault hs hf rfl⟩
  · exact .inr ⟨rfl, step_of_fetch_fault .instructionPageFault hs hf rfl⟩

/-! ## A word that decodes (R400, R401) -/

theorem execution_of_decode {s t : State} {w : Word32} {i : Instr} (hf : fetch s = .ok (w, t))
    (hd : decodeWord w = .ok i) : execution s = exec i { t with pc := s.pc + 4 } := by
  unfold execution
  rw [hf]
  dsimp only
  unfold execWord
  rw [hd, fetch_pc hf]
  rfl

/-- Settles O5: the step is `afterExec` of the decoded instruction; with paging off the fetch is a bus load of four bytes of RAM. -/
theorem stepRunsTheDecodedInstruction : Obligations.StepRunsTheDecodedInstruction := by
  refine ⟨fun s w t i hs hf hd => ?_, fun s hoff hal hram => ?_⟩
  · unfold step
    rw [if_pos hs, execution_of_decode hf hd]
    cases exec i { t with pc := s.pc + 4 } <;> rfl
  · rw [fetch_of_bus_load hal (translate_pagingOff hoff s.pc .fetch) (busLoad_ram s s.pc .word hram)]
    exact congrArg (fun w => Except.ok (w, s)) (low32_readBytes_four s.mem s.pc.toNat)

end Sys2Proof.Machine
end

section
/-! PROOFS. The statement about reset with images (70_reset_and_hazards.md). -/

namespace Sys2Proof.Machine

/-- A load into an empty RAM: the list's bytes, and 0 everywhere else (R471, D37). -/
theorem read_load_empty (bs : List Byte) (a c : Nat) :
    Cells.read (Memory.load [] a bs) c = if a ≤ c then bs.getD (c - a) 0 else 0 := by
  rw [Memory.read_load]
  by_cases hlow : a ≤ c
  · rw [if_pos hlow]
    by_cases hhigh : c < a + bs.length
    · rw [if_pos ⟨hlow, hhigh⟩]
    · rw [if_neg (fun h => hhigh h.2), List.getD_eq_default _ _ (by omega)]
      rfl
  · rw [if_neg hlow, if_neg (fun h => hlow h.1)]
    rfl

theorem newHart_of_fits (cfg : Config) {kernel : List Byte} (img : Option (List Byte)) (h : kernel.length ≤ ramSize) :
    newHart cfg kernel img =
      { State.reset with cfg := cfg, mem := Memory.load [] ramBase kernel, diskBacking := img } := if_pos h

theorem newHart_of_too_long (cfg : Config) {kernel : List Byte} (img : Option (List Byte)) (h : ramSize < kernel.length) :
    newHart cfg kernel img =
      { State.reset with cfg := cfg, diskBacking := img, status := .refused .kernelImageTooLarge } :=
  if_neg (Nat.not_le.2 h)

/-- Settles O12: the two equations of `newHart`, and RAM as the kernel's bytes loaded into an empty memory. -/
theorem newHartLoadsItsImages : Obligations.NewHartLoadsItsImages := by
  refine fun cfg kernel img => ⟨fun h => ?_, fun h => ?_⟩
  · rw [newHart_of_fits cfg img h]
    exact ⟨rfl, read_load_empty kernel ramBase⟩
  · rw [newHart_of_too_long cfg img h]

end Sys2Proof.Machine
end
